-- ==== Sys2Proof/Word.lean ====
section
/-!
DEFINITION. The byte, the only machine word every storage space of the block moves (R50, R57), and the array that
holds the Huffman arena.
-/

namespace Sys2Proof

/-- One byte: the cell of `IN`, `RING` and `OUT` (R50). Bit 7 is the most significant bit (R11). -/
abbrev Byte := BitVec 8

/-- An array of numbers indexed by node index, as a binary trie: the value at a node belongs to the index 1 there, the
index `2·k` of a node is the index `k` of its `even` part, and `2·k + 1` the index `k` of its `odd` part. An index without a
value has no cell, and index 0, which is `NIL`, never has one (R25). -/
inductive Cells where
  | nil
  | node (value : Option Nat) (even odd : Cells)
deriving DecidableEq, Repr, Inhabited

/-- `NIL = 0`, the value of an absent link (R7). -/
abbrev NIL : Nat := 0

/-- `ROOT = 1`, the node index of the root (R7). -/
abbrev ROOT : Nat := 1

end Sys2Proof
end

