-- ==== Sys2Proof/Config.lean ====
section
/-!
DEFINITION. The configuration constants of R5, the constants derived from them (R6, R7), and the free values: one
opaque function for each kind of value that the spec leaves open.
-/

namespace Sys2Proof

/-- The range index `r` of a copy code, 0..5 (R5: `COPY_RANGES = 6`, fixed by the source). -/
inductive CopyRange where
  | r0 | r1 | r2 | r3 | r4 | r5
deriving DecidableEq, Repr

/-- The number that the spec writes for a range index. -/
def CopyRange.index : CopyRange → Nat
  | .r0 => 0 | .r1 => 1 | .r2 => 2 | .r3 => 3 | .r4 => 4 | .r5 => 5

/-- The range with a given index; none above 5 (`91_not_in_source.md` N20: there is no seventh range). -/
def CopyRange.ofIndex? : Nat → Option CopyRange
  | 0 => some .r0 | 1 => some .r1 | 2 => some .r2 | 3 => some .r3 | 4 => some .r4 | 5 => some .r5
  | _ => none

/-- A table of six entries indexed by the range index (R29). -/
structure PerRange where
  r0 : Nat
  r1 : Nat
  r2 : Nat
  r3 : Nat
  r4 : Nat
  r5 : Nat
deriving DecidableEq, Repr

/-- Entry `r` of a six-entry table. -/
def PerRange.get (t : PerRange) : CopyRange → Nat
  | .r0 => t.r0 | .r1 => t.r1 | .r2 => t.r2 | .r3 => t.r3 | .r4 => t.r4 | .r5 => t.r5

/-- A six-entry table with entry `r` replaced. -/
def PerRange.set (t : PerRange) (r : CopyRange) (v : Nat) : PerRange :=
  match r with
  | .r0 => { t with r0 := v } | .r1 => { t with r1 := v } | .r2 => { t with r2 := v }
  | .r3 => { t with r3 := v } | .r4 => { t with r4 := v } | .r5 => { t with r5 := v }

/-- One value for each configuration constant of R5: what the `CFG_*` registers hold (R46) and what `START` latches
(R9). All are natural numbers. -/
structure Cfg where
  maxChar : Nat
  maxFrequency : Nat
  terminateCode : Nat
  firstCode : Nat
  minCopy : Nat
  maxCopy : Nat
  copyMin : PerRange
  copyMax : PerRange
  copyBits : PerRange
deriving DecidableEq, Repr

/-- The default configuration, the reference format (R5, third column). -/
def Cfg.default : Cfg where
  maxChar := 628
  maxFrequency := 2000
  terminateCode := 256
  firstCode := 257
  minCopy := 3
  maxCopy := 64
  copyMin := ⟨0, 16, 80, 336, 1360, 5456⟩
  copyMax := ⟨15, 79, 335, 1359, 5455, 21839⟩
  copyBits := ⟨4, 6, 8, 10, 12, 14⟩

/-- `successMax = maxChar + 1`, the least leaf index (R6, R26). -/
def Cfg.successMax (c : Cfg) : Nat := c.maxChar + 1

/-- `twiceMax = 2·maxChar + 1`, the highest node index (R7). -/
def Cfg.twiceMax (c : Cfg) : Nat := 2 * c.maxChar + 1

/-- `historySize = copyMax[5] + maxCopy`, the number of ring cells (R6). -/
def Cfg.historySize (c : Cfg) : Nat := c.copyMax.r5 + c.maxCopy

/-- `codesPerRange = maxCopy − minCopy + 1` (R6). -/
def Cfg.codesPerRange (c : Cfg) : Nat := c.maxCopy - c.minCopy + 1

/-- `COPY_RANGES = 6` (R5). -/
abbrev copyRanges : Nat := 6

/-- `CODE_W = 14`, the width of the `code` register and so the largest operand of `NEXTCODE` (R7, R92). -/
abbrev codeW : Nat := 14

/-- The registers and the host reads whose value the spec leaves unspecified in some state (R164 (4), R45, R47). -/
inductive Unspecified where
  | pos | bitbuf | bitcnt | code | mask
  | nodeA | nodeB | nodeUa | nodeUua | nodeP | nodeX | nodeNxt | nodeN
  | count | rd | copyI | sym | rangeR | length | extra | distance
  | readErrcode | readOutLen | readOut
deriving DecidableEq, Repr

/-- The four arrays of the Huffman arena (R25), as names for `Config.freeCells`. -/
inductive ArenaArray where
  | left | right | up | weight
deriving DecidableEq, Repr

/-- FREE VALUE (R164 (4), R45, R47): a register or a host read whose value is unspecified holds
`Config.freeNat which k`, where `k` counts the occasions. Nothing constrains it. -/
opaque Config.freeNat : Unspecified → Nat → Nat

/-- FREE VALUE (R164 (4)): the content of an arena array after an error. -/
opaque Config.freeCells : ArenaArray → Nat → Cells

/-- FREE VALUE (R164 (3)): the bytes behind the `OUT` window after an error. -/
opaque Config.freeOut : Nat → List Byte

/-- FREE VALUE (U17, R182 (2)): what the `IN` window holds at an address that the host has not written since power-on. -/
opaque Config.unwrittenInput : Nat → Byte

/-- FREE VALUE (R48, R180, U4): what a ring cell holds that this run has not written. -/
opaque Config.unwrittenRing : Nat → Byte

/-- FREE VALUE: the weight read at a node index that has no `weight` cell. R111 requires that this never happens; the
well-formed arenas of R27 have every cell. -/
opaque Config.absentWeight : Nat → Nat

end Sys2Proof
end

