-- ==== Sys2Proof/Syntax.lean ====
section
/-!
DEFINITION. The stream instructions: one constructor for each row of spec/opcode_table.json (R72, R79).
A copy row carries no operand field. Its range and its length are fixed by the symbol (R73). Its `xbits` field is not
part of the symbol: it follows the Huffman code in the stream, and the instruction itself reads it there with
`NEXTCODE` (R144), so the meaning reads it from the cursor and the constructor does not hold it.
-/

namespace Sys2Proof

/-- `copyR_L` is the table's row `COPYR.L`: a copy of length `L` with range index `R`. -/
inductive Instr where
  /-- `LIT byte`: symbols below `terminateCode` (R142). -/
  | lit (byte : Byte)
  /-- `TERM`: the terminate symbol (R143). -/
  | term
  | copy0_3 | copy0_4 | copy0_5 | copy0_6 | copy0_7 | copy0_8 | copy0_9 | copy0_10
  | copy0_11 | copy0_12 | copy0_13 | copy0_14 | copy0_15 | copy0_16 | copy0_17 | copy0_18
  | copy0_19 | copy0_20 | copy0_21 | copy0_22 | copy0_23 | copy0_24 | copy0_25 | copy0_26
  | copy0_27 | copy0_28 | copy0_29 | copy0_30 | copy0_31 | copy0_32 | copy0_33 | copy0_34
  | copy0_35 | copy0_36 | copy0_37 | copy0_38 | copy0_39 | copy0_40 | copy0_41 | copy0_42
  | copy0_43 | copy0_44 | copy0_45 | copy0_46 | copy0_47 | copy0_48 | copy0_49 | copy0_50
  | copy0_51 | copy0_52 | copy0_53 | copy0_54 | copy0_55 | copy0_56 | copy0_57 | copy0_58
  | copy0_59 | copy0_60 | copy0_61 | copy0_62 | copy0_63 | copy0_64
  | copy1_3 | copy1_4 | copy1_5 | copy1_6 | copy1_7 | copy1_8 | copy1_9 | copy1_10
  | copy1_11 | copy1_12 | copy1_13 | copy1_14 | copy1_15 | copy1_16 | copy1_17 | copy1_18
  | copy1_19 | copy1_20 | copy1_21 | copy1_22 | copy1_23 | copy1_24 | copy1_25 | copy1_26
  | copy1_27 | copy1_28 | copy1_29 | copy1_30 | copy1_31 | copy1_32 | copy1_33 | copy1_34
  | copy1_35 | copy1_36 | copy1_37 | copy1_38 | copy1_39 | copy1_40 | copy1_41 | copy1_42
  | copy1_43 | copy1_44 | copy1_45 | copy1_46 | copy1_47 | copy1_48 | copy1_49 | copy1_50
  | copy1_51 | copy1_52 | copy1_53 | copy1_54 | copy1_55 | copy1_56 | copy1_57 | copy1_58
  | copy1_59 | copy1_60 | copy1_61 | copy1_62 | copy1_63 | copy1_64
  | copy2_3 | copy2_4 | copy2_5 | copy2_6 | copy2_7 | copy2_8 | copy2_9 | copy2_10
  | copy2_11 | copy2_12 | copy2_13 | copy2_14 | copy2_15 | copy2_16 | copy2_17 | copy2_18
  | copy2_19 | copy2_20 | copy2_21 | copy2_22 | copy2_23 | copy2_24 | copy2_25 | copy2_26
  | copy2_27 | copy2_28 | copy2_29 | copy2_30 | copy2_31 | copy2_32 | copy2_33 | copy2_34
  | copy2_35 | copy2_36 | copy2_37 | copy2_38 | copy2_39 | copy2_40 | copy2_41 | copy2_42
  | copy2_43 | copy2_44 | copy2_45 | copy2_46 | copy2_47 | copy2_48 | copy2_49 | copy2_50
  | copy2_51 | copy2_52 | copy2_53 | copy2_54 | copy2_55 | copy2_56 | copy2_57 | copy2_58
  | copy2_59 | copy2_60 | copy2_61 | copy2_62 | copy2_63 | copy2_64
  | copy3_3 | copy3_4 | copy3_5 | copy3_6 | copy3_7 | copy3_8 | copy3_9 | copy3_10
  | copy3_11 | copy3_12 | copy3_13 | copy3_14 | copy3_15 | copy3_16 | copy3_17 | copy3_18
  | copy3_19 | copy3_20 | copy3_21 | copy3_22 | copy3_23 | copy3_24 | copy3_25 | copy3_26
  | copy3_27 | copy3_28 | copy3_29 | copy3_30 | copy3_31 | copy3_32 | copy3_33 | copy3_34
  | copy3_35 | copy3_36 | copy3_37 | copy3_38 | copy3_39 | copy3_40 | copy3_41 | copy3_42
  | copy3_43 | copy3_44 | copy3_45 | copy3_46 | copy3_47 | copy3_48 | copy3_49 | copy3_50
  | copy3_51 | copy3_52 | copy3_53 | copy3_54 | copy3_55 | copy3_56 | copy3_57 | copy3_58
  | copy3_59 | copy3_60 | copy3_61 | copy3_62 | copy3_63 | copy3_64
  | copy4_3 | copy4_4 | copy4_5 | copy4_6 | copy4_7 | copy4_8 | copy4_9 | copy4_10
  | copy4_11 | copy4_12 | copy4_13 | copy4_14 | copy4_15 | copy4_16 | copy4_17 | copy4_18
  | copy4_19 | copy4_20 | copy4_21 | copy4_22 | copy4_23 | copy4_24 | copy4_25 | copy4_26
  | copy4_27 | copy4_28 | copy4_29 | copy4_30 | copy4_31 | copy4_32 | copy4_33 | copy4_34
  | copy4_35 | copy4_36 | copy4_37 | copy4_38 | copy4_39 | copy4_40 | copy4_41 | copy4_42
  | copy4_43 | copy4_44 | copy4_45 | copy4_46 | copy4_47 | copy4_48 | copy4_49 | copy4_50
  | copy4_51 | copy4_52 | copy4_53 | copy4_54 | copy4_55 | copy4_56 | copy4_57 | copy4_58
  | copy4_59 | copy4_60 | copy4_61 | copy4_62 | copy4_63 | copy4_64
  | copy5_3 | copy5_4 | copy5_5 | copy5_6 | copy5_7 | copy5_8 | copy5_9 | copy5_10
  | copy5_11 | copy5_12 | copy5_13 | copy5_14 | copy5_15 | copy5_16 | copy5_17 | copy5_18
  | copy5_19 | copy5_20 | copy5_21 | copy5_22 | copy5_23 | copy5_24 | copy5_25 | copy5_26
  | copy5_27 | copy5_28 | copy5_29 | copy5_30 | copy5_31 | copy5_32 | copy5_33 | copy5_34
  | copy5_35 | copy5_36 | copy5_37 | copy5_38 | copy5_39 | copy5_40 | copy5_41 | copy5_42
  | copy5_43 | copy5_44 | copy5_45 | copy5_46 | copy5_47 | copy5_48 | copy5_49 | copy5_50
  | copy5_51 | copy5_52 | copy5_53 | copy5_54 | copy5_55 | copy5_56 | copy5_57 | copy5_58
  | copy5_59 | copy5_60 | copy5_61 | copy5_62 | copy5_63 | copy5_64
deriving DecidableEq, Repr

end Sys2Proof
end

