-- ==== Sys2Proof/WellFormed.lean ====
section
/-!
DEFINITION. When a configuration is valid (R8) and when an instruction can be expressed under a configuration (R72,
R73).
-/

namespace Sys2Proof

/-- The six range indices, in order. -/
def CopyRange.all : List CopyRange := [.r0, .r1, .r2, .r3, .r4, .r5]

/-- R8 (a): a literal symbol is written to a byte. -/
def Cfg.terminateOk (c : Cfg) : Bool := 1 ≤ c.terminateCode && c.terminateCode ≤ 256

/-- R8 (b): no symbol lies between terminate and the first copy code. -/
def Cfg.firstOk (c : Cfg) : Bool := c.firstCode == c.terminateCode + 1

/-- R8 (c). -/
def Cfg.lengthsOk (c : Cfg) : Bool := 1 ≤ c.minCopy && c.minCopy ≤ c.maxCopy

/-- R8 (d): `maxChar = firstCode + COPY_RANGES · codesPerRange − 1`, written without the subtraction. -/
def Cfg.alphabetOk (c : Cfg) : Bool := c.maxChar + 1 == c.firstCode + copyRanges * c.codesPerRange

/-- R8 (e): every extra-bits field fits one `NEXTCODE`. -/
def Cfg.bitsOk (c : Cfg) : Bool := CopyRange.all.all fun r => c.copyBits.get r ≤ codeW

/-- R8 (f): every decodable distance fits the ring. -/
def Cfg.distancesOk (c : Cfg) : Bool :=
  CopyRange.all.all fun r => c.copyMin.get r + (2 ^ c.copyBits.get r - 1) + c.maxCopy ≤ c.historySize

/-- R8 (g). -/
def Cfg.frequencyOk (c : Cfg) : Bool := 2 ≤ c.maxFrequency

/-- R8: the seven conditions together. The spec gives the block no meaning under a configuration that fails one. -/
def Cfg.valid (c : Cfg) : Bool :=
  c.terminateOk && c.firstOk && c.lengthsOk && c.alphabetOk && c.bitsOk && c.distancesOk && c.frequencyOk

/-- A literal is expressible when its symbol lies below `terminateCode` (R141). -/
def Cfg.literalOk (c : Cfg) (b : Byte) : Bool := b.toNat < c.terminateCode

/-- A copy length is expressible when it lies in `minCopy..maxCopy` (R73). -/
def Cfg.copyLengthOk (c : Cfg) (len : Nat) : Bool := c.minCopy ≤ len && len ≤ c.maxCopy

/-- The `xbits` field of range `r` holds exactly `copyBits[r]` bits (R70, R80). -/
def Cfg.xbitsOk (c : Cfg) (r : CopyRange) (xbits : List Bool) : Bool := xbits.length == c.copyBits.get r

end Sys2Proof
end

