-- ==== Sys2Proof/Decode.lean ====
section
/-!
DEFINITION. The opcode map: from a decoded symbol to the instruction (R72, R73, R79, R141), total on every number and
rejecting by name, and its inverse, the encoder (R73). The bits of the stream are turned into a symbol by the tree walk
`DECODESYM` (R100), which is in Machine/Huffman.lean, because the code of a symbol depends on the tree (R71).
-/

namespace Sys2Proof

/-- A stream instruction by its operands, under any configuration: what R141 dispatches to. -/
inductive Op where
  | lit (byte : Byte)
  | term
  | copy (r : CopyRange) (length : Nat)
deriving DecidableEq, Repr

/-- Why a number is no symbol of an instruction. -/
inductive DecodeError where
  /-- The number is above `maxChar`: no leaf represents it (R79, N20). -/
  | aboveMaxChar
  /-- A literal that does not fit a byte, or a range index above 5: no valid configuration has one (R8 (a), (d)). -/
  | configurationInvalid
  /-- The bytes do not hold one 16-bit table word. -/
  | notOneWord
deriving DecidableEq, Repr

/-- A decoded symbol: a row of the opcode table, or a copy whose length has no row there (lengths outside 3..64 exist
only under a configuration other than the default). -/
inductive Decoded where
  | row (i : Instr)
  | offTable (r : CopyRange) (length : Nat)
deriving DecidableEq, Repr

/-- R73: `r = (sym − firstCode) div codesPerRange`. -/
def rangeIndexOf (c : Cfg) (sym : Nat) : Nat := (sym - c.firstCode) / c.codesPerRange

/-- R73, R144: `length = sym − firstCode + minCopy − r · codesPerRange`, in the order of R153 (b), so that no difference is
negative. -/
def lengthOf (c : Cfg) (sym : Nat) : Nat :=
  c.minCopy + ((sym - c.firstCode) - rangeIndexOf c sym * c.codesPerRange)

/-- R141: equality with `terminateCode` first, then `< terminateCode`, else a copy. -/
def dispatchSymbol (c : Cfg) (sym : Nat) : Except DecodeError Op :=
  if sym = c.terminateCode then .ok .term
  else if sym < c.terminateCode then
    if sym < 256 then .ok (.lit (BitVec.ofNat 8 sym)) else .error .configurationInvalid
  else if c.maxChar < sym then .error .aboveMaxChar
  else match CopyRange.ofIndex? (rangeIndexOf c sym) with
    | some r => .ok (.copy r (lengthOf c sym))
    | none => .error .configurationInvalid

/-- The rows `COPY0.3` to `COPY0.64` of the opcode table, by length. -/
def copyRows0 : List Instr :=
  [.copy0_3, .copy0_4, .copy0_5, .copy0_6, .copy0_7, .copy0_8, .copy0_9, .copy0_10,
   .copy0_11, .copy0_12, .copy0_13, .copy0_14, .copy0_15, .copy0_16, .copy0_17, .copy0_18,
   .copy0_19, .copy0_20, .copy0_21, .copy0_22, .copy0_23, .copy0_24, .copy0_25, .copy0_26,
   .copy0_27, .copy0_28, .copy0_29, .copy0_30, .copy0_31, .copy0_32, .copy0_33, .copy0_34,
   .copy0_35, .copy0_36, .copy0_37, .copy0_38, .copy0_39, .copy0_40, .copy0_41, .copy0_42,
   .copy0_43, .copy0_44, .copy0_45, .copy0_46, .copy0_47, .copy0_48, .copy0_49, .copy0_50,
   .copy0_51, .copy0_52, .copy0_53, .copy0_54, .copy0_55, .copy0_56, .copy0_57, .copy0_58,
   .copy0_59, .copy0_60, .copy0_61, .copy0_62, .copy0_63, .copy0_64]

/-- The rows `COPY1.3` to `COPY1.64` of the opcode table, by length. -/
def copyRows1 : List Instr :=
  [.copy1_3, .copy1_4, .copy1_5, .copy1_6, .copy1_7, .copy1_8, .copy1_9, .copy1_10,
   .copy1_11, .copy1_12, .copy1_13, .copy1_14, .copy1_15, .copy1_16, .copy1_17, .copy1_18,
   .copy1_19, .copy1_20, .copy1_21, .copy1_22, .copy1_23, .copy1_24, .copy1_25, .copy1_26,
   .copy1_27, .copy1_28, .copy1_29, .copy1_30, .copy1_31, .copy1_32, .copy1_33, .copy1_34,
   .copy1_35, .copy1_36, .copy1_37, .copy1_38, .copy1_39, .copy1_40, .copy1_41, .copy1_42,
   .copy1_43, .copy1_44, .copy1_45, .copy1_46, .copy1_47, .copy1_48, .copy1_49, .copy1_50,
   .copy1_51, .copy1_52, .copy1_53, .copy1_54, .copy1_55, .copy1_56, .copy1_57, .copy1_58,
   .copy1_59, .copy1_60, .copy1_61, .copy1_62, .copy1_63, .copy1_64]

/-- The rows `COPY2.3` to `COPY2.64` of the opcode table, by length. -/
def copyRows2 : List Instr :=
  [.copy2_3, .copy2_4, .copy2_5, .copy2_6, .copy2_7, .copy2_8, .copy2_9, .copy2_10,
   .copy2_11, .copy2_12, .copy2_13, .copy2_14, .copy2_15, .copy2_16, .copy2_17, .copy2_18,
   .copy2_19, .copy2_20, .copy2_21, .copy2_22, .copy2_23, .copy2_24, .copy2_25, .copy2_26,
   .copy2_27, .copy2_28, .copy2_29, .copy2_30, .copy2_31, .copy2_32, .copy2_33, .copy2_34,
   .copy2_35, .copy2_36, .copy2_37, .copy2_38, .copy2_39, .copy2_40, .copy2_41, .copy2_42,
   .copy2_43, .copy2_44, .copy2_45, .copy2_46, .copy2_47, .copy2_48, .copy2_49, .copy2_50,
   .copy2_51, .copy2_52, .copy2_53, .copy2_54, .copy2_55, .copy2_56, .copy2_57, .copy2_58,
   .copy2_59, .copy2_60, .copy2_61, .copy2_62, .copy2_63, .copy2_64]

/-- The rows `COPY3.3` to `COPY3.64` of the opcode table, by length. -/
def copyRows3 : List Instr :=
  [.copy3_3, .copy3_4, .copy3_5, .copy3_6, .copy3_7, .copy3_8, .copy3_9, .copy3_10,
   .copy3_11, .copy3_12, .copy3_13, .copy3_14, .copy3_15, .copy3_16, .copy3_17, .copy3_18,
   .copy3_19, .copy3_20, .copy3_21, .copy3_22, .copy3_23, .copy3_24, .copy3_25, .copy3_26,
   .copy3_27, .copy3_28, .copy3_29, .copy3_30, .copy3_31, .copy3_32, .copy3_33, .copy3_34,
   .copy3_35, .copy3_36, .copy3_37, .copy3_38, .copy3_39, .copy3_40, .copy3_41, .copy3_42,
   .copy3_43, .copy3_44, .copy3_45, .copy3_46, .copy3_47, .copy3_48, .copy3_49, .copy3_50,
   .copy3_51, .copy3_52, .copy3_53, .copy3_54, .copy3_55, .copy3_56, .copy3_57, .copy3_58,
   .copy3_59, .copy3_60, .copy3_61, .copy3_62, .copy3_63, .copy3_64]

/-- The rows `COPY4.3` to `COPY4.64` of the opcode table, by length. -/
def copyRows4 : List Instr :=
  [.copy4_3, .copy4_4, .copy4_5, .copy4_6, .copy4_7, .copy4_8, .copy4_9, .copy4_10,
   .copy4_11, .copy4_12, .copy4_13, .copy4_14, .copy4_15, .copy4_16, .copy4_17, .copy4_18,
   .copy4_19, .copy4_20, .copy4_21, .copy4_22, .copy4_23, .copy4_24, .copy4_25, .copy4_26,
   .copy4_27, .copy4_28, .copy4_29, .copy4_30, .copy4_31, .copy4_32, .copy4_33, .copy4_34,
   .copy4_35, .copy4_36, .copy4_37, .copy4_38, .copy4_39, .copy4_40, .copy4_41, .copy4_42,
   .copy4_43, .copy4_44, .copy4_45, .copy4_46, .copy4_47, .copy4_48, .copy4_49, .copy4_50,
   .copy4_51, .copy4_52, .copy4_53, .copy4_54, .copy4_55, .copy4_56, .copy4_57, .copy4_58,
   .copy4_59, .copy4_60, .copy4_61, .copy4_62, .copy4_63, .copy4_64]

/-- The rows `COPY5.3` to `COPY5.64` of the opcode table, by length. -/
def copyRows5 : List Instr :=
  [.copy5_3, .copy5_4, .copy5_5, .copy5_6, .copy5_7, .copy5_8, .copy5_9, .copy5_10,
   .copy5_11, .copy5_12, .copy5_13, .copy5_14, .copy5_15, .copy5_16, .copy5_17, .copy5_18,
   .copy5_19, .copy5_20, .copy5_21, .copy5_22, .copy5_23, .copy5_24, .copy5_25, .copy5_26,
   .copy5_27, .copy5_28, .copy5_29, .copy5_30, .copy5_31, .copy5_32, .copy5_33, .copy5_34,
   .copy5_35, .copy5_36, .copy5_37, .copy5_38, .copy5_39, .copy5_40, .copy5_41, .copy5_42,
   .copy5_43, .copy5_44, .copy5_45, .copy5_46, .copy5_47, .copy5_48, .copy5_49, .copy5_50,
   .copy5_51, .copy5_52, .copy5_53, .copy5_54, .copy5_55, .copy5_56, .copy5_57, .copy5_58,
   .copy5_59, .copy5_60, .copy5_61, .copy5_62, .copy5_63, .copy5_64]

/-- The copy rows of one range. -/
def copyRows : CopyRange → List Instr
  | .r0 => copyRows0 | .r1 => copyRows1 | .r2 => copyRows2
  | .r3 => copyRows3 | .r4 => copyRows4 | .r5 => copyRows5

/-- The table's row for an instruction, where it has one: `COPYr.len` for `len = 3..64` (R79). -/
def Op.toDecoded : Op → Decoded
  | .lit b => .row (.lit b)
  | .term => .row .term
  | .copy r len =>
    if 3 ≤ len then
      match (copyRows r)[len - 3]? with
      | some i => .row i
      | none => .offTable r len
    else .offTable r len

/-- The instruction of a symbol under a configuration (R72, R73, R141). -/
def decodeSymbol (c : Cfg) (sym : Nat) : Except DecodeError Decoded :=
  match dispatchSymbol c sym with
  | .ok op => .ok op.toDecoded
  | .error e => .error e

/-- The operands that a row of the opcode table fixes: its range and its length. -/
def Instr.toOp : Instr → Op
  | .lit b => .lit b
  | .term => .term
  | .copy0_3 => .copy .r0 3
  | .copy0_4 => .copy .r0 4
  | .copy0_5 => .copy .r0 5
  | .copy0_6 => .copy .r0 6
  | .copy0_7 => .copy .r0 7
  | .copy0_8 => .copy .r0 8
  | .copy0_9 => .copy .r0 9
  | .copy0_10 => .copy .r0 10
  | .copy0_11 => .copy .r0 11
  | .copy0_12 => .copy .r0 12
  | .copy0_13 => .copy .r0 13
  | .copy0_14 => .copy .r0 14
  | .copy0_15 => .copy .r0 15
  | .copy0_16 => .copy .r0 16
  | .copy0_17 => .copy .r0 17
  | .copy0_18 => .copy .r0 18
  | .copy0_19 => .copy .r0 19
  | .copy0_20 => .copy .r0 20
  | .copy0_21 => .copy .r0 21
  | .copy0_22 => .copy .r0 22
  | .copy0_23 => .copy .r0 23
  | .copy0_24 => .copy .r0 24
  | .copy0_25 => .copy .r0 25
  | .copy0_26 => .copy .r0 26
  | .copy0_27 => .copy .r0 27
  | .copy0_28 => .copy .r0 28
  | .copy0_29 => .copy .r0 29
  | .copy0_30 => .copy .r0 30
  | .copy0_31 => .copy .r0 31
  | .copy0_32 => .copy .r0 32
  | .copy0_33 => .copy .r0 33
  | .copy0_34 => .copy .r0 34
  | .copy0_35 => .copy .r0 35
  | .copy0_36 => .copy .r0 36
  | .copy0_37 => .copy .r0 37
  | .copy0_38 => .copy .r0 38
  | .copy0_39 => .copy .r0 39
  | .copy0_40 => .copy .r0 40
  | .copy0_41 => .copy .r0 41
  | .copy0_42 => .copy .r0 42
  | .copy0_43 => .copy .r0 43
  | .copy0_44 => .copy .r0 44
  | .copy0_45 => .copy .r0 45
  | .copy0_46 => .copy .r0 46
  | .copy0_47 => .copy .r0 47
  | .copy0_48 => .copy .r0 48
  | .copy0_49 => .copy .r0 49
  | .copy0_50 => .copy .r0 50
  | .copy0_51 => .copy .r0 51
  | .copy0_52 => .copy .r0 52
  | .copy0_53 => .copy .r0 53
  | .copy0_54 => .copy .r0 54
  | .copy0_55 => .copy .r0 55
  | .copy0_56 => .copy .r0 56
  | .copy0_57 => .copy .r0 57
  | .copy0_58 => .copy .r0 58
  | .copy0_59 => .copy .r0 59
  | .copy0_60 => .copy .r0 60
  | .copy0_61 => .copy .r0 61
  | .copy0_62 => .copy .r0 62
  | .copy0_63 => .copy .r0 63
  | .copy0_64 => .copy .r0 64
  | .copy1_3 => .copy .r1 3
  | .copy1_4 => .copy .r1 4
  | .copy1_5 => .copy .r1 5
  | .copy1_6 => .copy .r1 6
  | .copy1_7 => .copy .r1 7
  | .copy1_8 => .copy .r1 8
  | .copy1_9 => .copy .r1 9
  | .copy1_10 => .copy .r1 10
  | .copy1_11 => .copy .r1 11
  | .copy1_12 => .copy .r1 12
  | .copy1_13 => .copy .r1 13
  | .copy1_14 => .copy .r1 14
  | .copy1_15 => .copy .r1 15
  | .copy1_16 => .copy .r1 16
  | .copy1_17 => .copy .r1 17
  | .copy1_18 => .copy .r1 18
  | .copy1_19 => .copy .r1 19
  | .copy1_20 => .copy .r1 20
  | .copy1_21 => .copy .r1 21
  | .copy1_22 => .copy .r1 22
  | .copy1_23 => .copy .r1 23
  | .copy1_24 => .copy .r1 24
  | .copy1_25 => .copy .r1 25
  | .copy1_26 => .copy .r1 26
  | .copy1_27 => .copy .r1 27
  | .copy1_28 => .copy .r1 28
  | .copy1_29 => .copy .r1 29
  | .copy1_30 => .copy .r1 30
  | .copy1_31 => .copy .r1 31
  | .copy1_32 => .copy .r1 32
  | .copy1_33 => .copy .r1 33
  | .copy1_34 => .copy .r1 34
  | .copy1_35 => .copy .r1 35
  | .copy1_36 => .copy .r1 36
  | .copy1_37 => .copy .r1 37
  | .copy1_38 => .copy .r1 38
  | .copy1_39 => .copy .r1 39
  | .copy1_40 => .copy .r1 40
  | .copy1_41 => .copy .r1 41
  | .copy1_42 => .copy .r1 42
  | .copy1_43 => .copy .r1 43
  | .copy1_44 => .copy .r1 44
  | .copy1_45 => .copy .r1 45
  | .copy1_46 => .copy .r1 46
  | .copy1_47 => .copy .r1 47
  | .copy1_48 => .copy .r1 48
  | .copy1_49 => .copy .r1 49
  | .copy1_50 => .copy .r1 50
  | .copy1_51 => .copy .r1 51
  | .copy1_52 => .copy .r1 52
  | .copy1_53 => .copy .r1 53
  | .copy1_54 => .copy .r1 54
  | .copy1_55 => .copy .r1 55
  | .copy1_56 => .copy .r1 56
  | .copy1_57 => .copy .r1 57
  | .copy1_58 => .copy .r1 58
  | .copy1_59 => .copy .r1 59
  | .copy1_60 => .copy .r1 60
  | .copy1_61 => .copy .r1 61
  | .copy1_62 => .copy .r1 62
  | .copy1_63 => .copy .r1 63
  | .copy1_64 => .copy .r1 64
  | .copy2_3 => .copy .r2 3
  | .copy2_4 => .copy .r2 4
  | .copy2_5 => .copy .r2 5
  | .copy2_6 => .copy .r2 6
  | .copy2_7 => .copy .r2 7
  | .copy2_8 => .copy .r2 8
  | .copy2_9 => .copy .r2 9
  | .copy2_10 => .copy .r2 10
  | .copy2_11 => .copy .r2 11
  | .copy2_12 => .copy .r2 12
  | .copy2_13 => .copy .r2 13
  | .copy2_14 => .copy .r2 14
  | .copy2_15 => .copy .r2 15
  | .copy2_16 => .copy .r2 16
  | .copy2_17 => .copy .r2 17
  | .copy2_18 => .copy .r2 18
  | .copy2_19 => .copy .r2 19
  | .copy2_20 => .copy .r2 20
  | .copy2_21 => .copy .r2 21
  | .copy2_22 => .copy .r2 22
  | .copy2_23 => .copy .r2 23
  | .copy2_24 => .copy .r2 24
  | .copy2_25 => .copy .r2 25
  | .copy2_26 => .copy .r2 26
  | .copy2_27 => .copy .r2 27
  | .copy2_28 => .copy .r2 28
  | .copy2_29 => .copy .r2 29
  | .copy2_30 => .copy .r2 30
  | .copy2_31 => .copy .r2 31
  | .copy2_32 => .copy .r2 32
  | .copy2_33 => .copy .r2 33
  | .copy2_34 => .copy .r2 34
  | .copy2_35 => .copy .r2 35
  | .copy2_36 => .copy .r2 36
  | .copy2_37 => .copy .r2 37
  | .copy2_38 => .copy .r2 38
  | .copy2_39 => .copy .r2 39
  | .copy2_40 => .copy .r2 40
  | .copy2_41 => .copy .r2 41
  | .copy2_42 => .copy .r2 42
  | .copy2_43 => .copy .r2 43
  | .copy2_44 => .copy .r2 44
  | .copy2_45 => .copy .r2 45
  | .copy2_46 => .copy .r2 46
  | .copy2_47 => .copy .r2 47
  | .copy2_48 => .copy .r2 48
  | .copy2_49 => .copy .r2 49
  | .copy2_50 => .copy .r2 50
  | .copy2_51 => .copy .r2 51
  | .copy2_52 => .copy .r2 52
  | .copy2_53 => .copy .r2 53
  | .copy2_54 => .copy .r2 54
  | .copy2_55 => .copy .r2 55
  | .copy2_56 => .copy .r2 56
  | .copy2_57 => .copy .r2 57
  | .copy2_58 => .copy .r2 58
  | .copy2_59 => .copy .r2 59
  | .copy2_60 => .copy .r2 60
  | .copy2_61 => .copy .r2 61
  | .copy2_62 => .copy .r2 62
  | .copy2_63 => .copy .r2 63
  | .copy2_64 => .copy .r2 64
  | .copy3_3 => .copy .r3 3
  | .copy3_4 => .copy .r3 4
  | .copy3_5 => .copy .r3 5
  | .copy3_6 => .copy .r3 6
  | .copy3_7 => .copy .r3 7
  | .copy3_8 => .copy .r3 8
  | .copy3_9 => .copy .r3 9
  | .copy3_10 => .copy .r3 10
  | .copy3_11 => .copy .r3 11
  | .copy3_12 => .copy .r3 12
  | .copy3_13 => .copy .r3 13
  | .copy3_14 => .copy .r3 14
  | .copy3_15 => .copy .r3 15
  | .copy3_16 => .copy .r3 16
  | .copy3_17 => .copy .r3 17
  | .copy3_18 => .copy .r3 18
  | .copy3_19 => .copy .r3 19
  | .copy3_20 => .copy .r3 20
  | .copy3_21 => .copy .r3 21
  | .copy3_22 => .copy .r3 22
  | .copy3_23 => .copy .r3 23
  | .copy3_24 => .copy .r3 24
  | .copy3_25 => .copy .r3 25
  | .copy3_26 => .copy .r3 26
  | .copy3_27 => .copy .r3 27
  | .copy3_28 => .copy .r3 28
  | .copy3_29 => .copy .r3 29
  | .copy3_30 => .copy .r3 30
  | .copy3_31 => .copy .r3 31
  | .copy3_32 => .copy .r3 32
  | .copy3_33 => .copy .r3 33
  | .copy3_34 => .copy .r3 34
  | .copy3_35 => .copy .r3 35
  | .copy3_36 => .copy .r3 36
  | .copy3_37 => .copy .r3 37
  | .copy3_38 => .copy .r3 38
  | .copy3_39 => .copy .r3 39
  | .copy3_40 => .copy .r3 40
  | .copy3_41 => .copy .r3 41
  | .copy3_42 => .copy .r3 42
  | .copy3_43 => .copy .r3 43
  | .copy3_44 => .copy .r3 44
  | .copy3_45 => .copy .r3 45
  | .copy3_46 => .copy .r3 46
  | .copy3_47 => .copy .r3 47
  | .copy3_48 => .copy .r3 48
  | .copy3_49 => .copy .r3 49
  | .copy3_50 => .copy .r3 50
  | .copy3_51 => .copy .r3 51
  | .copy3_52 => .copy .r3 52
  | .copy3_53 => .copy .r3 53
  | .copy3_54 => .copy .r3 54
  | .copy3_55 => .copy .r3 55
  | .copy3_56 => .copy .r3 56
  | .copy3_57 => .copy .r3 57
  | .copy3_58 => .copy .r3 58
  | .copy3_59 => .copy .r3 59
  | .copy3_60 => .copy .r3 60
  | .copy3_61 => .copy .r3 61
  | .copy3_62 => .copy .r3 62
  | .copy3_63 => .copy .r3 63
  | .copy3_64 => .copy .r3 64
  | .copy4_3 => .copy .r4 3
  | .copy4_4 => .copy .r4 4
  | .copy4_5 => .copy .r4 5
  | .copy4_6 => .copy .r4 6
  | .copy4_7 => .copy .r4 7
  | .copy4_8 => .copy .r4 8
  | .copy4_9 => .copy .r4 9
  | .copy4_10 => .copy .r4 10
  | .copy4_11 => .copy .r4 11
  | .copy4_12 => .copy .r4 12
  | .copy4_13 => .copy .r4 13
  | .copy4_14 => .copy .r4 14
  | .copy4_15 => .copy .r4 15
  | .copy4_16 => .copy .r4 16
  | .copy4_17 => .copy .r4 17
  | .copy4_18 => .copy .r4 18
  | .copy4_19 => .copy .r4 19
  | .copy4_20 => .copy .r4 20
  | .copy4_21 => .copy .r4 21
  | .copy4_22 => .copy .r4 22
  | .copy4_23 => .copy .r4 23
  | .copy4_24 => .copy .r4 24
  | .copy4_25 => .copy .r4 25
  | .copy4_26 => .copy .r4 26
  | .copy4_27 => .copy .r4 27
  | .copy4_28 => .copy .r4 28
  | .copy4_29 => .copy .r4 29
  | .copy4_30 => .copy .r4 30
  | .copy4_31 => .copy .r4 31
  | .copy4_32 => .copy .r4 32
  | .copy4_33 => .copy .r4 33
  | .copy4_34 => .copy .r4 34
  | .copy4_35 => .copy .r4 35
  | .copy4_36 => .copy .r4 36
  | .copy4_37 => .copy .r4 37
  | .copy4_38 => .copy .r4 38
  | .copy4_39 => .copy .r4 39
  | .copy4_40 => .copy .r4 40
  | .copy4_41 => .copy .r4 41
  | .copy4_42 => .copy .r4 42
  | .copy4_43 => .copy .r4 43
  | .copy4_44 => .copy .r4 44
  | .copy4_45 => .copy .r4 45
  | .copy4_46 => .copy .r4 46
  | .copy4_47 => .copy .r4 47
  | .copy4_48 => .copy .r4 48
  | .copy4_49 => .copy .r4 49
  | .copy4_50 => .copy .r4 50
  | .copy4_51 => .copy .r4 51
  | .copy4_52 => .copy .r4 52
  | .copy4_53 => .copy .r4 53
  | .copy4_54 => .copy .r4 54
  | .copy4_55 => .copy .r4 55
  | .copy4_56 => .copy .r4 56
  | .copy4_57 => .copy .r4 57
  | .copy4_58 => .copy .r4 58
  | .copy4_59 => .copy .r4 59
  | .copy4_60 => .copy .r4 60
  | .copy4_61 => .copy .r4 61
  | .copy4_62 => .copy .r4 62
  | .copy4_63 => .copy .r4 63
  | .copy4_64 => .copy .r4 64
  | .copy5_3 => .copy .r5 3
  | .copy5_4 => .copy .r5 4
  | .copy5_5 => .copy .r5 5
  | .copy5_6 => .copy .r5 6
  | .copy5_7 => .copy .r5 7
  | .copy5_8 => .copy .r5 8
  | .copy5_9 => .copy .r5 9
  | .copy5_10 => .copy .r5 10
  | .copy5_11 => .copy .r5 11
  | .copy5_12 => .copy .r5 12
  | .copy5_13 => .copy .r5 13
  | .copy5_14 => .copy .r5 14
  | .copy5_15 => .copy .r5 15
  | .copy5_16 => .copy .r5 16
  | .copy5_17 => .copy .r5 17
  | .copy5_18 => .copy .r5 18
  | .copy5_19 => .copy .r5 19
  | .copy5_20 => .copy .r5 20
  | .copy5_21 => .copy .r5 21
  | .copy5_22 => .copy .r5 22
  | .copy5_23 => .copy .r5 23
  | .copy5_24 => .copy .r5 24
  | .copy5_25 => .copy .r5 25
  | .copy5_26 => .copy .r5 26
  | .copy5_27 => .copy .r5 27
  | .copy5_28 => .copy .r5 28
  | .copy5_29 => .copy .r5 29
  | .copy5_30 => .copy .r5 30
  | .copy5_31 => .copy .r5 31
  | .copy5_32 => .copy .r5 32
  | .copy5_33 => .copy .r5 33
  | .copy5_34 => .copy .r5 34
  | .copy5_35 => .copy .r5 35
  | .copy5_36 => .copy .r5 36
  | .copy5_37 => .copy .r5 37
  | .copy5_38 => .copy .r5 38
  | .copy5_39 => .copy .r5 39
  | .copy5_40 => .copy .r5 40
  | .copy5_41 => .copy .r5 41
  | .copy5_42 => .copy .r5 42
  | .copy5_43 => .copy .r5 43
  | .copy5_44 => .copy .r5 44
  | .copy5_45 => .copy .r5 45
  | .copy5_46 => .copy .r5 46
  | .copy5_47 => .copy .r5 47
  | .copy5_48 => .copy .r5 48
  | .copy5_49 => .copy .r5 49
  | .copy5_50 => .copy .r5 50
  | .copy5_51 => .copy .r5 51
  | .copy5_52 => .copy .r5 52
  | .copy5_53 => .copy .r5 53
  | .copy5_54 => .copy .r5 54
  | .copy5_55 => .copy .r5 55
  | .copy5_56 => .copy .r5 56
  | .copy5_57 => .copy .r5 57
  | .copy5_58 => .copy .r5 58
  | .copy5_59 => .copy .r5 59
  | .copy5_60 => .copy .r5 60
  | .copy5_61 => .copy .r5 61
  | .copy5_62 => .copy .r5 62
  | .copy5_63 => .copy .r5 63
  | .copy5_64 => .copy .r5 64

/-- An instruction is well formed under a configuration when a symbol denotes it there (R72, R73). -/
def Op.wf (c : Cfg) : Op → Bool
  | .lit b => c.literalOk b
  | .term => true
  | .copy _ len => c.copyLengthOk len

/-- Well-formedness of a row of the table under a configuration. Under the default configuration every row is. -/
def Instr.wf (c : Cfg) (i : Instr) : Bool := i.toOp.wf c

/-- The symbol of an instruction (R73, last formula): `sym = firstCode + r · codesPerRange + (length − minCopy)`. -/
def Op.symbol (c : Cfg) : Op → Nat
  | .lit b => b.toNat
  | .term => c.terminateCode
  | .copy r len => c.firstCode + r.index * c.codesPerRange + (len - c.minCopy)

/-- The encoder: the word of a well-formed instruction is its symbol. -/
def encode (c : Cfg) (i : Instr) : Nat := i.toOp.symbol c

/-- Two bytes of a 16-bit table word, least significant byte first, as the table numbers its bits. -/
def wordBytes (w : Nat) : List Byte := [BitVec.ofNat 8 w, BitVec.ofNat 8 (w / 256)]

/-- The decoder on bytes that hold one symbol of the opcode table under the default configuration: the 10-bit symbol
of R79, bit 0 of the first byte its least significant bit, the bits above it zero. -/
def decodeBytes : List Byte → Except DecodeError Decoded
  | [lo, hi] => decodeSymbol Cfg.default (lo.toNat + 256 * hi.toNat)
  | _ => .error .notOneWord

/-- The instruction that the decoder reads from a word of spec/opcode_table.json, whose pattern is over the 10-bit symbol
(R79). The `xbits` that follow a copy in the stream are no part of that pattern and select nothing. -/
def decodeTableWord (nbits w : Nat) : Option Instr :=
  if w < 2 ^ nbits ∧ w < 2 ^ 16 then
    match decodeBytes (wordBytes w) with
    | .ok (.row i) => some i
    | _ => none
  else none

end Sys2Proof
end

