-- ==== Sys2Proof/Machine/State.lean ====
section
/-!
DEFINITION. The state of the block, all of it plain data, and the reasons a step can stop. INVENTORY.md lists every
field with the rule that names it.
-/

namespace Sys2Proof.Machine

/-- A byte memory: the cells something has written, by address, addresses strictly rising. A cell that nothing has
written is not listed and reads as a free value (log 4). -/
abbrev Memory := List Host.Cell

/-- The three error kinds of the block (R160). -/
inductive ErrKind where
  | unexpectedEndOfStream
  | invalidHuffmanCode
  | invalidDistance
deriving DecidableEq, Repr

/-- `STATUS` (R42). -/
inductive Status where
  | idle
  | busy
  | done
  | error
deriving DecidableEq, Repr

/-- The bit cursor and the working registers of `NEXTCODE` (R21, R24). -/
structure BitCursor where
  /-- Index of the next input byte not yet pulled (R21). -/
  pos : Nat
  /-- The byte last pulled, shifted left once for each consumed bit (R21). -/
  bitbuf : Byte
  /-- How many bits of `bitbuf` are not yet consumed, 0..7 between operations (R21, C6). -/
  bitcnt : Nat
  /-- The value that `NEXTCODE` accumulates (R24). -/
  code : Nat
  /-- The bits that the next 1 bit of `NEXTCODE` sets (R24). -/
  mask : Nat
deriving DecidableEq, Repr

/-- The Huffman arena (R25). -/
structure Arena where
  /-- `left[n]`: the child taken on bit 0. -/
  left : Cells
  /-- `right[n]`: the child taken on bit 1. -/
  right : Cells
  /-- `up[n]`: the parent. -/
  up : Cells
  /-- `weight[n]`. -/
  weight : Cells
deriving DecidableEq, Repr

/-- The Huffman arena (R25) and the working registers of `DECODESYM` and `UPDATE` (R28). -/
structure HuffmanModel extends Arena where
  a : Nat
  b : Nat
  ua : Nat
  uua : Nat
  p : Nat
  x : Nat
  nxt : Nat
  /-- The loop index of the rescale (R28). -/
  n : Nat
deriving DecidableEq, Repr

/-- The history ring, the output stream, and the working registers of `APPLYCOPY` (R30, R31, R33, R34). -/
structure HistoryRing where
  /-- `RING`, by cell index (R30). -/
  ring : Memory
  /-- Bytes written to `RING` since `START` (R33). -/
  count : Nat
  /-- `OUT`, in the order the bytes were appended (R31, R56). -/
  out : List Byte
  /-- Read index of a copy (R34). -/
  rd : Nat
  /-- Loop index of a copy (R34). -/
  i : Nat
deriving DecidableEq, Repr

/-- The working registers of the decode loop (R34). -/
structure Decompressor where
  sym : Nat
  r : Nat
  length : Nat
  extra : Nat
  distance : Nat
deriving DecidableEq, Repr

/-- The host-visible registers that have an address of their own (R40 to R46). -/
inductive HostReg where
  | ctrl
  | status
  | errcode
  | inLen
  | outLen
  | cfgMaxchar
  | cfgMaxfreq
  | cfgTerm
  | cfgFirst
  | cfgMincopy
  | cfgMaxcopy
  | cfgCopymin (r : CopyRange)
  | cfgCopymax (r : CopyRange)
  | cfgCopybits (r : CopyRange)
deriving DecidableEq, Repr

/-- One transaction of the host agent (R10, R40). -/
inductive HostOp where
  /-- Write a register. -/
  | write (reg : HostReg) (v : Nat)
  /-- Read a register. -/
  | read (reg : HostReg)
  /-- Write one byte of the `IN` window. -/
  | writeIn (index : Nat) (v : Byte)
  /-- Read one byte of the `OUT` window. -/
  | readOut (index : Nat)
  /-- The host does nothing in this step, and the engine moves. -/
  | wait
deriving DecidableEq, Repr

/-- The whole state. The last three fields are the model's own (log 3, log 7); all others are the spec's. -/
structure State where
  cursor : BitCursor
  model : HuffmanModel
  hist : HistoryRing
  dec : Decompressor
  /-- `STATUS` (R42). -/
  status : Status
  /-- `ERRCODE` (R43); `none` is the value 0 `NONE`. -/
  errcode : Option ErrKind
  /-- The `IN_LEN` register (R44). -/
  inLen : Nat
  /-- The `OUT_LEN` register (R45). -/
  outLen : Nat
  /-- The `CFG_*` registers (R46). -/
  cfgRegs : Cfg
  /-- The `IN` window (R32, R44). -/
  inWin : Memory
  /-- The configuration that `START` latched (R9, R152). -/
  cfg : Cfg
  /-- The input length that `START` latched (R44, R152). -/
  runLen : Nat
  /-- MODEL: the host's coming transactions, oldest first. -/
  hostQueue : List HostOp
  /-- MODEL: what the last host read returned. -/
  hostData : Nat
  /-- MODEL: the counter to which the free values of Config are applied. -/
  freeCount : Nat
deriving DecidableEq, Repr

/-- Why the machine stops with a fault: for no reason. An operation of the block completes or raises (R14), the three
error kinds are taken (R164), and a byte that nothing has written is a free value (log 4). No constructor, so nobody
raises one; safe. -/
inductive Fault where
deriving DecidableEq, Repr

/-- Why the machine refuses: the spec gives the case no meaning (R14). -/
inductive Refusal where
  /-- Raised by exec's arms only: the instruction has no meaning yet. -/
  | notModelled (mnemonic : String)
  /-- Raised by `START` with a configuration that R8 excludes (U9). Safe. -/
  | invalidConfiguration
  /-- Raised by `NEXTCODE` for more than `CODE_W` bits (R92, U10). Safe; no valid configuration asks for it. -/
  | nextCodeTooWide (n : Nat)
  /-- Raised by `APPLYCOPY` with a distance of 0 or above `historySize` (R134, U10). Safe; no valid configuration
  reaches it. -/
  | copyOutsideDomain (distance : Nat)
  /-- Raised by `UPDATE` when following `up` never reaches `ROOT`: the arena is no tree, which R27 (c) excludes. Safe
  (log 12). -/
  | arenaNotATree
  /-- Raised after `DECODESYM` when the leaf it reached stands for no instruction, which R27 and R8 exclude. Safe
  (log 12). -/
  | symbolOutsideAlphabet (sym : Nat)
  /-- Raised by a host write of the `IN` window while `STATUS = BUSY` (R65, R186 (a), U12). Safe. -/
  | inputWrittenDuringRun
deriving DecidableEq, Repr

/-- Power-on (R181, R48): `STATUS = IDLE`, `ERRCODE = 0`, `OUT_LEN = 0`, `IN_LEN = 0`, `CFG_*` at their defaults. The
spec leaves every other piece unspecified; the values here are DESIGN CHOICE (log 2), unsafe. The byte memories list
nothing: every byte of them reads as a free value (log 4). -/
def State.reset : State where
  cursor := { pos := 0, bitbuf := 0, bitcnt := 0, code := 0, mask := 0 }
  model :=
    { left := .nil, right := .nil, up := .nil, weight := .nil,
      a := 0, b := 0, ua := 0, uua := 0, p := 0, x := 0, nxt := 0, n := 0 }
  hist := { ring := [], count := 0, out := [], rd := 0, i := 0 }
  dec := { sym := 0, r := 0, length := 0, extra := 0, distance := 0 }
  status := .idle
  errcode := none
  inLen := 0
  outLen := 0
  cfgRegs := Cfg.default
  inWin := []
  cfg := Cfg.default
  runLen := 0
  hostQueue := []
  hostData := 0
  freeCount := 0

end Sys2Proof.Machine
end

