-- ==== Sys2Proof/Machine/Ops.lean ====
section
/-!
DEFINITION. The named operations over cells, memories and state parts that all meanings share; the result of an
operation (R14); taking an error (R164).
-/

namespace Sys2Proof

/-! ### Arrays indexed by node index (R25) -/

/-- The cell at an index of a non-empty part of an array; the index is at least 1. -/
def Cells.find : Cells → Nat → Option Nat
  | .nil, _ => none
  | .node v e o, k => if k ≤ 1 then v else if k % 2 = 0 then e.find (k / 2) else o.find (k / 2)

/-- The cell at an index, if it exists. `NIL` is not a node and has no cell (R25). -/
def Cells.get (t : Cells) (k : Nat) : Option Nat := if k = NIL then none else t.find k

/-- The value, the even part and the odd part of an array. -/
def Cells.value : Cells → Option Nat
  | .nil => none
  | .node v _ _ => v

/-- See `Cells.value`. -/
def Cells.even : Cells → Cells
  | .nil => .nil
  | .node _ e _ => e

/-- See `Cells.value`. -/
def Cells.odd : Cells → Cells
  | .nil => .nil
  | .node _ _ o => o

/-- Writing the cell at an index of at least 1, under a fuel that is at least the index. -/
def Cells.put : Nat → Cells → Nat → Nat → Cells
  | 0, t, _, _ => t
  | f + 1, t, k, w =>
    if k ≤ 1 then .node (some w) t.even t.odd
    else if k % 2 = 0 then .node t.value (Cells.put f t.even (k / 2) w) t.odd
    else .node t.value t.even (Cells.put f t.odd (k / 2) w)

/-- Writing a cell. Index 0 has no cell, so nothing is written there. -/
def Cells.set (t : Cells) (k w : Nat) : Cells := if k = NIL then t else Cells.put k t k w

/-- The array with every cell replaced by `f` of its value. -/
def Cells.map (f : Nat → Nat) : Cells → Cells
  | .nil => .nil
  | .node v e o => .node (v.map f) (e.map f) (o.map f)

/-- The part of `Cells.upTo` whose index 1 is the index `base + stride`, under a fuel. -/
def Cells.fill (f : Nat → Nat) (hi : Nat) : Nat → Nat → Nat → Cells
  | 0, _, _ => .nil
  | d + 1, base, stride =>
    if hi < base + stride then .nil
    else .node (some (f (base + stride))) (Cells.fill f hi d base (2 * stride))
      (Cells.fill f hi d (base + stride) (2 * stride))

/-- The array with the cells `1..hi`, cell `k` holding `f k`. -/
def Cells.upTo (hi : Nat) (f : Nat → Nat) : Cells := Cells.fill f hi hi 0 1

end Sys2Proof

namespace Sys2Proof.Machine

/-! ### Byte memories -/

/-- One byte of a memory; `none` where nothing has been written. -/
def Memory.read : Memory → Nat → Option Byte
  | [], _ => none
  | (j, v) :: m, a => if a = j then some v else Memory.read m a

/-- Write one byte (R50: every access moves one byte); the addresses stay strictly rising. -/
def Memory.write : Memory → Nat → Byte → Memory
  | [], a, v => [(a, v)]
  | (j, w) :: m, a, v =>
    if a < j then (a, v) :: (j, w) :: m
    else if a = j then (a, v) :: m
    else (j, w) :: Memory.write m a v

/-- The canonical form of a byte memory: addresses strictly rising. An unlisted address reads as a free value, which no
definition can compare with an entry, so an entry is never removed (log 4). -/
abbrev Memory.wf (m : Memory) : Prop := m.Pairwise fun p q => p.1 < q.1

/-- Byte `IN[a]` (R32): what the host wrote there, or a free value (U17; log 4). -/
def inputByte (inp : Memory) (a : Nat) : Byte := (Memory.read inp a).getD (Config.unwrittenInput a)

/-- Cell `RING[a]` (R30): what this run wrote there, or a free value (R48, U4; log 4). -/
def ringByte (ring : Memory) (a : Nat) : Byte := (Memory.read ring a).getD (Config.unwrittenRing a)

/-! ### Results of operations -/

/-- What an operation of files 40 to 43 answers (R14): it completes, or it raises an error kind. `s` is the state that
the operation leaves, at a raise too (R165). A refusal is the case to which the spec gives no meaning. -/
inductive Res (σ α : Type) where
  | ok (v : α) (s : σ)
  | raise (e : ErrKind) (s : σ)
  | refused (r : Refusal)
deriving DecidableEq, Repr

/-- The next operation, run when this one completes; a raise propagates (R14). -/
def Res.andThen {σ α β : Type} (x : Res σ α) (k : α → σ → Res σ β) : Res σ β :=
  match x with
  | .ok v s => k v s
  | .raise e s => .raise e s
  | .refused r => .refused r

/-- A result over one part of the state, as a result over a larger part. -/
def Res.lift {σ τ α : Type} (put : σ → τ) (x : Res σ α) : Res τ α :=
  match x with
  | .ok v s => .ok v (put s)
  | .raise e s => .raise e (put s)
  | .refused r => .refused r

/-! ### Parts of the state -/

/-- The state with another cursor. -/
def State.withCursor (s : State) (c : BitCursor) : State := { s with cursor := c }

/-- The state with another Huffman model. -/
def State.withModel (s : State) (m : HuffmanModel) : State := { s with model := m }

/-- The state with another history part. -/
def State.withHist (s : State) (h : HistoryRing) : State := { s with hist := h }

/-- The state with other working registers of the decode loop. -/
def State.withDec (s : State) (d : Decompressor) : State := { s with dec := d }

/-- The state in which the host's next transaction has been taken from the schedule. -/
def State.withQueue (s : State) (q : List HostOp) : State := { s with hostQueue := q }

/-- The state after a host read that returned `v`. -/
def State.withHostData (s : State) (v : Nat) : State := { s with hostData := v }

/-- The state after a host read whose value is unspecified: the free value `which` of this occasion. -/
def State.withFreeHostData (s : State) (v : Nat) : State :=
  { s with hostData := v, freeCount := s.freeCount + 1 }

/-! ### Taking an error (R164), and going on after it (R167) -/

/-- The cursor after an error: every register is a free value (R164 (4), U6). `bitcnt` keeps its 3 bits (R21). -/
def freeCursor (k : Nat) : BitCursor where
  pos := Config.freeNat .pos k
  bitbuf := BitVec.ofNat 8 (Config.freeNat .bitbuf k)
  bitcnt := Config.freeNat .bitcnt k % 8
  code := Config.freeNat .code k
  mask := Config.freeNat .mask k

/-- The arena and its working registers after an error: free values (R164 (4), U6). -/
def freeModel (k : Nat) : HuffmanModel where
  left := Config.freeCells .left k
  right := Config.freeCells .right k
  up := Config.freeCells .up k
  weight := Config.freeCells .weight k
  a := Config.freeNat .nodeA k
  b := Config.freeNat .nodeB k
  ua := Config.freeNat .nodeUa k
  uua := Config.freeNat .nodeUua k
  p := Config.freeNat .nodeP k
  x := Config.freeNat .nodeX k
  nxt := Config.freeNat .nodeNxt k
  n := Config.freeNat .nodeN k

/-- Ring, count and output bytes after an error (R164 (3), (4), U5, U6): free values, the ring's cells too. -/
def freeHist (k : Nat) : HistoryRing where
  ring := []
  count := Config.freeNat .count k
  out := Config.freeOut k
  rd := Config.freeNat .rd k
  i := Config.freeNat .copyI k

/-- The working registers of the decode loop after an error: free values (R164 (4)). -/
def freeDec (k : Nat) : Decompressor where
  sym := Config.freeNat .sym k
  r := Config.freeNat .rangeR k
  length := Config.freeNat .length k
  extra := Config.freeNat .extra k
  distance := Config.freeNat .distance k

/-- Taking an error (R164): `STATUS <- ERROR`, `ERRCODE <-` the kind, `OUT_LEN` reads 0, and the rest of the run's state
is unspecified. Nothing is saved and control goes nowhere (R164 (5)); there is no return from an error, and the only way
on is a new `START` (R167), `startRun` in Machine/HostPort.lean. -/
def abort (e : ErrKind) (s : State) : State :=
  { s with
    cursor := freeCursor s.freeCount
    model := freeModel s.freeCount
    hist := freeHist s.freeCount
    dec := freeDec s.freeCount
    status := .error
    errcode := some e
    outLen := 0
    freeCount := s.freeCount + 1 }

/-- The step that a completed or raised operation makes: a raise takes the error. -/
def conclude (x : Res State Unit) : Host.Outcome State Fault Refusal :=
  match x with
  | .ok _ s => .next s
  | .raise e s => .next (abort e s)
  | .refused r => .refused r

end Sys2Proof.Machine
end

