-- ==== Sys2Proof/Machine/Operands.lean ====
section
/-!
DEFINITION. The operands of the stream instructions: the bit cursor that delivers the input (R90), the extra-bits
field (R92), and the distance of a copy (R75). The length and the range of a copy come from its symbol (R73,
Decode.lean).
-/

namespace Sys2Proof.Machine

/-- R22: the absolute position `P = 8·pos − bitcnt` of the next unread bit. -/
def BitCursor.bitPos (c : BitCursor) : Nat := 8 * c.pos - c.bitcnt

/-- Bits that are still to be delivered: those buffered and those of the bytes not yet pulled. -/
def BitCursor.bitsLeft (len : Nat) (c : BitCursor) : Nat := 8 * (len - c.pos) + c.bitcnt

/-- Deliver bit 7 of the buffer and shift it out (R90, last four lines). -/
def takeBit (c : BitCursor) : Res BitCursor Bool :=
  .ok (c.bitbuf.getLsbD 7) { c with bitbuf := c.bitbuf <<< 1, bitcnt := c.bitcnt - 1 }

/-- `NEXTBIT` (R90) over the input window `inp` of `len` bytes. A raise leaves the cursor as it was. -/
def nextBit (inp : Memory) (len : Nat) (c : BitCursor) : Res BitCursor Bool :=
  if c.bitcnt = 0 then
    if len ≤ c.pos then .raise .unexpectedEndOfStream c
    else takeBit { c with bitbuf := inputByte inp c.pos, pos := c.pos + 1, bitcnt := 8 }
  else takeBit c

/-- One iteration of `NEXTCODE` after its bit is read (R92): `mask` takes the new `code`, shifted, whether or not the bit
was 1. -/
def foldBit (bit : Bool) (c : BitCursor) : BitCursor :=
  let code := if bit then c.code ||| c.mask else c.code
  { c with code := code, mask := code <<< 1 }

/-- The loop of `NEXTCODE` (R92). -/
def nextCodeLoop (inp : Memory) (len : Nat) : Nat → BitCursor → Res BitCursor Unit
  | 0, c => .ok () c
  | n + 1, c => (nextBit inp len c).andThen fun bit c' => nextCodeLoop inp len n (foldBit bit c')

/-- `NEXTCODE(n)` (R92), defined for `n ≤ CODE_W` (D23, U10). -/
def nextCode (inp : Memory) (len : Nat) (n : Nat) (c : BitCursor) : Res BitCursor Nat :=
  if codeW < n then .refused (.nextCodeTooWide n)
  else (nextCodeLoop inp len n { c with mask := 1, code := 0 }).andThen fun _ c' => .ok c'.code c'

/-- `NEXTCODE` on the state's cursor and on the input that `START` latched. -/
def State.nextCode (s : State) (n : Nat) : Res State Nat :=
  (Machine.nextCode s.inWin s.runLen n s.cursor).lift s.withCursor

/-- R75: `distance = extra + length + copyMin[r]`; the length is part of the sum. -/
def distanceOf (cfg : Cfg) (r : CopyRange) (length extra : Nat) : Nat := extra + length + cfg.copyMin.get r

end Sys2Proof.Machine
end

