-- ==== Sys2Proof/Machine/Huffman.lean ====
section
/-!
DEFINITION. The adaptive Huffman model: the open parameters `HUFF_INIT` and `HUFF_UPDATE` (R103), their default
instance (R104, R110 to R113), and the symbol decode walk (R100).
-/

namespace Sys2Proof.Machine

/-! ### Reading the arena (R25) -/

/-- `left[n]`; a node without a `left` cell has no such child. -/
def HuffmanModel.leftOf (m : HuffmanModel) (n : Nat) : Nat := (m.left.get n).getD NIL

/-- `right[n]`; a node without a `right` cell has no such child. -/
def HuffmanModel.rightOf (m : HuffmanModel) (n : Nat) : Nat := (m.right.get n).getD NIL

/-- `up[n]`; a node without an `up` cell has no parent. -/
def HuffmanModel.upOf (m : HuffmanModel) (n : Nat) : Nat := (m.up.get n).getD NIL

/-- `weight[n]`; a free value where the cell is absent, which R111 and R27 exclude (log 12). -/
def HuffmanModel.weightOf (m : HuffmanModel) (n : Nat) : Nat :=
  (m.weight.get n).getD (Config.absentWeight n)

/-- The child that a bit selects (R71, R100): right on 1, left on 0. -/
def HuffmanModel.childOf (m : HuffmanModel) (bit : Bool) (n : Nat) : Nat :=
  if bit then m.rightOf n else m.leftOf n

/-! ### The open parameters -/

/-- The two open parameters of the block (R103, R49, U1, U2): arguments of the machine, no part of its state. The default
instance is `HuffParams.default`; what R103 requires of an instance is `HuffParams.Lawful` (Safety.lean). -/
structure HuffParams where
  /-- `HUFF_INIT`: the arena that `START` sets up under a configuration. -/
  init : Cfg → Arena
  /-- `HUFF_UPDATE`: what `UPDATE(a)` makes of the arena, and of the working registers, which are part of the
  instance's choice (R28, D9). `none` on an arena for which the instance has no result; R103 excludes it on the arenas
  of a run (log 12). -/
  update : Cfg → Nat → HuffmanModel → Option HuffmanModel

/-- The model with another arena; the working registers carry nothing (R28) and stay. -/
def HuffmanModel.withArena (m : HuffmanModel) (arena : Arena) : HuffmanModel := { m with toArena := arena }

/-! ### The default initial tree -/

/-- `HUFF_INIT`, default (R104): the complete tree in heap order, every weight 1. -/
def heapArena (cfg : Cfg) : Arena where
  left := Cells.upTo cfg.maxChar fun n => 2 * n
  right := Cells.upTo cfg.maxChar fun n => 2 * n + 1
  up := Cells.upTo cfg.twiceMax fun n => if n = ROOT then NIL else n / 2
  weight := Cells.upTo cfg.twiceMax fun _ => 1

/-- The model with the default initial tree. -/
def huffInit (cfg : Cfg) (m : HuffmanModel) : HuffmanModel := m.withArena (heapArena cfg)

/-! ### The default update -/

/-- `left[n] <- v`. -/
def HuffmanModel.setLeft (m : HuffmanModel) (n v : Nat) : HuffmanModel := { m with left := m.left.set n v }

/-- `right[n] <- v`. -/
def HuffmanModel.setRight (m : HuffmanModel) (n v : Nat) : HuffmanModel := { m with right := m.right.set n v }

/-- `up[n] <- v`. -/
def HuffmanModel.setUp (m : HuffmanModel) (n v : Nat) : HuffmanModel := { m with up := m.up.set n v }

/-- `weight[n] <- v`. -/
def HuffmanModel.setWeight (m : HuffmanModel) (n v : Nat) : HuffmanModel := { m with weight := m.weight.set n v }

/-- The body of `PROPAGATE`'s loop (R111): the parent's weight becomes the sum of its children's, and the walk goes to
the parent. -/
def propagateStep (m : HuffmanModel) : HuffmanModel :=
  let p := m.upOf m.x
  { m.setWeight p (m.weightOf (m.leftOf p) + m.weightOf (m.rightOf p)) with p := p, x := p }

/-- The loop of `PROPAGATE` (R111) under a fuel (R114); `none` when the fuel ends before `ROOT` (log 12). -/
def propagateLoop : Nat → HuffmanModel → Option HuffmanModel
  | 0, m => if m.x = ROOT then some m else none
  | f + 1, m => if m.x = ROOT then some m else propagateLoop f (propagateStep m)

/-- `PROPAGATE(x)` (R111). -/
def propagate (cfg : Cfg) (x : Nat) (m : HuffmanModel) : Option HuffmanModel :=
  propagateLoop cfg.twiceMax { m with x := x }

/-- The four link writes of an exchange (R112): `a` takes `b`'s place under `uua`, `b` takes `a`'s place under `ua`. -/
def exchangeLinks (m : HuffmanModel) : HuffmanModel :=
  let m1 := if m.leftOf m.uua = m.ua then m.setRight m.uua m.a else m.setLeft m.uua m.a
  let m2 := if m1.leftOf m.ua = m.a then m1.setLeft m.ua m.b else m1.setRight m.ua m.b
  (m2.setUp m.b m.ua).setUp m.a m.uua

/-- The uncle of `a` (R112): the child of `uua` other than `ua`. -/
def HuffmanModel.uncle (m : HuffmanModel) : Nat :=
  if m.leftOf m.uua = m.ua then m.rightOf m.uua else m.leftOf m.uua

/-- The first two lines of `PROMOTE`'s loop body (R112): the grandparent, then the uncle. -/
def locateUncle (m : HuffmanModel) : HuffmanModel :=
  let m1 := { m with uua := m.upOf m.ua }
  { m1 with b := m1.uncle }

/-- The exchange of a node that is strictly heavier than its uncle, then `PROPAGATE(b)` and `a <- b` (R112). Equal weights do not
exchange. -/
def exchangeIfHeavier (cfg : Cfg) (m : HuffmanModel) : Option HuffmanModel :=
  if m.weightOf m.b < m.weightOf m.a then
    (propagate cfg m.b (exchangeLinks m)).map fun m' => { m' with a := m'.b }
  else some m

/-- The last two lines of `PROMOTE`'s loop body (R112). -/
def climb (m : HuffmanModel) : HuffmanModel :=
  let m1 := { m with a := m.upOf m.a }
  { m1 with ua := m1.upOf m1.a }

/-- The loop of `PROMOTE` (R112) under a fuel (R114). -/
def promoteLoop (cfg : Cfg) : Nat → HuffmanModel → Option HuffmanModel
  | 0, _ => none
  | f + 1, m =>
    match exchangeIfHeavier cfg (locateUncle m) with
    | none => none
    | some m1 =>
      let m2 := climb m1
      if m2.ua = ROOT then some m2 else promoteLoop cfg f m2

/-- `PROMOTE(a)` (R112). -/
def promote (cfg : Cfg) (a : Nat) (m : HuffmanModel) : Option HuffmanModel :=
  if m.upOf a = ROOT then some { m with a := a }
  else promoteLoop cfg cfg.twiceMax { m with a := a, ua := m.upOf a }

/-- The halving of one weight (R113): rounding down, with a floor of 1. -/
def halve (w : Nat) : Nat := max 1 (w >>> 1)

/-- `RESCALE()` (R113): every node's weight is halved when the root's has reached `maxFrequency`. Only existing cells are
written (log 11). -/
def rescale (cfg : Cfg) (m : HuffmanModel) : HuffmanModel :=
  if cfg.maxFrequency ≤ m.weightOf ROOT then
    { m with weight := m.weight.map halve, n := cfg.twiceMax }
  else m

/-- `UPDATE(a)`, default `HUFF_UPDATE` (R110): count, propagate, promote, rescale. `none` only when the arena is no tree
(log 12). -/
def update (cfg : Cfg) (a : Nat) (m : HuffmanModel) : Option HuffmanModel :=
  match propagate cfg a (m.setWeight a (m.weightOf a + 1)) with
  | none => none
  | some m1 =>
    match promote cfg a m1 with
    | none => none
    | some m2 => some (rescale cfg m2)

/-- The default instance of the open parameters (R103): R104, and R110 to R113. -/
def HuffParams.default : HuffParams where
  init := heapArena
  update := Machine.update

/-! ### The symbol decode walk -/

/-- The loop of `DECODESYM` (R100). Each iteration consumes a bit, so a fuel above the number of bits left is never
exhausted (log 15). -/
def walk (cfg : Cfg) (inp : Memory) (len : Nat) :
    Nat → HuffmanModel → BitCursor → Res (HuffmanModel × BitCursor) Unit
  | 0, m, c => .raise .unexpectedEndOfStream (m, c)
  | f + 1, m, c =>
    if m.a < cfg.successMax then
      match nextBit inp len c with
      | .ok bit c1 =>
        let nxt := m.childOf bit m.a
        if nxt = NIL then .raise .invalidHuffmanCode ({ m with nxt := nxt }, c1)
        else walk cfg inp len f { m with nxt := nxt, a := nxt } c1
      | .raise e c1 => .raise e (m, c1)
      | .refused r => .refused r
    else .ok () (m, c)

/-- The walk from the root on the state's arena, cursor and input. -/
def State.walk (s : State) : Res (HuffmanModel × BitCursor) Unit :=
  Machine.walk s.cfg s.inWin s.runLen (s.cursor.bitsLeft s.runLen + 1) { s.model with a := ROOT } s.cursor

/-- `DECODESYM()` (R100): the walk, then `UPDATE` of the leaf by the instance. The symbol is fixed before `UPDATE` runs
(R101 (c)). -/
def decodeSym (hp : HuffParams) (s : State) : Res State Nat :=
  match s.walk with
  | .ok _ (m, c) =>
    match hp.update s.cfg m.a m with
    | some m' =>
      .ok (m.a - s.cfg.successMax)
        (((s.withCursor c).withModel m').withDec { s.dec with sym := m.a - s.cfg.successMax })
    | none => .refused .arenaNotATree
  | .raise e (m, c) => .raise e ((s.withCursor c).withModel m)
  | .refused r => .refused r

end Sys2Proof.Machine
end

