-- ==== Sys2Proof/Machine/Assemble.lean ====
section
/-!
DEFINITION. The assembler (R80, R81): the stream bits of an instruction on the current tree, and their packing into
bytes.
-/

namespace Sys2Proof.Machine

/-- The branch bits from `ROOT` down to node `n`, put before `acc`: the climb by `up`, under a fuel. -/
def codeLoop (m : HuffmanModel) : Nat → Nat → List Bool → List Bool
  | 0, _, acc => acc
  | f + 1, n, acc =>
    if n = ROOT ∨ n = NIL then acc
    else codeLoop m f (m.upOf n) ((m.rightOf (m.upOf n) == n) :: acc)

/-- The `hcode` of a symbol on the tree as it stands (R71). -/
def symbolCode (cfg : Cfg) (m : HuffmanModel) (sym : Nat) : List Bool :=
  codeLoop m cfg.twiceMax (sym + cfg.successMax) []

/-- The bits of one instruction: its `hcode`, then its `xbits` (R70). -/
def assemble (cfg : Cfg) (m : HuffmanModel) (i : Instr) (xbits : List Bool) : List Bool :=
  symbolCode cfg m (encode cfg i) ++ xbits

/-- The byte whose bits are the first eight of a bit string, bit 7 first (R54), with zeros where the string ends (R81). -/
def packByte (bits : List Bool) : Byte :=
  BitVec.ofNat 8 ((List.range 8).foldl (fun v k => 2 * v + ((bits[k]?).getD false).toNat) 0)

/-- The bytes of a bit string, under a fuel; `.pad` fills the last byte with zeros (R81). -/
def packLoop : Nat → List Bool → List Byte
  | 0, _ => []
  | f + 1, bits => if bits = [] then [] else packByte bits :: packLoop f (bits.drop 8)

/-- The bytes of a bit string. -/
def packBytes (bits : List Bool) : List Byte := packLoop bits.length bits

/-- The memory that holds the given bytes from an address on. -/
def memoryFrom : Nat → List Byte → Memory
  | _, [] => []
  | a, v :: vs => (a, v) :: memoryFrom (a + 1) vs

end Sys2Proof.Machine
end

