-- ==== Sys2Proof/Machine/History.lean ====
section
/-!
DEFINITION. The history ring and the copy engine: `APPENDLIT` (R130) and `APPLYCOPY` (R131).
-/

namespace Sys2Proof.Machine

/-- `APPENDLIT(v)` (R130) on a ring of `size` cells: the byte goes to `OUT` and to cell `count mod size`. -/
def appendLit (size : Nat) (v : Byte) (h : HistoryRing) : HistoryRing :=
  { h with
    out := h.out ++ [v]
    ring := Memory.write h.ring (h.count % size) v
    count := h.count + 1 }

/-- The loop of `APPLYCOPY` (R131): `n` iterations remain, `i` is the loop index of the next one. The load comes before the
store of the same iteration and after the store of the one before (R132, R183). -/
def copyLoop (size : Nat) : Nat → Nat → HistoryRing → HistoryRing
  | 0, _, h => h
  | n + 1, i, h =>
    copyLoop size n (i + 1) { appendLit size (ringByte h.ring h.rd) h with i := i, rd := (h.rd + 1) % size }

/-- `APPLYCOPY(length, distance)` (R131), defined for distances 1..size (R134). The check of R133 is made once, before any
byte moves. -/
def applyCopy (size length distance : Nat) (h : HistoryRing) : Res HistoryRing Unit :=
  if distance = 0 ∨ size < distance then .refused (.copyOutsideDomain distance)
  else if h.count < distance then .raise .invalidDistance h
  else .ok () (copyLoop size length 0 { h with rd := (h.count - distance) % size })

/-- `APPLYCOPY` on the state's ring. -/
def State.applyCopy (s : State) (length distance : Nat) : Res State Unit :=
  (Machine.applyCopy s.cfg.historySize length distance s.hist).lift s.withHist

/-- `COPYr` (R144): the range and the length are those of the decoded symbol (R73); the extra bits are read; the distance
is formed; the bytes are copied. Errors in the order R166 (2). -/
def copyInstr (r : CopyRange) (length : Nat) (s : State) : Res State Unit :=
  let s1 := s.withDec { s.dec with r := r.index, length := length }
  (s1.nextCode (s.cfg.copyBits.get r)).andThen fun extra s2 =>
    let distance := distanceOf s.cfg r length extra
    (s2.withDec { s2.dec with extra := extra, distance := distance }).applyCopy length distance

/-- The step of a copy instruction: its result, or the error it raises, taken. -/
def runCopy (r : CopyRange) (length : Nat) (s : State) : Host.Outcome State Fault Refusal :=
  conclude (copyInstr r length s)

end Sys2Proof.Machine
end

