-- ==== Sys2Proof/Machine/Copy0.lean ====
section
/-!
DEFINITION. The meanings of the rows `COPY0.3` to `COPY0.64` (R145). By default 4 extra bits follow the symbol and
`copyMin[0] = 0`. Each meaning is the common rule R144 at the range and the length that the row's symbol fixes.
-/

namespace Sys2Proof.Machine

/-- `COPY0.3` (R145, R144). -/
def execCopy0_3 (s : State) : Host.Outcome State Fault Refusal := runCopy .r0 3 s

/-- `COPY0.4` (R145, R144). -/
def execCopy0_4 (s : State) : Host.Outcome State Fault Refusal := runCopy .r0 4 s

/-- `COPY0.5` (R145, R144). -/
def execCopy0_5 (s : State) : Host.Outcome State Fault Refusal := runCopy .r0 5 s

/-- `COPY0.6` (R145, R144). -/
def execCopy0_6 (s : State) : Host.Outcome State Fault Refusal := runCopy .r0 6 s

/-- `COPY0.7` (R145, R144). -/
def execCopy0_7 (s : State) : Host.Outcome State Fault Refusal := runCopy .r0 7 s

/-- `COPY0.8` (R145, R144). -/
def execCopy0_8 (s : State) : Host.Outcome State Fault Refusal := runCopy .r0 8 s

/-- `COPY0.9` (R145, R144). -/
def execCopy0_9 (s : State) : Host.Outcome State Fault Refusal := runCopy .r0 9 s

/-- `COPY0.10` (R145, R144). -/
def execCopy0_10 (s : State) : Host.Outcome State Fault Refusal := runCopy .r0 10 s

/-- `COPY0.11` (R145, R144). -/
def execCopy0_11 (s : State) : Host.Outcome State Fault Refusal := runCopy .r0 11 s

/-- `COPY0.12` (R145, R144). -/
def execCopy0_12 (s : State) : Host.Outcome State Fault Refusal := runCopy .r0 12 s

/-- `COPY0.13` (R145, R144). -/
def execCopy0_13 (s : State) : Host.Outcome State Fault Refusal := runCopy .r0 13 s

/-- `COPY0.14` (R145, R144). -/
def execCopy0_14 (s : State) : Host.Outcome State Fault Refusal := runCopy .r0 14 s

/-- `COPY0.15` (R145, R144). -/
def execCopy0_15 (s : State) : Host.Outcome State Fault Refusal := runCopy .r0 15 s

/-- `COPY0.16` (R145, R144). -/
def execCopy0_16 (s : State) : Host.Outcome State Fault Refusal := runCopy .r0 16 s

/-- `COPY0.17` (R145, R144). -/
def execCopy0_17 (s : State) : Host.Outcome State Fault Refusal := runCopy .r0 17 s

/-- `COPY0.18` (R145, R144). -/
def execCopy0_18 (s : State) : Host.Outcome State Fault Refusal := runCopy .r0 18 s

/-- `COPY0.19` (R145, R144). -/
def execCopy0_19 (s : State) : Host.Outcome State Fault Refusal := runCopy .r0 19 s

/-- `COPY0.20` (R145, R144). -/
def execCopy0_20 (s : State) : Host.Outcome State Fault Refusal := runCopy .r0 20 s

/-- `COPY0.21` (R145, R144). -/
def execCopy0_21 (s : State) : Host.Outcome State Fault Refusal := runCopy .r0 21 s

/-- `COPY0.22` (R145, R144). -/
def execCopy0_22 (s : State) : Host.Outcome State Fault Refusal := runCopy .r0 22 s

/-- `COPY0.23` (R145, R144). -/
def execCopy0_23 (s : State) : Host.Outcome State Fault Refusal := runCopy .r0 23 s

/-- `COPY0.24` (R145, R144). -/
def execCopy0_24 (s : State) : Host.Outcome State Fault Refusal := runCopy .r0 24 s

/-- `COPY0.25` (R145, R144). -/
def execCopy0_25 (s : State) : Host.Outcome State Fault Refusal := runCopy .r0 25 s

/-- `COPY0.26` (R145, R144). -/
def execCopy0_26 (s : State) : Host.Outcome State Fault Refusal := runCopy .r0 26 s

/-- `COPY0.27` (R145, R144). -/
def execCopy0_27 (s : State) : Host.Outcome State Fault Refusal := runCopy .r0 27 s

/-- `COPY0.28` (R145, R144). -/
def execCopy0_28 (s : State) : Host.Outcome State Fault Refusal := runCopy .r0 28 s

/-- `COPY0.29` (R145, R144). -/
def execCopy0_29 (s : State) : Host.Outcome State Fault Refusal := runCopy .r0 29 s

/-- `COPY0.30` (R145, R144). -/
def execCopy0_30 (s : State) : Host.Outcome State Fault Refusal := runCopy .r0 30 s

/-- `COPY0.31` (R145, R144). -/
def execCopy0_31 (s : State) : Host.Outcome State Fault Refusal := runCopy .r0 31 s

/-- `COPY0.32` (R145, R144). -/
def execCopy0_32 (s : State) : Host.Outcome State Fault Refusal := runCopy .r0 32 s

/-- `COPY0.33` (R145, R144). -/
def execCopy0_33 (s : State) : Host.Outcome State Fault Refusal := runCopy .r0 33 s

/-- `COPY0.34` (R145, R144). -/
def execCopy0_34 (s : State) : Host.Outcome State Fault Refusal := runCopy .r0 34 s

/-- `COPY0.35` (R145, R144). -/
def execCopy0_35 (s : State) : Host.Outcome State Fault Refusal := runCopy .r0 35 s

/-- `COPY0.36` (R145, R144). -/
def execCopy0_36 (s : State) : Host.Outcome State Fault Refusal := runCopy .r0 36 s

/-- `COPY0.37` (R145, R144). -/
def execCopy0_37 (s : State) : Host.Outcome State Fault Refusal := runCopy .r0 37 s

/-- `COPY0.38` (R145, R144). -/
def execCopy0_38 (s : State) : Host.Outcome State Fault Refusal := runCopy .r0 38 s

/-- `COPY0.39` (R145, R144). -/
def execCopy0_39 (s : State) : Host.Outcome State Fault Refusal := runCopy .r0 39 s

/-- `COPY0.40` (R145, R144). -/
def execCopy0_40 (s : State) : Host.Outcome State Fault Refusal := runCopy .r0 40 s

/-- `COPY0.41` (R145, R144). -/
def execCopy0_41 (s : State) : Host.Outcome State Fault Refusal := runCopy .r0 41 s

/-- `COPY0.42` (R145, R144). -/
def execCopy0_42 (s : State) : Host.Outcome State Fault Refusal := runCopy .r0 42 s

/-- `COPY0.43` (R145, R144). -/
def execCopy0_43 (s : State) : Host.Outcome State Fault Refusal := runCopy .r0 43 s

/-- `COPY0.44` (R145, R144). -/
def execCopy0_44 (s : State) : Host.Outcome State Fault Refusal := runCopy .r0 44 s

/-- `COPY0.45` (R145, R144). -/
def execCopy0_45 (s : State) : Host.Outcome State Fault Refusal := runCopy .r0 45 s

/-- `COPY0.46` (R145, R144). -/
def execCopy0_46 (s : State) : Host.Outcome State Fault Refusal := runCopy .r0 46 s

/-- `COPY0.47` (R145, R144). -/
def execCopy0_47 (s : State) : Host.Outcome State Fault Refusal := runCopy .r0 47 s

/-- `COPY0.48` (R145, R144). -/
def execCopy0_48 (s : State) : Host.Outcome State Fault Refusal := runCopy .r0 48 s

/-- `COPY0.49` (R145, R144). -/
def execCopy0_49 (s : State) : Host.Outcome State Fault Refusal := runCopy .r0 49 s

/-- `COPY0.50` (R145, R144). -/
def execCopy0_50 (s : State) : Host.Outcome State Fault Refusal := runCopy .r0 50 s

/-- `COPY0.51` (R145, R144). -/
def execCopy0_51 (s : State) : Host.Outcome State Fault Refusal := runCopy .r0 51 s

/-- `COPY0.52` (R145, R144). -/
def execCopy0_52 (s : State) : Host.Outcome State Fault Refusal := runCopy .r0 52 s

/-- `COPY0.53` (R145, R144). -/
def execCopy0_53 (s : State) : Host.Outcome State Fault Refusal := runCopy .r0 53 s

/-- `COPY0.54` (R145, R144). -/
def execCopy0_54 (s : State) : Host.Outcome State Fault Refusal := runCopy .r0 54 s

/-- `COPY0.55` (R145, R144). -/
def execCopy0_55 (s : State) : Host.Outcome State Fault Refusal := runCopy .r0 55 s

/-- `COPY0.56` (R145, R144). -/
def execCopy0_56 (s : State) : Host.Outcome State Fault Refusal := runCopy .r0 56 s

/-- `COPY0.57` (R145, R144). -/
def execCopy0_57 (s : State) : Host.Outcome State Fault Refusal := runCopy .r0 57 s

/-- `COPY0.58` (R145, R144). -/
def execCopy0_58 (s : State) : Host.Outcome State Fault Refusal := runCopy .r0 58 s

/-- `COPY0.59` (R145, R144). -/
def execCopy0_59 (s : State) : Host.Outcome State Fault Refusal := runCopy .r0 59 s

/-- `COPY0.60` (R145, R144). -/
def execCopy0_60 (s : State) : Host.Outcome State Fault Refusal := runCopy .r0 60 s

/-- `COPY0.61` (R145, R144). -/
def execCopy0_61 (s : State) : Host.Outcome State Fault Refusal := runCopy .r0 61 s

/-- `COPY0.62` (R145, R144). -/
def execCopy0_62 (s : State) : Host.Outcome State Fault Refusal := runCopy .r0 62 s

/-- `COPY0.63` (R145, R144). -/
def execCopy0_63 (s : State) : Host.Outcome State Fault Refusal := runCopy .r0 63 s

/-- `COPY0.64` (R145, R144). -/
def execCopy0_64 (s : State) : Host.Outcome State Fault Refusal := runCopy .r0 64 s

end Sys2Proof.Machine
end

