-- ==== Sys2Proof/Machine/Copy1.lean ====
section
/-!
DEFINITION. The meanings of the rows `COPY1.3` to `COPY1.64` (R146). By default 6 extra bits follow the symbol and
`copyMin[1] = 16`. Each meaning is the common rule R144 at the range and the length that the row's symbol fixes.
-/

namespace Sys2Proof.Machine

/-- `COPY1.3` (R146, R144). -/
def execCopy1_3 (s : State) : Host.Outcome State Fault Refusal := runCopy .r1 3 s

/-- `COPY1.4` (R146, R144). -/
def execCopy1_4 (s : State) : Host.Outcome State Fault Refusal := runCopy .r1 4 s

/-- `COPY1.5` (R146, R144). -/
def execCopy1_5 (s : State) : Host.Outcome State Fault Refusal := runCopy .r1 5 s

/-- `COPY1.6` (R146, R144). -/
def execCopy1_6 (s : State) : Host.Outcome State Fault Refusal := runCopy .r1 6 s

/-- `COPY1.7` (R146, R144). -/
def execCopy1_7 (s : State) : Host.Outcome State Fault Refusal := runCopy .r1 7 s

/-- `COPY1.8` (R146, R144). -/
def execCopy1_8 (s : State) : Host.Outcome State Fault Refusal := runCopy .r1 8 s

/-- `COPY1.9` (R146, R144). -/
def execCopy1_9 (s : State) : Host.Outcome State Fault Refusal := runCopy .r1 9 s

/-- `COPY1.10` (R146, R144). -/
def execCopy1_10 (s : State) : Host.Outcome State Fault Refusal := runCopy .r1 10 s

/-- `COPY1.11` (R146, R144). -/
def execCopy1_11 (s : State) : Host.Outcome State Fault Refusal := runCopy .r1 11 s

/-- `COPY1.12` (R146, R144). -/
def execCopy1_12 (s : State) : Host.Outcome State Fault Refusal := runCopy .r1 12 s

/-- `COPY1.13` (R146, R144). -/
def execCopy1_13 (s : State) : Host.Outcome State Fault Refusal := runCopy .r1 13 s

/-- `COPY1.14` (R146, R144). -/
def execCopy1_14 (s : State) : Host.Outcome State Fault Refusal := runCopy .r1 14 s

/-- `COPY1.15` (R146, R144). -/
def execCopy1_15 (s : State) : Host.Outcome State Fault Refusal := runCopy .r1 15 s

/-- `COPY1.16` (R146, R144). -/
def execCopy1_16 (s : State) : Host.Outcome State Fault Refusal := runCopy .r1 16 s

/-- `COPY1.17` (R146, R144). -/
def execCopy1_17 (s : State) : Host.Outcome State Fault Refusal := runCopy .r1 17 s

/-- `COPY1.18` (R146, R144). -/
def execCopy1_18 (s : State) : Host.Outcome State Fault Refusal := runCopy .r1 18 s

/-- `COPY1.19` (R146, R144). -/
def execCopy1_19 (s : State) : Host.Outcome State Fault Refusal := runCopy .r1 19 s

/-- `COPY1.20` (R146, R144). -/
def execCopy1_20 (s : State) : Host.Outcome State Fault Refusal := runCopy .r1 20 s

/-- `COPY1.21` (R146, R144). -/
def execCopy1_21 (s : State) : Host.Outcome State Fault Refusal := runCopy .r1 21 s

/-- `COPY1.22` (R146, R144). -/
def execCopy1_22 (s : State) : Host.Outcome State Fault Refusal := runCopy .r1 22 s

/-- `COPY1.23` (R146, R144). -/
def execCopy1_23 (s : State) : Host.Outcome State Fault Refusal := runCopy .r1 23 s

/-- `COPY1.24` (R146, R144). -/
def execCopy1_24 (s : State) : Host.Outcome State Fault Refusal := runCopy .r1 24 s

/-- `COPY1.25` (R146, R144). -/
def execCopy1_25 (s : State) : Host.Outcome State Fault Refusal := runCopy .r1 25 s

/-- `COPY1.26` (R146, R144). -/
def execCopy1_26 (s : State) : Host.Outcome State Fault Refusal := runCopy .r1 26 s

/-- `COPY1.27` (R146, R144). -/
def execCopy1_27 (s : State) : Host.Outcome State Fault Refusal := runCopy .r1 27 s

/-- `COPY1.28` (R146, R144). -/
def execCopy1_28 (s : State) : Host.Outcome State Fault Refusal := runCopy .r1 28 s

/-- `COPY1.29` (R146, R144). -/
def execCopy1_29 (s : State) : Host.Outcome State Fault Refusal := runCopy .r1 29 s

/-- `COPY1.30` (R146, R144). -/
def execCopy1_30 (s : State) : Host.Outcome State Fault Refusal := runCopy .r1 30 s

/-- `COPY1.31` (R146, R144). -/
def execCopy1_31 (s : State) : Host.Outcome State Fault Refusal := runCopy .r1 31 s

/-- `COPY1.32` (R146, R144). -/
def execCopy1_32 (s : State) : Host.Outcome State Fault Refusal := runCopy .r1 32 s

/-- `COPY1.33` (R146, R144). -/
def execCopy1_33 (s : State) : Host.Outcome State Fault Refusal := runCopy .r1 33 s

/-- `COPY1.34` (R146, R144). -/
def execCopy1_34 (s : State) : Host.Outcome State Fault Refusal := runCopy .r1 34 s

/-- `COPY1.35` (R146, R144). -/
def execCopy1_35 (s : State) : Host.Outcome State Fault Refusal := runCopy .r1 35 s

/-- `COPY1.36` (R146, R144). -/
def execCopy1_36 (s : State) : Host.Outcome State Fault Refusal := runCopy .r1 36 s

/-- `COPY1.37` (R146, R144). -/
def execCopy1_37 (s : State) : Host.Outcome State Fault Refusal := runCopy .r1 37 s

/-- `COPY1.38` (R146, R144). -/
def execCopy1_38 (s : State) : Host.Outcome State Fault Refusal := runCopy .r1 38 s

/-- `COPY1.39` (R146, R144). -/
def execCopy1_39 (s : State) : Host.Outcome State Fault Refusal := runCopy .r1 39 s

/-- `COPY1.40` (R146, R144). -/
def execCopy1_40 (s : State) : Host.Outcome State Fault Refusal := runCopy .r1 40 s

/-- `COPY1.41` (R146, R144). -/
def execCopy1_41 (s : State) : Host.Outcome State Fault Refusal := runCopy .r1 41 s

/-- `COPY1.42` (R146, R144). -/
def execCopy1_42 (s : State) : Host.Outcome State Fault Refusal := runCopy .r1 42 s

/-- `COPY1.43` (R146, R144). -/
def execCopy1_43 (s : State) : Host.Outcome State Fault Refusal := runCopy .r1 43 s

/-- `COPY1.44` (R146, R144). -/
def execCopy1_44 (s : State) : Host.Outcome State Fault Refusal := runCopy .r1 44 s

/-- `COPY1.45` (R146, R144). -/
def execCopy1_45 (s : State) : Host.Outcome State Fault Refusal := runCopy .r1 45 s

/-- `COPY1.46` (R146, R144). -/
def execCopy1_46 (s : State) : Host.Outcome State Fault Refusal := runCopy .r1 46 s

/-- `COPY1.47` (R146, R144). -/
def execCopy1_47 (s : State) : Host.Outcome State Fault Refusal := runCopy .r1 47 s

/-- `COPY1.48` (R146, R144). -/
def execCopy1_48 (s : State) : Host.Outcome State Fault Refusal := runCopy .r1 48 s

/-- `COPY1.49` (R146, R144). -/
def execCopy1_49 (s : State) : Host.Outcome State Fault Refusal := runCopy .r1 49 s

/-- `COPY1.50` (R146, R144). -/
def execCopy1_50 (s : State) : Host.Outcome State Fault Refusal := runCopy .r1 50 s

/-- `COPY1.51` (R146, R144). -/
def execCopy1_51 (s : State) : Host.Outcome State Fault Refusal := runCopy .r1 51 s

/-- `COPY1.52` (R146, R144). -/
def execCopy1_52 (s : State) : Host.Outcome State Fault Refusal := runCopy .r1 52 s

/-- `COPY1.53` (R146, R144). -/
def execCopy1_53 (s : State) : Host.Outcome State Fault Refusal := runCopy .r1 53 s

/-- `COPY1.54` (R146, R144). -/
def execCopy1_54 (s : State) : Host.Outcome State Fault Refusal := runCopy .r1 54 s

/-- `COPY1.55` (R146, R144). -/
def execCopy1_55 (s : State) : Host.Outcome State Fault Refusal := runCopy .r1 55 s

/-- `COPY1.56` (R146, R144). -/
def execCopy1_56 (s : State) : Host.Outcome State Fault Refusal := runCopy .r1 56 s

/-- `COPY1.57` (R146, R144). -/
def execCopy1_57 (s : State) : Host.Outcome State Fault Refusal := runCopy .r1 57 s

/-- `COPY1.58` (R146, R144). -/
def execCopy1_58 (s : State) : Host.Outcome State Fault Refusal := runCopy .r1 58 s

/-- `COPY1.59` (R146, R144). -/
def execCopy1_59 (s : State) : Host.Outcome State Fault Refusal := runCopy .r1 59 s

/-- `COPY1.60` (R146, R144). -/
def execCopy1_60 (s : State) : Host.Outcome State Fault Refusal := runCopy .r1 60 s

/-- `COPY1.61` (R146, R144). -/
def execCopy1_61 (s : State) : Host.Outcome State Fault Refusal := runCopy .r1 61 s

/-- `COPY1.62` (R146, R144). -/
def execCopy1_62 (s : State) : Host.Outcome State Fault Refusal := runCopy .r1 62 s

/-- `COPY1.63` (R146, R144). -/
def execCopy1_63 (s : State) : Host.Outcome State Fault Refusal := runCopy .r1 63 s

/-- `COPY1.64` (R146, R144). -/
def execCopy1_64 (s : State) : Host.Outcome State Fault Refusal := runCopy .r1 64 s

end Sys2Proof.Machine
end

