-- ==== Sys2Proof/Machine/Copy2.lean ====
section
/-!
DEFINITION. The meanings of the rows `COPY2.3` to `COPY2.64` (R147). By default 8 extra bits follow the symbol and
`copyMin[2] = 80`. Each meaning is the common rule R144 at the range and the length that the row's symbol fixes.
-/

namespace Sys2Proof.Machine

/-- `COPY2.3` (R147, R144). -/
def execCopy2_3 (s : State) : Host.Outcome State Fault Refusal := runCopy .r2 3 s

/-- `COPY2.4` (R147, R144). -/
def execCopy2_4 (s : State) : Host.Outcome State Fault Refusal := runCopy .r2 4 s

/-- `COPY2.5` (R147, R144). -/
def execCopy2_5 (s : State) : Host.Outcome State Fault Refusal := runCopy .r2 5 s

/-- `COPY2.6` (R147, R144). -/
def execCopy2_6 (s : State) : Host.Outcome State Fault Refusal := runCopy .r2 6 s

/-- `COPY2.7` (R147, R144). -/
def execCopy2_7 (s : State) : Host.Outcome State Fault Refusal := runCopy .r2 7 s

/-- `COPY2.8` (R147, R144). -/
def execCopy2_8 (s : State) : Host.Outcome State Fault Refusal := runCopy .r2 8 s

/-- `COPY2.9` (R147, R144). -/
def execCopy2_9 (s : State) : Host.Outcome State Fault Refusal := runCopy .r2 9 s

/-- `COPY2.10` (R147, R144). -/
def execCopy2_10 (s : State) : Host.Outcome State Fault Refusal := runCopy .r2 10 s

/-- `COPY2.11` (R147, R144). -/
def execCopy2_11 (s : State) : Host.Outcome State Fault Refusal := runCopy .r2 11 s

/-- `COPY2.12` (R147, R144). -/
def execCopy2_12 (s : State) : Host.Outcome State Fault Refusal := runCopy .r2 12 s

/-- `COPY2.13` (R147, R144). -/
def execCopy2_13 (s : State) : Host.Outcome State Fault Refusal := runCopy .r2 13 s

/-- `COPY2.14` (R147, R144). -/
def execCopy2_14 (s : State) : Host.Outcome State Fault Refusal := runCopy .r2 14 s

/-- `COPY2.15` (R147, R144). -/
def execCopy2_15 (s : State) : Host.Outcome State Fault Refusal := runCopy .r2 15 s

/-- `COPY2.16` (R147, R144). -/
def execCopy2_16 (s : State) : Host.Outcome State Fault Refusal := runCopy .r2 16 s

/-- `COPY2.17` (R147, R144). -/
def execCopy2_17 (s : State) : Host.Outcome State Fault Refusal := runCopy .r2 17 s

/-- `COPY2.18` (R147, R144). -/
def execCopy2_18 (s : State) : Host.Outcome State Fault Refusal := runCopy .r2 18 s

/-- `COPY2.19` (R147, R144). -/
def execCopy2_19 (s : State) : Host.Outcome State Fault Refusal := runCopy .r2 19 s

/-- `COPY2.20` (R147, R144). -/
def execCopy2_20 (s : State) : Host.Outcome State Fault Refusal := runCopy .r2 20 s

/-- `COPY2.21` (R147, R144). -/
def execCopy2_21 (s : State) : Host.Outcome State Fault Refusal := runCopy .r2 21 s

/-- `COPY2.22` (R147, R144). -/
def execCopy2_22 (s : State) : Host.Outcome State Fault Refusal := runCopy .r2 22 s

/-- `COPY2.23` (R147, R144). -/
def execCopy2_23 (s : State) : Host.Outcome State Fault Refusal := runCopy .r2 23 s

/-- `COPY2.24` (R147, R144). -/
def execCopy2_24 (s : State) : Host.Outcome State Fault Refusal := runCopy .r2 24 s

/-- `COPY2.25` (R147, R144). -/
def execCopy2_25 (s : State) : Host.Outcome State Fault Refusal := runCopy .r2 25 s

/-- `COPY2.26` (R147, R144). -/
def execCopy2_26 (s : State) : Host.Outcome State Fault Refusal := runCopy .r2 26 s

/-- `COPY2.27` (R147, R144). -/
def execCopy2_27 (s : State) : Host.Outcome State Fault Refusal := runCopy .r2 27 s

/-- `COPY2.28` (R147, R144). -/
def execCopy2_28 (s : State) : Host.Outcome State Fault Refusal := runCopy .r2 28 s

/-- `COPY2.29` (R147, R144). -/
def execCopy2_29 (s : State) : Host.Outcome State Fault Refusal := runCopy .r2 29 s

/-- `COPY2.30` (R147, R144). -/
def execCopy2_30 (s : State) : Host.Outcome State Fault Refusal := runCopy .r2 30 s

/-- `COPY2.31` (R147, R144). -/
def execCopy2_31 (s : State) : Host.Outcome State Fault Refusal := runCopy .r2 31 s

/-- `COPY2.32` (R147, R144). -/
def execCopy2_32 (s : State) : Host.Outcome State Fault Refusal := runCopy .r2 32 s

/-- `COPY2.33` (R147, R144). -/
def execCopy2_33 (s : State) : Host.Outcome State Fault Refusal := runCopy .r2 33 s

/-- `COPY2.34` (R147, R144). -/
def execCopy2_34 (s : State) : Host.Outcome State Fault Refusal := runCopy .r2 34 s

/-- `COPY2.35` (R147, R144). -/
def execCopy2_35 (s : State) : Host.Outcome State Fault Refusal := runCopy .r2 35 s

/-- `COPY2.36` (R147, R144). -/
def execCopy2_36 (s : State) : Host.Outcome State Fault Refusal := runCopy .r2 36 s

/-- `COPY2.37` (R147, R144). -/
def execCopy2_37 (s : State) : Host.Outcome State Fault Refusal := runCopy .r2 37 s

/-- `COPY2.38` (R147, R144). -/
def execCopy2_38 (s : State) : Host.Outcome State Fault Refusal := runCopy .r2 38 s

/-- `COPY2.39` (R147, R144). -/
def execCopy2_39 (s : State) : Host.Outcome State Fault Refusal := runCopy .r2 39 s

/-- `COPY2.40` (R147, R144). -/
def execCopy2_40 (s : State) : Host.Outcome State Fault Refusal := runCopy .r2 40 s

/-- `COPY2.41` (R147, R144). -/
def execCopy2_41 (s : State) : Host.Outcome State Fault Refusal := runCopy .r2 41 s

/-- `COPY2.42` (R147, R144). -/
def execCopy2_42 (s : State) : Host.Outcome State Fault Refusal := runCopy .r2 42 s

/-- `COPY2.43` (R147, R144). -/
def execCopy2_43 (s : State) : Host.Outcome State Fault Refusal := runCopy .r2 43 s

/-- `COPY2.44` (R147, R144). -/
def execCopy2_44 (s : State) : Host.Outcome State Fault Refusal := runCopy .r2 44 s

/-- `COPY2.45` (R147, R144). -/
def execCopy2_45 (s : State) : Host.Outcome State Fault Refusal := runCopy .r2 45 s

/-- `COPY2.46` (R147, R144). -/
def execCopy2_46 (s : State) : Host.Outcome State Fault Refusal := runCopy .r2 46 s

/-- `COPY2.47` (R147, R144). -/
def execCopy2_47 (s : State) : Host.Outcome State Fault Refusal := runCopy .r2 47 s

/-- `COPY2.48` (R147, R144). -/
def execCopy2_48 (s : State) : Host.Outcome State Fault Refusal := runCopy .r2 48 s

/-- `COPY2.49` (R147, R144). -/
def execCopy2_49 (s : State) : Host.Outcome State Fault Refusal := runCopy .r2 49 s

/-- `COPY2.50` (R147, R144). -/
def execCopy2_50 (s : State) : Host.Outcome State Fault Refusal := runCopy .r2 50 s

/-- `COPY2.51` (R147, R144). -/
def execCopy2_51 (s : State) : Host.Outcome State Fault Refusal := runCopy .r2 51 s

/-- `COPY2.52` (R147, R144). -/
def execCopy2_52 (s : State) : Host.Outcome State Fault Refusal := runCopy .r2 52 s

/-- `COPY2.53` (R147, R144). -/
def execCopy2_53 (s : State) : Host.Outcome State Fault Refusal := runCopy .r2 53 s

/-- `COPY2.54` (R147, R144). -/
def execCopy2_54 (s : State) : Host.Outcome State Fault Refusal := runCopy .r2 54 s

/-- `COPY2.55` (R147, R144). -/
def execCopy2_55 (s : State) : Host.Outcome State Fault Refusal := runCopy .r2 55 s

/-- `COPY2.56` (R147, R144). -/
def execCopy2_56 (s : State) : Host.Outcome State Fault Refusal := runCopy .r2 56 s

/-- `COPY2.57` (R147, R144). -/
def execCopy2_57 (s : State) : Host.Outcome State Fault Refusal := runCopy .r2 57 s

/-- `COPY2.58` (R147, R144). -/
def execCopy2_58 (s : State) : Host.Outcome State Fault Refusal := runCopy .r2 58 s

/-- `COPY2.59` (R147, R144). -/
def execCopy2_59 (s : State) : Host.Outcome State Fault Refusal := runCopy .r2 59 s

/-- `COPY2.60` (R147, R144). -/
def execCopy2_60 (s : State) : Host.Outcome State Fault Refusal := runCopy .r2 60 s

/-- `COPY2.61` (R147, R144). -/
def execCopy2_61 (s : State) : Host.Outcome State Fault Refusal := runCopy .r2 61 s

/-- `COPY2.62` (R147, R144). -/
def execCopy2_62 (s : State) : Host.Outcome State Fault Refusal := runCopy .r2 62 s

/-- `COPY2.63` (R147, R144). -/
def execCopy2_63 (s : State) : Host.Outcome State Fault Refusal := runCopy .r2 63 s

/-- `COPY2.64` (R147, R144). -/
def execCopy2_64 (s : State) : Host.Outcome State Fault Refusal := runCopy .r2 64 s

end Sys2Proof.Machine
end

