-- ==== Sys2Proof/Machine/Copy3.lean ====
section
/-!
DEFINITION. The meanings of the rows `COPY3.3` to `COPY3.64` (R148). By default 10 extra bits follow the symbol and
`copyMin[3] = 336`. Each meaning is the common rule R144 at the range and the length that the row's symbol fixes.
-/

namespace Sys2Proof.Machine

/-- `COPY3.3` (R148, R144). -/
def execCopy3_3 (s : State) : Host.Outcome State Fault Refusal := runCopy .r3 3 s

/-- `COPY3.4` (R148, R144). -/
def execCopy3_4 (s : State) : Host.Outcome State Fault Refusal := runCopy .r3 4 s

/-- `COPY3.5` (R148, R144). -/
def execCopy3_5 (s : State) : Host.Outcome State Fault Refusal := runCopy .r3 5 s

/-- `COPY3.6` (R148, R144). -/
def execCopy3_6 (s : State) : Host.Outcome State Fault Refusal := runCopy .r3 6 s

/-- `COPY3.7` (R148, R144). -/
def execCopy3_7 (s : State) : Host.Outcome State Fault Refusal := runCopy .r3 7 s

/-- `COPY3.8` (R148, R144). -/
def execCopy3_8 (s : State) : Host.Outcome State Fault Refusal := runCopy .r3 8 s

/-- `COPY3.9` (R148, R144). -/
def execCopy3_9 (s : State) : Host.Outcome State Fault Refusal := runCopy .r3 9 s

/-- `COPY3.10` (R148, R144). -/
def execCopy3_10 (s : State) : Host.Outcome State Fault Refusal := runCopy .r3 10 s

/-- `COPY3.11` (R148, R144). -/
def execCopy3_11 (s : State) : Host.Outcome State Fault Refusal := runCopy .r3 11 s

/-- `COPY3.12` (R148, R144). -/
def execCopy3_12 (s : State) : Host.Outcome State Fault Refusal := runCopy .r3 12 s

/-- `COPY3.13` (R148, R144). -/
def execCopy3_13 (s : State) : Host.Outcome State Fault Refusal := runCopy .r3 13 s

/-- `COPY3.14` (R148, R144). -/
def execCopy3_14 (s : State) : Host.Outcome State Fault Refusal := runCopy .r3 14 s

/-- `COPY3.15` (R148, R144). -/
def execCopy3_15 (s : State) : Host.Outcome State Fault Refusal := runCopy .r3 15 s

/-- `COPY3.16` (R148, R144). -/
def execCopy3_16 (s : State) : Host.Outcome State Fault Refusal := runCopy .r3 16 s

/-- `COPY3.17` (R148, R144). -/
def execCopy3_17 (s : State) : Host.Outcome State Fault Refusal := runCopy .r3 17 s

/-- `COPY3.18` (R148, R144). -/
def execCopy3_18 (s : State) : Host.Outcome State Fault Refusal := runCopy .r3 18 s

/-- `COPY3.19` (R148, R144). -/
def execCopy3_19 (s : State) : Host.Outcome State Fault Refusal := runCopy .r3 19 s

/-- `COPY3.20` (R148, R144). -/
def execCopy3_20 (s : State) : Host.Outcome State Fault Refusal := runCopy .r3 20 s

/-- `COPY3.21` (R148, R144). -/
def execCopy3_21 (s : State) : Host.Outcome State Fault Refusal := runCopy .r3 21 s

/-- `COPY3.22` (R148, R144). -/
def execCopy3_22 (s : State) : Host.Outcome State Fault Refusal := runCopy .r3 22 s

/-- `COPY3.23` (R148, R144). -/
def execCopy3_23 (s : State) : Host.Outcome State Fault Refusal := runCopy .r3 23 s

/-- `COPY3.24` (R148, R144). -/
def execCopy3_24 (s : State) : Host.Outcome State Fault Refusal := runCopy .r3 24 s

/-- `COPY3.25` (R148, R144). -/
def execCopy3_25 (s : State) : Host.Outcome State Fault Refusal := runCopy .r3 25 s

/-- `COPY3.26` (R148, R144). -/
def execCopy3_26 (s : State) : Host.Outcome State Fault Refusal := runCopy .r3 26 s

/-- `COPY3.27` (R148, R144). -/
def execCopy3_27 (s : State) : Host.Outcome State Fault Refusal := runCopy .r3 27 s

/-- `COPY3.28` (R148, R144). -/
def execCopy3_28 (s : State) : Host.Outcome State Fault Refusal := runCopy .r3 28 s

/-- `COPY3.29` (R148, R144). -/
def execCopy3_29 (s : State) : Host.Outcome State Fault Refusal := runCopy .r3 29 s

/-- `COPY3.30` (R148, R144). -/
def execCopy3_30 (s : State) : Host.Outcome State Fault Refusal := runCopy .r3 30 s

/-- `COPY3.31` (R148, R144). -/
def execCopy3_31 (s : State) : Host.Outcome State Fault Refusal := runCopy .r3 31 s

/-- `COPY3.32` (R148, R144). -/
def execCopy3_32 (s : State) : Host.Outcome State Fault Refusal := runCopy .r3 32 s

/-- `COPY3.33` (R148, R144). -/
def execCopy3_33 (s : State) : Host.Outcome State Fault Refusal := runCopy .r3 33 s

/-- `COPY3.34` (R148, R144). -/
def execCopy3_34 (s : State) : Host.Outcome State Fault Refusal := runCopy .r3 34 s

/-- `COPY3.35` (R148, R144). -/
def execCopy3_35 (s : State) : Host.Outcome State Fault Refusal := runCopy .r3 35 s

/-- `COPY3.36` (R148, R144). -/
def execCopy3_36 (s : State) : Host.Outcome State Fault Refusal := runCopy .r3 36 s

/-- `COPY3.37` (R148, R144). -/
def execCopy3_37 (s : State) : Host.Outcome State Fault Refusal := runCopy .r3 37 s

/-- `COPY3.38` (R148, R144). -/
def execCopy3_38 (s : State) : Host.Outcome State Fault Refusal := runCopy .r3 38 s

/-- `COPY3.39` (R148, R144). -/
def execCopy3_39 (s : State) : Host.Outcome State Fault Refusal := runCopy .r3 39 s

/-- `COPY3.40` (R148, R144). -/
def execCopy3_40 (s : State) : Host.Outcome State Fault Refusal := runCopy .r3 40 s

/-- `COPY3.41` (R148, R144). -/
def execCopy3_41 (s : State) : Host.Outcome State Fault Refusal := runCopy .r3 41 s

/-- `COPY3.42` (R148, R144). -/
def execCopy3_42 (s : State) : Host.Outcome State Fault Refusal := runCopy .r3 42 s

/-- `COPY3.43` (R148, R144). -/
def execCopy3_43 (s : State) : Host.Outcome State Fault Refusal := runCopy .r3 43 s

/-- `COPY3.44` (R148, R144). -/
def execCopy3_44 (s : State) : Host.Outcome State Fault Refusal := runCopy .r3 44 s

/-- `COPY3.45` (R148, R144). -/
def execCopy3_45 (s : State) : Host.Outcome State Fault Refusal := runCopy .r3 45 s

/-- `COPY3.46` (R148, R144). -/
def execCopy3_46 (s : State) : Host.Outcome State Fault Refusal := runCopy .r3 46 s

/-- `COPY3.47` (R148, R144). -/
def execCopy3_47 (s : State) : Host.Outcome State Fault Refusal := runCopy .r3 47 s

/-- `COPY3.48` (R148, R144). -/
def execCopy3_48 (s : State) : Host.Outcome State Fault Refusal := runCopy .r3 48 s

/-- `COPY3.49` (R148, R144). -/
def execCopy3_49 (s : State) : Host.Outcome State Fault Refusal := runCopy .r3 49 s

/-- `COPY3.50` (R148, R144). -/
def execCopy3_50 (s : State) : Host.Outcome State Fault Refusal := runCopy .r3 50 s

/-- `COPY3.51` (R148, R144). -/
def execCopy3_51 (s : State) : Host.Outcome State Fault Refusal := runCopy .r3 51 s

/-- `COPY3.52` (R148, R144). -/
def execCopy3_52 (s : State) : Host.Outcome State Fault Refusal := runCopy .r3 52 s

/-- `COPY3.53` (R148, R144). -/
def execCopy3_53 (s : State) : Host.Outcome State Fault Refusal := runCopy .r3 53 s

/-- `COPY3.54` (R148, R144). -/
def execCopy3_54 (s : State) : Host.Outcome State Fault Refusal := runCopy .r3 54 s

/-- `COPY3.55` (R148, R144). -/
def execCopy3_55 (s : State) : Host.Outcome State Fault Refusal := runCopy .r3 55 s

/-- `COPY3.56` (R148, R144). -/
def execCopy3_56 (s : State) : Host.Outcome State Fault Refusal := runCopy .r3 56 s

/-- `COPY3.57` (R148, R144). -/
def execCopy3_57 (s : State) : Host.Outcome State Fault Refusal := runCopy .r3 57 s

/-- `COPY3.58` (R148, R144). -/
def execCopy3_58 (s : State) : Host.Outcome State Fault Refusal := runCopy .r3 58 s

/-- `COPY3.59` (R148, R144). -/
def execCopy3_59 (s : State) : Host.Outcome State Fault Refusal := runCopy .r3 59 s

/-- `COPY3.60` (R148, R144). -/
def execCopy3_60 (s : State) : Host.Outcome State Fault Refusal := runCopy .r3 60 s

/-- `COPY3.61` (R148, R144). -/
def execCopy3_61 (s : State) : Host.Outcome State Fault Refusal := runCopy .r3 61 s

/-- `COPY3.62` (R148, R144). -/
def execCopy3_62 (s : State) : Host.Outcome State Fault Refusal := runCopy .r3 62 s

/-- `COPY3.63` (R148, R144). -/
def execCopy3_63 (s : State) : Host.Outcome State Fault Refusal := runCopy .r3 63 s

/-- `COPY3.64` (R148, R144). -/
def execCopy3_64 (s : State) : Host.Outcome State Fault Refusal := runCopy .r3 64 s

end Sys2Proof.Machine
end

