-- ==== Sys2Proof/Machine/Copy4.lean ====
section
/-!
DEFINITION. The meanings of the rows `COPY4.3` to `COPY4.64` (R149). By default 12 extra bits follow the symbol and
`copyMin[4] = 1360`. Each meaning is the common rule R144 at the range and the length that the row's symbol fixes.
-/

namespace Sys2Proof.Machine

/-- `COPY4.3` (R149, R144). -/
def execCopy4_3 (s : State) : Host.Outcome State Fault Refusal := runCopy .r4 3 s

/-- `COPY4.4` (R149, R144). -/
def execCopy4_4 (s : State) : Host.Outcome State Fault Refusal := runCopy .r4 4 s

/-- `COPY4.5` (R149, R144). -/
def execCopy4_5 (s : State) : Host.Outcome State Fault Refusal := runCopy .r4 5 s

/-- `COPY4.6` (R149, R144). -/
def execCopy4_6 (s : State) : Host.Outcome State Fault Refusal := runCopy .r4 6 s

/-- `COPY4.7` (R149, R144). -/
def execCopy4_7 (s : State) : Host.Outcome State Fault Refusal := runCopy .r4 7 s

/-- `COPY4.8` (R149, R144). -/
def execCopy4_8 (s : State) : Host.Outcome State Fault Refusal := runCopy .r4 8 s

/-- `COPY4.9` (R149, R144). -/
def execCopy4_9 (s : State) : Host.Outcome State Fault Refusal := runCopy .r4 9 s

/-- `COPY4.10` (R149, R144). -/
def execCopy4_10 (s : State) : Host.Outcome State Fault Refusal := runCopy .r4 10 s

/-- `COPY4.11` (R149, R144). -/
def execCopy4_11 (s : State) : Host.Outcome State Fault Refusal := runCopy .r4 11 s

/-- `COPY4.12` (R149, R144). -/
def execCopy4_12 (s : State) : Host.Outcome State Fault Refusal := runCopy .r4 12 s

/-- `COPY4.13` (R149, R144). -/
def execCopy4_13 (s : State) : Host.Outcome State Fault Refusal := runCopy .r4 13 s

/-- `COPY4.14` (R149, R144). -/
def execCopy4_14 (s : State) : Host.Outcome State Fault Refusal := runCopy .r4 14 s

/-- `COPY4.15` (R149, R144). -/
def execCopy4_15 (s : State) : Host.Outcome State Fault Refusal := runCopy .r4 15 s

/-- `COPY4.16` (R149, R144). -/
def execCopy4_16 (s : State) : Host.Outcome State Fault Refusal := runCopy .r4 16 s

/-- `COPY4.17` (R149, R144). -/
def execCopy4_17 (s : State) : Host.Outcome State Fault Refusal := runCopy .r4 17 s

/-- `COPY4.18` (R149, R144). -/
def execCopy4_18 (s : State) : Host.Outcome State Fault Refusal := runCopy .r4 18 s

/-- `COPY4.19` (R149, R144). -/
def execCopy4_19 (s : State) : Host.Outcome State Fault Refusal := runCopy .r4 19 s

/-- `COPY4.20` (R149, R144). -/
def execCopy4_20 (s : State) : Host.Outcome State Fault Refusal := runCopy .r4 20 s

/-- `COPY4.21` (R149, R144). -/
def execCopy4_21 (s : State) : Host.Outcome State Fault Refusal := runCopy .r4 21 s

/-- `COPY4.22` (R149, R144). -/
def execCopy4_22 (s : State) : Host.Outcome State Fault Refusal := runCopy .r4 22 s

/-- `COPY4.23` (R149, R144). -/
def execCopy4_23 (s : State) : Host.Outcome State Fault Refusal := runCopy .r4 23 s

/-- `COPY4.24` (R149, R144). -/
def execCopy4_24 (s : State) : Host.Outcome State Fault Refusal := runCopy .r4 24 s

/-- `COPY4.25` (R149, R144). -/
def execCopy4_25 (s : State) : Host.Outcome State Fault Refusal := runCopy .r4 25 s

/-- `COPY4.26` (R149, R144). -/
def execCopy4_26 (s : State) : Host.Outcome State Fault Refusal := runCopy .r4 26 s

/-- `COPY4.27` (R149, R144). -/
def execCopy4_27 (s : State) : Host.Outcome State Fault Refusal := runCopy .r4 27 s

/-- `COPY4.28` (R149, R144). -/
def execCopy4_28 (s : State) : Host.Outcome State Fault Refusal := runCopy .r4 28 s

/-- `COPY4.29` (R149, R144). -/
def execCopy4_29 (s : State) : Host.Outcome State Fault Refusal := runCopy .r4 29 s

/-- `COPY4.30` (R149, R144). -/
def execCopy4_30 (s : State) : Host.Outcome State Fault Refusal := runCopy .r4 30 s

/-- `COPY4.31` (R149, R144). -/
def execCopy4_31 (s : State) : Host.Outcome State Fault Refusal := runCopy .r4 31 s

/-- `COPY4.32` (R149, R144). -/
def execCopy4_32 (s : State) : Host.Outcome State Fault Refusal := runCopy .r4 32 s

/-- `COPY4.33` (R149, R144). -/
def execCopy4_33 (s : State) : Host.Outcome State Fault Refusal := runCopy .r4 33 s

/-- `COPY4.34` (R149, R144). -/
def execCopy4_34 (s : State) : Host.Outcome State Fault Refusal := runCopy .r4 34 s

/-- `COPY4.35` (R149, R144). -/
def execCopy4_35 (s : State) : Host.Outcome State Fault Refusal := runCopy .r4 35 s

/-- `COPY4.36` (R149, R144). -/
def execCopy4_36 (s : State) : Host.Outcome State Fault Refusal := runCopy .r4 36 s

/-- `COPY4.37` (R149, R144). -/
def execCopy4_37 (s : State) : Host.Outcome State Fault Refusal := runCopy .r4 37 s

/-- `COPY4.38` (R149, R144). -/
def execCopy4_38 (s : State) : Host.Outcome State Fault Refusal := runCopy .r4 38 s

/-- `COPY4.39` (R149, R144). -/
def execCopy4_39 (s : State) : Host.Outcome State Fault Refusal := runCopy .r4 39 s

/-- `COPY4.40` (R149, R144). -/
def execCopy4_40 (s : State) : Host.Outcome State Fault Refusal := runCopy .r4 40 s

/-- `COPY4.41` (R149, R144). -/
def execCopy4_41 (s : State) : Host.Outcome State Fault Refusal := runCopy .r4 41 s

/-- `COPY4.42` (R149, R144). -/
def execCopy4_42 (s : State) : Host.Outcome State Fault Refusal := runCopy .r4 42 s

/-- `COPY4.43` (R149, R144). -/
def execCopy4_43 (s : State) : Host.Outcome State Fault Refusal := runCopy .r4 43 s

/-- `COPY4.44` (R149, R144). -/
def execCopy4_44 (s : State) : Host.Outcome State Fault Refusal := runCopy .r4 44 s

/-- `COPY4.45` (R149, R144). -/
def execCopy4_45 (s : State) : Host.Outcome State Fault Refusal := runCopy .r4 45 s

/-- `COPY4.46` (R149, R144). -/
def execCopy4_46 (s : State) : Host.Outcome State Fault Refusal := runCopy .r4 46 s

/-- `COPY4.47` (R149, R144). -/
def execCopy4_47 (s : State) : Host.Outcome State Fault Refusal := runCopy .r4 47 s

/-- `COPY4.48` (R149, R144). -/
def execCopy4_48 (s : State) : Host.Outcome State Fault Refusal := runCopy .r4 48 s

/-- `COPY4.49` (R149, R144). -/
def execCopy4_49 (s : State) : Host.Outcome State Fault Refusal := runCopy .r4 49 s

/-- `COPY4.50` (R149, R144). -/
def execCopy4_50 (s : State) : Host.Outcome State Fault Refusal := runCopy .r4 50 s

/-- `COPY4.51` (R149, R144). -/
def execCopy4_51 (s : State) : Host.Outcome State Fault Refusal := runCopy .r4 51 s

/-- `COPY4.52` (R149, R144). -/
def execCopy4_52 (s : State) : Host.Outcome State Fault Refusal := runCopy .r4 52 s

/-- `COPY4.53` (R149, R144). -/
def execCopy4_53 (s : State) : Host.Outcome State Fault Refusal := runCopy .r4 53 s

/-- `COPY4.54` (R149, R144). -/
def execCopy4_54 (s : State) : Host.Outcome State Fault Refusal := runCopy .r4 54 s

/-- `COPY4.55` (R149, R144). -/
def execCopy4_55 (s : State) : Host.Outcome State Fault Refusal := runCopy .r4 55 s

/-- `COPY4.56` (R149, R144). -/
def execCopy4_56 (s : State) : Host.Outcome State Fault Refusal := runCopy .r4 56 s

/-- `COPY4.57` (R149, R144). -/
def execCopy4_57 (s : State) : Host.Outcome State Fault Refusal := runCopy .r4 57 s

/-- `COPY4.58` (R149, R144). -/
def execCopy4_58 (s : State) : Host.Outcome State Fault Refusal := runCopy .r4 58 s

/-- `COPY4.59` (R149, R144). -/
def execCopy4_59 (s : State) : Host.Outcome State Fault Refusal := runCopy .r4 59 s

/-- `COPY4.60` (R149, R144). -/
def execCopy4_60 (s : State) : Host.Outcome State Fault Refusal := runCopy .r4 60 s

/-- `COPY4.61` (R149, R144). -/
def execCopy4_61 (s : State) : Host.Outcome State Fault Refusal := runCopy .r4 61 s

/-- `COPY4.62` (R149, R144). -/
def execCopy4_62 (s : State) : Host.Outcome State Fault Refusal := runCopy .r4 62 s

/-- `COPY4.63` (R149, R144). -/
def execCopy4_63 (s : State) : Host.Outcome State Fault Refusal := runCopy .r4 63 s

/-- `COPY4.64` (R149, R144). -/
def execCopy4_64 (s : State) : Host.Outcome State Fault Refusal := runCopy .r4 64 s

end Sys2Proof.Machine
end

