-- ==== Sys2Proof/Machine/Copy5.lean ====
section
/-!
DEFINITION. The meanings of the rows `COPY5.3` to `COPY5.64` (R150). By default 14 extra bits follow the symbol and
`copyMin[5] = 5456`. Each meaning is the common rule R144 at the range and the length that the row's symbol fixes.
-/

namespace Sys2Proof.Machine

/-- `COPY5.3` (R150, R144). -/
def execCopy5_3 (s : State) : Host.Outcome State Fault Refusal := runCopy .r5 3 s

/-- `COPY5.4` (R150, R144). -/
def execCopy5_4 (s : State) : Host.Outcome State Fault Refusal := runCopy .r5 4 s

/-- `COPY5.5` (R150, R144). -/
def execCopy5_5 (s : State) : Host.Outcome State Fault Refusal := runCopy .r5 5 s

/-- `COPY5.6` (R150, R144). -/
def execCopy5_6 (s : State) : Host.Outcome State Fault Refusal := runCopy .r5 6 s

/-- `COPY5.7` (R150, R144). -/
def execCopy5_7 (s : State) : Host.Outcome State Fault Refusal := runCopy .r5 7 s

/-- `COPY5.8` (R150, R144). -/
def execCopy5_8 (s : State) : Host.Outcome State Fault Refusal := runCopy .r5 8 s

/-- `COPY5.9` (R150, R144). -/
def execCopy5_9 (s : State) : Host.Outcome State Fault Refusal := runCopy .r5 9 s

/-- `COPY5.10` (R150, R144). -/
def execCopy5_10 (s : State) : Host.Outcome State Fault Refusal := runCopy .r5 10 s

/-- `COPY5.11` (R150, R144). -/
def execCopy5_11 (s : State) : Host.Outcome State Fault Refusal := runCopy .r5 11 s

/-- `COPY5.12` (R150, R144). -/
def execCopy5_12 (s : State) : Host.Outcome State Fault Refusal := runCopy .r5 12 s

/-- `COPY5.13` (R150, R144). -/
def execCopy5_13 (s : State) : Host.Outcome State Fault Refusal := runCopy .r5 13 s

/-- `COPY5.14` (R150, R144). -/
def execCopy5_14 (s : State) : Host.Outcome State Fault Refusal := runCopy .r5 14 s

/-- `COPY5.15` (R150, R144). -/
def execCopy5_15 (s : State) : Host.Outcome State Fault Refusal := runCopy .r5 15 s

/-- `COPY5.16` (R150, R144). -/
def execCopy5_16 (s : State) : Host.Outcome State Fault Refusal := runCopy .r5 16 s

/-- `COPY5.17` (R150, R144). -/
def execCopy5_17 (s : State) : Host.Outcome State Fault Refusal := runCopy .r5 17 s

/-- `COPY5.18` (R150, R144). -/
def execCopy5_18 (s : State) : Host.Outcome State Fault Refusal := runCopy .r5 18 s

/-- `COPY5.19` (R150, R144). -/
def execCopy5_19 (s : State) : Host.Outcome State Fault Refusal := runCopy .r5 19 s

/-- `COPY5.20` (R150, R144). -/
def execCopy5_20 (s : State) : Host.Outcome State Fault Refusal := runCopy .r5 20 s

/-- `COPY5.21` (R150, R144). -/
def execCopy5_21 (s : State) : Host.Outcome State Fault Refusal := runCopy .r5 21 s

/-- `COPY5.22` (R150, R144). -/
def execCopy5_22 (s : State) : Host.Outcome State Fault Refusal := runCopy .r5 22 s

/-- `COPY5.23` (R150, R144). -/
def execCopy5_23 (s : State) : Host.Outcome State Fault Refusal := runCopy .r5 23 s

/-- `COPY5.24` (R150, R144). -/
def execCopy5_24 (s : State) : Host.Outcome State Fault Refusal := runCopy .r5 24 s

/-- `COPY5.25` (R150, R144). -/
def execCopy5_25 (s : State) : Host.Outcome State Fault Refusal := runCopy .r5 25 s

/-- `COPY5.26` (R150, R144). -/
def execCopy5_26 (s : State) : Host.Outcome State Fault Refusal := runCopy .r5 26 s

/-- `COPY5.27` (R150, R144). -/
def execCopy5_27 (s : State) : Host.Outcome State Fault Refusal := runCopy .r5 27 s

/-- `COPY5.28` (R150, R144). -/
def execCopy5_28 (s : State) : Host.Outcome State Fault Refusal := runCopy .r5 28 s

/-- `COPY5.29` (R150, R144). -/
def execCopy5_29 (s : State) : Host.Outcome State Fault Refusal := runCopy .r5 29 s

/-- `COPY5.30` (R150, R144). -/
def execCopy5_30 (s : State) : Host.Outcome State Fault Refusal := runCopy .r5 30 s

/-- `COPY5.31` (R150, R144). -/
def execCopy5_31 (s : State) : Host.Outcome State Fault Refusal := runCopy .r5 31 s

/-- `COPY5.32` (R150, R144). -/
def execCopy5_32 (s : State) : Host.Outcome State Fault Refusal := runCopy .r5 32 s

/-- `COPY5.33` (R150, R144). -/
def execCopy5_33 (s : State) : Host.Outcome State Fault Refusal := runCopy .r5 33 s

/-- `COPY5.34` (R150, R144). -/
def execCopy5_34 (s : State) : Host.Outcome State Fault Refusal := runCopy .r5 34 s

/-- `COPY5.35` (R150, R144). -/
def execCopy5_35 (s : State) : Host.Outcome State Fault Refusal := runCopy .r5 35 s

/-- `COPY5.36` (R150, R144). -/
def execCopy5_36 (s : State) : Host.Outcome State Fault Refusal := runCopy .r5 36 s

/-- `COPY5.37` (R150, R144). -/
def execCopy5_37 (s : State) : Host.Outcome State Fault Refusal := runCopy .r5 37 s

/-- `COPY5.38` (R150, R144). -/
def execCopy5_38 (s : State) : Host.Outcome State Fault Refusal := runCopy .r5 38 s

/-- `COPY5.39` (R150, R144). -/
def execCopy5_39 (s : State) : Host.Outcome State Fault Refusal := runCopy .r5 39 s

/-- `COPY5.40` (R150, R144). -/
def execCopy5_40 (s : State) : Host.Outcome State Fault Refusal := runCopy .r5 40 s

/-- `COPY5.41` (R150, R144). -/
def execCopy5_41 (s : State) : Host.Outcome State Fault Refusal := runCopy .r5 41 s

/-- `COPY5.42` (R150, R144). -/
def execCopy5_42 (s : State) : Host.Outcome State Fault Refusal := runCopy .r5 42 s

/-- `COPY5.43` (R150, R144). -/
def execCopy5_43 (s : State) : Host.Outcome State Fault Refusal := runCopy .r5 43 s

/-- `COPY5.44` (R150, R144). -/
def execCopy5_44 (s : State) : Host.Outcome State Fault Refusal := runCopy .r5 44 s

/-- `COPY5.45` (R150, R144). -/
def execCopy5_45 (s : State) : Host.Outcome State Fault Refusal := runCopy .r5 45 s

/-- `COPY5.46` (R150, R144). -/
def execCopy5_46 (s : State) : Host.Outcome State Fault Refusal := runCopy .r5 46 s

/-- `COPY5.47` (R150, R144). -/
def execCopy5_47 (s : State) : Host.Outcome State Fault Refusal := runCopy .r5 47 s

/-- `COPY5.48` (R150, R144). -/
def execCopy5_48 (s : State) : Host.Outcome State Fault Refusal := runCopy .r5 48 s

/-- `COPY5.49` (R150, R144). -/
def execCopy5_49 (s : State) : Host.Outcome State Fault Refusal := runCopy .r5 49 s

/-- `COPY5.50` (R150, R144). -/
def execCopy5_50 (s : State) : Host.Outcome State Fault Refusal := runCopy .r5 50 s

/-- `COPY5.51` (R150, R144). -/
def execCopy5_51 (s : State) : Host.Outcome State Fault Refusal := runCopy .r5 51 s

/-- `COPY5.52` (R150, R144). -/
def execCopy5_52 (s : State) : Host.Outcome State Fault Refusal := runCopy .r5 52 s

/-- `COPY5.53` (R150, R144). -/
def execCopy5_53 (s : State) : Host.Outcome State Fault Refusal := runCopy .r5 53 s

/-- `COPY5.54` (R150, R144). -/
def execCopy5_54 (s : State) : Host.Outcome State Fault Refusal := runCopy .r5 54 s

/-- `COPY5.55` (R150, R144). -/
def execCopy5_55 (s : State) : Host.Outcome State Fault Refusal := runCopy .r5 55 s

/-- `COPY5.56` (R150, R144). -/
def execCopy5_56 (s : State) : Host.Outcome State Fault Refusal := runCopy .r5 56 s

/-- `COPY5.57` (R150, R144). -/
def execCopy5_57 (s : State) : Host.Outcome State Fault Refusal := runCopy .r5 57 s

/-- `COPY5.58` (R150, R144). -/
def execCopy5_58 (s : State) : Host.Outcome State Fault Refusal := runCopy .r5 58 s

/-- `COPY5.59` (R150, R144). -/
def execCopy5_59 (s : State) : Host.Outcome State Fault Refusal := runCopy .r5 59 s

/-- `COPY5.60` (R150, R144). -/
def execCopy5_60 (s : State) : Host.Outcome State Fault Refusal := runCopy .r5 60 s

/-- `COPY5.61` (R150, R144). -/
def execCopy5_61 (s : State) : Host.Outcome State Fault Refusal := runCopy .r5 61 s

/-- `COPY5.62` (R150, R144). -/
def execCopy5_62 (s : State) : Host.Outcome State Fault Refusal := runCopy .r5 62 s

/-- `COPY5.63` (R150, R144). -/
def execCopy5_63 (s : State) : Host.Outcome State Fault Refusal := runCopy .r5 63 s

/-- `COPY5.64` (R150, R144). -/
def execCopy5_64 (s : State) : Host.Outcome State Fault Refusal := runCopy .r5 64 s

end Sys2Proof.Machine
end

