-- ==== Sys2Proof/Machine/Literal.lean ====
section
/-!
DEFINITION. The literal instruction and the terminate instruction.
-/

namespace Sys2Proof.Machine

/-- `LIT b` (R142): `APPENDLIT(b)`. The `UPDATE` of its symbol ran in the `DECODESYM` that fetched it. -/
def execLit (b : Byte) (s : State) : Host.Outcome State Fault Refusal :=
  .next (s.withHist (appendLit s.cfg.historySize b s.hist))

/-- `TERM` (R143): the run ends; `STATUS <- DONE`, `OUT_LEN <- count`. Nothing more is read from the input. -/
def execTerm (s : State) : Host.Outcome State Fault Refusal :=
  .next { s with status := .done, outLen := s.hist.count }

end Sys2Proof.Machine
end

