-- ==== Sys2Proof/Machine/Dispatch.lean ====
section
/-!
DEFINITION. The meaning of every stream instruction, one arm for each constructor of Instr.
-/

namespace Sys2Proof.Machine

def exec (i : Instr) (s : State) : Host.Outcome State Fault Refusal :=
  match i with
  | .lit byte => Sys2Proof.Machine.execLit byte s
  | .term => Sys2Proof.Machine.execTerm s
  | .copy0_3 => Sys2Proof.Machine.execCopy0_3 s
  | .copy0_4 => Sys2Proof.Machine.execCopy0_4 s
  | .copy0_5 => Sys2Proof.Machine.execCopy0_5 s
  | .copy0_6 => Sys2Proof.Machine.execCopy0_6 s
  | .copy0_7 => Sys2Proof.Machine.execCopy0_7 s
  | .copy0_8 => Sys2Proof.Machine.execCopy0_8 s
  | .copy0_9 => Sys2Proof.Machine.execCopy0_9 s
  | .copy0_10 => Sys2Proof.Machine.execCopy0_10 s
  | .copy0_11 => Sys2Proof.Machine.execCopy0_11 s
  | .copy0_12 => Sys2Proof.Machine.execCopy0_12 s
  | .copy0_13 => Sys2Proof.Machine.execCopy0_13 s
  | .copy0_14 => Sys2Proof.Machine.execCopy0_14 s
  | .copy0_15 => Sys2Proof.Machine.execCopy0_15 s
  | .copy0_16 => Sys2Proof.Machine.execCopy0_16 s
  | .copy0_17 => Sys2Proof.Machine.execCopy0_17 s
  | .copy0_18 => Sys2Proof.Machine.execCopy0_18 s
  | .copy0_19 => Sys2Proof.Machine.execCopy0_19 s
  | .copy0_20 => Sys2Proof.Machine.execCopy0_20 s
  | .copy0_21 => Sys2Proof.Machine.execCopy0_21 s
  | .copy0_22 => Sys2Proof.Machine.execCopy0_22 s
  | .copy0_23 => Sys2Proof.Machine.execCopy0_23 s
  | .copy0_24 => Sys2Proof.Machine.execCopy0_24 s
  | .copy0_25 => Sys2Proof.Machine.execCopy0_25 s
  | .copy0_26 => Sys2Proof.Machine.execCopy0_26 s
  | .copy0_27 => Sys2Proof.Machine.execCopy0_27 s
  | .copy0_28 => Sys2Proof.Machine.execCopy0_28 s
  | .copy0_29 => Sys2Proof.Machine.execCopy0_29 s
  | .copy0_30 => Sys2Proof.Machine.execCopy0_30 s
  | .copy0_31 => Sys2Proof.Machine.execCopy0_31 s
  | .copy0_32 => Sys2Proof.Machine.execCopy0_32 s
  | .copy0_33 => Sys2Proof.Machine.execCopy0_33 s
  | .copy0_34 => Sys2Proof.Machine.execCopy0_34 s
  | .copy0_35 => Sys2Proof.Machine.execCopy0_35 s
  | .copy0_36 => Sys2Proof.Machine.execCopy0_36 s
  | .copy0_37 => Sys2Proof.Machine.execCopy0_37 s
  | .copy0_38 => Sys2Proof.Machine.execCopy0_38 s
  | .copy0_39 => Sys2Proof.Machine.execCopy0_39 s
  | .copy0_40 => Sys2Proof.Machine.execCopy0_40 s
  | .copy0_41 => Sys2Proof.Machine.execCopy0_41 s
  | .copy0_42 => Sys2Proof.Machine.execCopy0_42 s
  | .copy0_43 => Sys2Proof.Machine.execCopy0_43 s
  | .copy0_44 => Sys2Proof.Machine.execCopy0_44 s
  | .copy0_45 => Sys2Proof.Machine.execCopy0_45 s
  | .copy0_46 => Sys2Proof.Machine.execCopy0_46 s
  | .copy0_47 => Sys2Proof.Machine.execCopy0_47 s
  | .copy0_48 => Sys2Proof.Machine.execCopy0_48 s
  | .copy0_49 => Sys2Proof.Machine.execCopy0_49 s
  | .copy0_50 => Sys2Proof.Machine.execCopy0_50 s
  | .copy0_51 => Sys2Proof.Machine.execCopy0_51 s
  | .copy0_52 => Sys2Proof.Machine.execCopy0_52 s
  | .copy0_53 => Sys2Proof.Machine.execCopy0_53 s
  | .copy0_54 => Sys2Proof.Machine.execCopy0_54 s
  | .copy0_55 => Sys2Proof.Machine.execCopy0_55 s
  | .copy0_56 => Sys2Proof.Machine.execCopy0_56 s
  | .copy0_57 => Sys2Proof.Machine.execCopy0_57 s
  | .copy0_58 => Sys2Proof.Machine.execCopy0_58 s
  | .copy0_59 => Sys2Proof.Machine.execCopy0_59 s
  | .copy0_60 => Sys2Proof.Machine.execCopy0_60 s
  | .copy0_61 => Sys2Proof.Machine.execCopy0_61 s
  | .copy0_62 => Sys2Proof.Machine.execCopy0_62 s
  | .copy0_63 => Sys2Proof.Machine.execCopy0_63 s
  | .copy0_64 => Sys2Proof.Machine.execCopy0_64 s
  | .copy1_3 => Sys2Proof.Machine.execCopy1_3 s
  | .copy1_4 => Sys2Proof.Machine.execCopy1_4 s
  | .copy1_5 => Sys2Proof.Machine.execCopy1_5 s
  | .copy1_6 => Sys2Proof.Machine.execCopy1_6 s
  | .copy1_7 => Sys2Proof.Machine.execCopy1_7 s
  | .copy1_8 => Sys2Proof.Machine.execCopy1_8 s
  | .copy1_9 => Sys2Proof.Machine.execCopy1_9 s
  | .copy1_10 => Sys2Proof.Machine.execCopy1_10 s
  | .copy1_11 => Sys2Proof.Machine.execCopy1_11 s
  | .copy1_12 => Sys2Proof.Machine.execCopy1_12 s
  | .copy1_13 => Sys2Proof.Machine.execCopy1_13 s
  | .copy1_14 => Sys2Proof.Machine.execCopy1_14 s
  | .copy1_15 => Sys2Proof.Machine.execCopy1_15 s
  | .copy1_16 => Sys2Proof.Machine.execCopy1_16 s
  | .copy1_17 => Sys2Proof.Machine.execCopy1_17 s
  | .copy1_18 => Sys2Proof.Machine.execCopy1_18 s
  | .copy1_19 => Sys2Proof.Machine.execCopy1_19 s
  | .copy1_20 => Sys2Proof.Machine.execCopy1_20 s
  | .copy1_21 => Sys2Proof.Machine.execCopy1_21 s
  | .copy1_22 => Sys2Proof.Machine.execCopy1_22 s
  | .copy1_23 => Sys2Proof.Machine.execCopy1_23 s
  | .copy1_24 => Sys2Proof.Machine.execCopy1_24 s
  | .copy1_25 => Sys2Proof.Machine.execCopy1_25 s
  | .copy1_26 => Sys2Proof.Machine.execCopy1_26 s
  | .copy1_27 => Sys2Proof.Machine.execCopy1_27 s
  | .copy1_28 => Sys2Proof.Machine.execCopy1_28 s
  | .copy1_29 => Sys2Proof.Machine.execCopy1_29 s
  | .copy1_30 => Sys2Proof.Machine.execCopy1_30 s
  | .copy1_31 => Sys2Proof.Machine.execCopy1_31 s
  | .copy1_32 => Sys2Proof.Machine.execCopy1_32 s
  | .copy1_33 => Sys2Proof.Machine.execCopy1_33 s
  | .copy1_34 => Sys2Proof.Machine.execCopy1_34 s
  | .copy1_35 => Sys2Proof.Machine.execCopy1_35 s
  | .copy1_36 => Sys2Proof.Machine.execCopy1_36 s
  | .copy1_37 => Sys2Proof.Machine.execCopy1_37 s
  | .copy1_38 => Sys2Proof.Machine.execCopy1_38 s
  | .copy1_39 => Sys2Proof.Machine.execCopy1_39 s
  | .copy1_40 => Sys2Proof.Machine.execCopy1_40 s
  | .copy1_41 => Sys2Proof.Machine.execCopy1_41 s
  | .copy1_42 => Sys2Proof.Machine.execCopy1_42 s
  | .copy1_43 => Sys2Proof.Machine.execCopy1_43 s
  | .copy1_44 => Sys2Proof.Machine.execCopy1_44 s
  | .copy1_45 => Sys2Proof.Machine.execCopy1_45 s
  | .copy1_46 => Sys2Proof.Machine.execCopy1_46 s
  | .copy1_47 => Sys2Proof.Machine.execCopy1_47 s
  | .copy1_48 => Sys2Proof.Machine.execCopy1_48 s
  | .copy1_49 => Sys2Proof.Machine.execCopy1_49 s
  | .copy1_50 => Sys2Proof.Machine.execCopy1_50 s
  | .copy1_51 => Sys2Proof.Machine.execCopy1_51 s
  | .copy1_52 => Sys2Proof.Machine.execCopy1_52 s
  | .copy1_53 => Sys2Proof.Machine.execCopy1_53 s
  | .copy1_54 => Sys2Proof.Machine.execCopy1_54 s
  | .copy1_55 => Sys2Proof.Machine.execCopy1_55 s
  | .copy1_56 => Sys2Proof.Machine.execCopy1_56 s
  | .copy1_57 => Sys2Proof.Machine.execCopy1_57 s
  | .copy1_58 => Sys2Proof.Machine.execCopy1_58 s
  | .copy1_59 => Sys2Proof.Machine.execCopy1_59 s
  | .copy1_60 => Sys2Proof.Machine.execCopy1_60 s
  | .copy1_61 => Sys2Proof.Machine.execCopy1_61 s
  | .copy1_62 => Sys2Proof.Machine.execCopy1_62 s
  | .copy1_63 => Sys2Proof.Machine.execCopy1_63 s
  | .copy1_64 => Sys2Proof.Machine.execCopy1_64 s
  | .copy2_3 => Sys2Proof.Machine.execCopy2_3 s
  | .copy2_4 => Sys2Proof.Machine.execCopy2_4 s
  | .copy2_5 => Sys2Proof.Machine.execCopy2_5 s
  | .copy2_6 => Sys2Proof.Machine.execCopy2_6 s
  | .copy2_7 => Sys2Proof.Machine.execCopy2_7 s
  | .copy2_8 => Sys2Proof.Machine.execCopy2_8 s
  | .copy2_9 => Sys2Proof.Machine.execCopy2_9 s
  | .copy2_10 => Sys2Proof.Machine.execCopy2_10 s
  | .copy2_11 => Sys2Proof.Machine.execCopy2_11 s
  | .copy2_12 => Sys2Proof.Machine.execCopy2_12 s
  | .copy2_13 => Sys2Proof.Machine.execCopy2_13 s
  | .copy2_14 => Sys2Proof.Machine.execCopy2_14 s
  | .copy2_15 => Sys2Proof.Machine.execCopy2_15 s
  | .copy2_16 => Sys2Proof.Machine.execCopy2_16 s
  | .copy2_17 => Sys2Proof.Machine.execCopy2_17 s
  | .copy2_18 => Sys2Proof.Machine.execCopy2_18 s
  | .copy2_19 => Sys2Proof.Machine.execCopy2_19 s
  | .copy2_20 => Sys2Proof.Machine.execCopy2_20 s
  | .copy2_21 => Sys2Proof.Machine.execCopy2_21 s
  | .copy2_22 => Sys2Proof.Machine.execCopy2_22 s
  | .copy2_23 => Sys2Proof.Machine.execCopy2_23 s
  | .copy2_24 => Sys2Proof.Machine.execCopy2_24 s
  | .copy2_25 => Sys2Proof.Machine.execCopy2_25 s
  | .copy2_26 => Sys2Proof.Machine.execCopy2_26 s
  | .copy2_27 => Sys2Proof.Machine.execCopy2_27 s
  | .copy2_28 => Sys2Proof.Machine.execCopy2_28 s
  | .copy2_29 => Sys2Proof.Machine.execCopy2_29 s
  | .copy2_30 => Sys2Proof.Machine.execCopy2_30 s
  | .copy2_31 => Sys2Proof.Machine.execCopy2_31 s
  | .copy2_32 => Sys2Proof.Machine.execCopy2_32 s
  | .copy2_33 => Sys2Proof.Machine.execCopy2_33 s
  | .copy2_34 => Sys2Proof.Machine.execCopy2_34 s
  | .copy2_35 => Sys2Proof.Machine.execCopy2_35 s
  | .copy2_36 => Sys2Proof.Machine.execCopy2_36 s
  | .copy2_37 => Sys2Proof.Machine.execCopy2_37 s
  | .copy2_38 => Sys2Proof.Machine.execCopy2_38 s
  | .copy2_39 => Sys2Proof.Machine.execCopy2_39 s
  | .copy2_40 => Sys2Proof.Machine.execCopy2_40 s
  | .copy2_41 => Sys2Proof.Machine.execCopy2_41 s
  | .copy2_42 => Sys2Proof.Machine.execCopy2_42 s
  | .copy2_43 => Sys2Proof.Machine.execCopy2_43 s
  | .copy2_44 => Sys2Proof.Machine.execCopy2_44 s
  | .copy2_45 => Sys2Proof.Machine.execCopy2_45 s
  | .copy2_46 => Sys2Proof.Machine.execCopy2_46 s
  | .copy2_47 => Sys2Proof.Machine.execCopy2_47 s
  | .copy2_48 => Sys2Proof.Machine.execCopy2_48 s
  | .copy2_49 => Sys2Proof.Machine.execCopy2_49 s
  | .copy2_50 => Sys2Proof.Machine.execCopy2_50 s
  | .copy2_51 => Sys2Proof.Machine.execCopy2_51 s
  | .copy2_52 => Sys2Proof.Machine.execCopy2_52 s
  | .copy2_53 => Sys2Proof.Machine.execCopy2_53 s
  | .copy2_54 => Sys2Proof.Machine.execCopy2_54 s
  | .copy2_55 => Sys2Proof.Machine.execCopy2_55 s
  | .copy2_56 => Sys2Proof.Machine.execCopy2_56 s
  | .copy2_57 => Sys2Proof.Machine.execCopy2_57 s
  | .copy2_58 => Sys2Proof.Machine.execCopy2_58 s
  | .copy2_59 => Sys2Proof.Machine.execCopy2_59 s
  | .copy2_60 => Sys2Proof.Machine.execCopy2_60 s
  | .copy2_61 => Sys2Proof.Machine.execCopy2_61 s
  | .copy2_62 => Sys2Proof.Machine.execCopy2_62 s
  | .copy2_63 => Sys2Proof.Machine.execCopy2_63 s
  | .copy2_64 => Sys2Proof.Machine.execCopy2_64 s
  | .copy3_3 => Sys2Proof.Machine.execCopy3_3 s
  | .copy3_4 => Sys2Proof.Machine.execCopy3_4 s
  | .copy3_5 => Sys2Proof.Machine.execCopy3_5 s
  | .copy3_6 => Sys2Proof.Machine.execCopy3_6 s
  | .copy3_7 => Sys2Proof.Machine.execCopy3_7 s
  | .copy3_8 => Sys2Proof.Machine.execCopy3_8 s
  | .copy3_9 => Sys2Proof.Machine.execCopy3_9 s
  | .copy3_10 => Sys2Proof.Machine.execCopy3_10 s
  | .copy3_11 => Sys2Proof.Machine.execCopy3_11 s
  | .copy3_12 => Sys2Proof.Machine.execCopy3_12 s
  | .copy3_13 => Sys2Proof.Machine.execCopy3_13 s
  | .copy3_14 => Sys2Proof.Machine.execCopy3_14 s
  | .copy3_15 => Sys2Proof.Machine.execCopy3_15 s
  | .copy3_16 => Sys2Proof.Machine.execCopy3_16 s
  | .copy3_17 => Sys2Proof.Machine.execCopy3_17 s
  | .copy3_18 => Sys2Proof.Machine.execCopy3_18 s
  | .copy3_19 => Sys2Proof.Machine.execCopy3_19 s
  | .copy3_20 => Sys2Proof.Machine.execCopy3_20 s
  | .copy3_21 => Sys2Proof.Machine.execCopy3_21 s
  | .copy3_22 => Sys2Proof.Machine.execCopy3_22 s
  | .copy3_23 => Sys2Proof.Machine.execCopy3_23 s
  | .copy3_24 => Sys2Proof.Machine.execCopy3_24 s
  | .copy3_25 => Sys2Proof.Machine.execCopy3_25 s
  | .copy3_26 => Sys2Proof.Machine.execCopy3_26 s
  | .copy3_27 => Sys2Proof.Machine.execCopy3_27 s
  | .copy3_28 => Sys2Proof.Machine.execCopy3_28 s
  | .copy3_29 => Sys2Proof.Machine.execCopy3_29 s
  | .copy3_30 => Sys2Proof.Machine.execCopy3_30 s
  | .copy3_31 => Sys2Proof.Machine.execCopy3_31 s
  | .copy3_32 => Sys2Proof.Machine.execCopy3_32 s
  | .copy3_33 => Sys2Proof.Machine.execCopy3_33 s
  | .copy3_34 => Sys2Proof.Machine.execCopy3_34 s
  | .copy3_35 => Sys2Proof.Machine.execCopy3_35 s
  | .copy3_36 => Sys2Proof.Machine.execCopy3_36 s
  | .copy3_37 => Sys2Proof.Machine.execCopy3_37 s
  | .copy3_38 => Sys2Proof.Machine.execCopy3_38 s
  | .copy3_39 => Sys2Proof.Machine.execCopy3_39 s
  | .copy3_40 => Sys2Proof.Machine.execCopy3_40 s
  | .copy3_41 => Sys2Proof.Machine.execCopy3_41 s
  | .copy3_42 => Sys2Proof.Machine.execCopy3_42 s
  | .copy3_43 => Sys2Proof.Machine.execCopy3_43 s
  | .copy3_44 => Sys2Proof.Machine.execCopy3_44 s
  | .copy3_45 => Sys2Proof.Machine.execCopy3_45 s
  | .copy3_46 => Sys2Proof.Machine.execCopy3_46 s
  | .copy3_47 => Sys2Proof.Machine.execCopy3_47 s
  | .copy3_48 => Sys2Proof.Machine.execCopy3_48 s
  | .copy3_49 => Sys2Proof.Machine.execCopy3_49 s
  | .copy3_50 => Sys2Proof.Machine.execCopy3_50 s
  | .copy3_51 => Sys2Proof.Machine.execCopy3_51 s
  | .copy3_52 => Sys2Proof.Machine.execCopy3_52 s
  | .copy3_53 => Sys2Proof.Machine.execCopy3_53 s
  | .copy3_54 => Sys2Proof.Machine.execCopy3_54 s
  | .copy3_55 => Sys2Proof.Machine.execCopy3_55 s
  | .copy3_56 => Sys2Proof.Machine.execCopy3_56 s
  | .copy3_57 => Sys2Proof.Machine.execCopy3_57 s
  | .copy3_58 => Sys2Proof.Machine.execCopy3_58 s
  | .copy3_59 => Sys2Proof.Machine.execCopy3_59 s
  | .copy3_60 => Sys2Proof.Machine.execCopy3_60 s
  | .copy3_61 => Sys2Proof.Machine.execCopy3_61 s
  | .copy3_62 => Sys2Proof.Machine.execCopy3_62 s
  | .copy3_63 => Sys2Proof.Machine.execCopy3_63 s
  | .copy3_64 => Sys2Proof.Machine.execCopy3_64 s
  | .copy4_3 => Sys2Proof.Machine.execCopy4_3 s
  | .copy4_4 => Sys2Proof.Machine.execCopy4_4 s
  | .copy4_5 => Sys2Proof.Machine.execCopy4_5 s
  | .copy4_6 => Sys2Proof.Machine.execCopy4_6 s
  | .copy4_7 => Sys2Proof.Machine.execCopy4_7 s
  | .copy4_8 => Sys2Proof.Machine.execCopy4_8 s
  | .copy4_9 => Sys2Proof.Machine.execCopy4_9 s
  | .copy4_10 => Sys2Proof.Machine.execCopy4_10 s
  | .copy4_11 => Sys2Proof.Machine.execCopy4_11 s
  | .copy4_12 => Sys2Proof.Machine.execCopy4_12 s
  | .copy4_13 => Sys2Proof.Machine.execCopy4_13 s
  | .copy4_14 => Sys2Proof.Machine.execCopy4_14 s
  | .copy4_15 => Sys2Proof.Machine.execCopy4_15 s
  | .copy4_16 => Sys2Proof.Machine.execCopy4_16 s
  | .copy4_17 => Sys2Proof.Machine.execCopy4_17 s
  | .copy4_18 => Sys2Proof.Machine.execCopy4_18 s
  | .copy4_19 => Sys2Proof.Machine.execCopy4_19 s
  | .copy4_20 => Sys2Proof.Machine.execCopy4_20 s
  | .copy4_21 => Sys2Proof.Machine.execCopy4_21 s
  | .copy4_22 => Sys2Proof.Machine.execCopy4_22 s
  | .copy4_23 => Sys2Proof.Machine.execCopy4_23 s
  | .copy4_24 => Sys2Proof.Machine.execCopy4_24 s
  | .copy4_25 => Sys2Proof.Machine.execCopy4_25 s
  | .copy4_26 => Sys2Proof.Machine.execCopy4_26 s
  | .copy4_27 => Sys2Proof.Machine.execCopy4_27 s
  | .copy4_28 => Sys2Proof.Machine.execCopy4_28 s
  | .copy4_29 => Sys2Proof.Machine.execCopy4_29 s
  | .copy4_30 => Sys2Proof.Machine.execCopy4_30 s
  | .copy4_31 => Sys2Proof.Machine.execCopy4_31 s
  | .copy4_32 => Sys2Proof.Machine.execCopy4_32 s
  | .copy4_33 => Sys2Proof.Machine.execCopy4_33 s
  | .copy4_34 => Sys2Proof.Machine.execCopy4_34 s
  | .copy4_35 => Sys2Proof.Machine.execCopy4_35 s
  | .copy4_36 => Sys2Proof.Machine.execCopy4_36 s
  | .copy4_37 => Sys2Proof.Machine.execCopy4_37 s
  | .copy4_38 => Sys2Proof.Machine.execCopy4_38 s
  | .copy4_39 => Sys2Proof.Machine.execCopy4_39 s
  | .copy4_40 => Sys2Proof.Machine.execCopy4_40 s
  | .copy4_41 => Sys2Proof.Machine.execCopy4_41 s
  | .copy4_42 => Sys2Proof.Machine.execCopy4_42 s
  | .copy4_43 => Sys2Proof.Machine.execCopy4_43 s
  | .copy4_44 => Sys2Proof.Machine.execCopy4_44 s
  | .copy4_45 => Sys2Proof.Machine.execCopy4_45 s
  | .copy4_46 => Sys2Proof.Machine.execCopy4_46 s
  | .copy4_47 => Sys2Proof.Machine.execCopy4_47 s
  | .copy4_48 => Sys2Proof.Machine.execCopy4_48 s
  | .copy4_49 => Sys2Proof.Machine.execCopy4_49 s
  | .copy4_50 => Sys2Proof.Machine.execCopy4_50 s
  | .copy4_51 => Sys2Proof.Machine.execCopy4_51 s
  | .copy4_52 => Sys2Proof.Machine.execCopy4_52 s
  | .copy4_53 => Sys2Proof.Machine.execCopy4_53 s
  | .copy4_54 => Sys2Proof.Machine.execCopy4_54 s
  | .copy4_55 => Sys2Proof.Machine.execCopy4_55 s
  | .copy4_56 => Sys2Proof.Machine.execCopy4_56 s
  | .copy4_57 => Sys2Proof.Machine.execCopy4_57 s
  | .copy4_58 => Sys2Proof.Machine.execCopy4_58 s
  | .copy4_59 => Sys2Proof.Machine.execCopy4_59 s
  | .copy4_60 => Sys2Proof.Machine.execCopy4_60 s
  | .copy4_61 => Sys2Proof.Machine.execCopy4_61 s
  | .copy4_62 => Sys2Proof.Machine.execCopy4_62 s
  | .copy4_63 => Sys2Proof.Machine.execCopy4_63 s
  | .copy4_64 => Sys2Proof.Machine.execCopy4_64 s
  | .copy5_3 => Sys2Proof.Machine.execCopy5_3 s
  | .copy5_4 => Sys2Proof.Machine.execCopy5_4 s
  | .copy5_5 => Sys2Proof.Machine.execCopy5_5 s
  | .copy5_6 => Sys2Proof.Machine.execCopy5_6 s
  | .copy5_7 => Sys2Proof.Machine.execCopy5_7 s
  | .copy5_8 => Sys2Proof.Machine.execCopy5_8 s
  | .copy5_9 => Sys2Proof.Machine.execCopy5_9 s
  | .copy5_10 => Sys2Proof.Machine.execCopy5_10 s
  | .copy5_11 => Sys2Proof.Machine.execCopy5_11 s
  | .copy5_12 => Sys2Proof.Machine.execCopy5_12 s
  | .copy5_13 => Sys2Proof.Machine.execCopy5_13 s
  | .copy5_14 => Sys2Proof.Machine.execCopy5_14 s
  | .copy5_15 => Sys2Proof.Machine.execCopy5_15 s
  | .copy5_16 => Sys2Proof.Machine.execCopy5_16 s
  | .copy5_17 => Sys2Proof.Machine.execCopy5_17 s
  | .copy5_18 => Sys2Proof.Machine.execCopy5_18 s
  | .copy5_19 => Sys2Proof.Machine.execCopy5_19 s
  | .copy5_20 => Sys2Proof.Machine.execCopy5_20 s
  | .copy5_21 => Sys2Proof.Machine.execCopy5_21 s
  | .copy5_22 => Sys2Proof.Machine.execCopy5_22 s
  | .copy5_23 => Sys2Proof.Machine.execCopy5_23 s
  | .copy5_24 => Sys2Proof.Machine.execCopy5_24 s
  | .copy5_25 => Sys2Proof.Machine.execCopy5_25 s
  | .copy5_26 => Sys2Proof.Machine.execCopy5_26 s
  | .copy5_27 => Sys2Proof.Machine.execCopy5_27 s
  | .copy5_28 => Sys2Proof.Machine.execCopy5_28 s
  | .copy5_29 => Sys2Proof.Machine.execCopy5_29 s
  | .copy5_30 => Sys2Proof.Machine.execCopy5_30 s
  | .copy5_31 => Sys2Proof.Machine.execCopy5_31 s
  | .copy5_32 => Sys2Proof.Machine.execCopy5_32 s
  | .copy5_33 => Sys2Proof.Machine.execCopy5_33 s
  | .copy5_34 => Sys2Proof.Machine.execCopy5_34 s
  | .copy5_35 => Sys2Proof.Machine.execCopy5_35 s
  | .copy5_36 => Sys2Proof.Machine.execCopy5_36 s
  | .copy5_37 => Sys2Proof.Machine.execCopy5_37 s
  | .copy5_38 => Sys2Proof.Machine.execCopy5_38 s
  | .copy5_39 => Sys2Proof.Machine.execCopy5_39 s
  | .copy5_40 => Sys2Proof.Machine.execCopy5_40 s
  | .copy5_41 => Sys2Proof.Machine.execCopy5_41 s
  | .copy5_42 => Sys2Proof.Machine.execCopy5_42 s
  | .copy5_43 => Sys2Proof.Machine.execCopy5_43 s
  | .copy5_44 => Sys2Proof.Machine.execCopy5_44 s
  | .copy5_45 => Sys2Proof.Machine.execCopy5_45 s
  | .copy5_46 => Sys2Proof.Machine.execCopy5_46 s
  | .copy5_47 => Sys2Proof.Machine.execCopy5_47 s
  | .copy5_48 => Sys2Proof.Machine.execCopy5_48 s
  | .copy5_49 => Sys2Proof.Machine.execCopy5_49 s
  | .copy5_50 => Sys2Proof.Machine.execCopy5_50 s
  | .copy5_51 => Sys2Proof.Machine.execCopy5_51 s
  | .copy5_52 => Sys2Proof.Machine.execCopy5_52 s
  | .copy5_53 => Sys2Proof.Machine.execCopy5_53 s
  | .copy5_54 => Sys2Proof.Machine.execCopy5_54 s
  | .copy5_55 => Sys2Proof.Machine.execCopy5_55 s
  | .copy5_56 => Sys2Proof.Machine.execCopy5_56 s
  | .copy5_57 => Sys2Proof.Machine.execCopy5_57 s
  | .copy5_58 => Sys2Proof.Machine.execCopy5_58 s
  | .copy5_59 => Sys2Proof.Machine.execCopy5_59 s
  | .copy5_60 => Sys2Proof.Machine.execCopy5_60 s
  | .copy5_61 => Sys2Proof.Machine.execCopy5_61 s
  | .copy5_62 => Sys2Proof.Machine.execCopy5_62 s
  | .copy5_63 => Sys2Proof.Machine.execCopy5_63 s
  | .copy5_64 => Sys2Proof.Machine.execCopy5_64 s

end Sys2Proof.Machine
end

