-- ==== Sys2Proof/Machine/Flags.lean ====
section
/-!
DEFINITION. The block has no condition codes and no flag that an instruction sets or tests (R35). Its only flag-like
state is `STATUS` and `ERRCODE`; here are the numbers that the host reads for them.
-/

namespace Sys2Proof.Machine

/-- The value of `STATUS` (R42). -/
def Status.bits : Status → BitVec 2
  | .idle => 0
  | .busy => 1
  | .done => 2
  | .error => 3

/-- The numeric code of an error kind (R43, R160). -/
def ErrKind.bits : ErrKind → BitVec 2
  | .unexpectedEndOfStream => 1
  | .invalidHuffmanCode => 2
  | .invalidDistance => 3

/-- The value of `ERRCODE` (R43): 0 is `NONE`. -/
def errcodeBits : Option ErrKind → BitVec 2
  | none => 0
  | some e => e.bits

end Sys2Proof.Machine
end

