-- ==== Sys2Proof/Machine/HostPort.lean ====
section
/-!
DEFINITION. The host's side (R40 to R47): the command `START` (R152) and the transactions of the host-visible
registers and windows.
-/

namespace Sys2Proof.Machine

/-- The state at the start of a run (R48, R180): configuration and input length latched, cursor at zero, arena
`HUFF_INIT` of the instance, history and output empty, `ERRCODE = 0`, `STATUS = BUSY`. The ring's content is
unspecified: every cell reads as a free value. Working registers carry nothing and stay. -/
def State.started (hp : HuffParams) (s : State) : State :=
  { s with
    cursor := { s.cursor with pos := 0, bitbuf := 0, bitcnt := 0 }
    model := s.model.withArena (hp.init s.cfgRegs)
    hist := { s.hist with ring := [], count := 0, out := [] }
    status := .busy
    errcode := none
    outLen := 0
    cfg := s.cfgRegs
    runLen := s.inLen }

/-- `START` (R152): a run begins, or the invalid configuration is refused (R8). It is also the only way on after an error
(R167). -/
def startRun (hp : HuffParams) (s : State) : Host.Outcome State Fault Refusal :=
  if s.cfgRegs.valid then .next (s.started hp) else .refused .invalidConfiguration

/-- Writing `CTRL` (R41): bit 0 is `START`, ignored while `BUSY`; the other bits are reserved and ignored (U14). -/
def writeCtrl (hp : HuffParams) (v : Nat) (s : State) : Host.Outcome State Fault Refusal :=
  if v.testBit 0 ∧ s.status ≠ .busy then startRun hp s else .next s

/-- The configuration registers after a write of one of them (R46, log 20). A write of any other register changes none. -/
def writeCfg (reg : HostReg) (v : Nat) (c : Cfg) : Cfg :=
  match reg with
  | .cfgMaxchar => { c with maxChar := v }
  | .cfgMaxfreq => { c with maxFrequency := v }
  | .cfgTerm => { c with terminateCode := v }
  | .cfgFirst => { c with firstCode := v }
  | .cfgMincopy => { c with minCopy := v }
  | .cfgMaxcopy => { c with maxCopy := v }
  | .cfgCopymin r => { c with copyMin := c.copyMin.set r v }
  | .cfgCopymax r => { c with copyMax := c.copyMax.set r v }
  | .cfgCopybits r => { c with copyBits := c.copyBits.set r v }
  | .ctrl => c
  | .status => c
  | .errcode => c
  | .inLen => c
  | .outLen => c

/-- A host register write (R40, R41, R44, R46). `IN_LEN` and `CFG_*` are latched at `START`, so a write while `BUSY` does not
reach the run in progress (R47, log 9). A write of a read-only register is ignored (U14). -/
def hostWrite (hp : HuffParams) (reg : HostReg) (v : Nat) (s : State) : Host.Outcome State Fault Refusal :=
  match reg with
  | .ctrl => writeCtrl hp v s
  | .inLen => .next { s with inLen := v }
  | .status => .next s
  | .errcode => .next s
  | .outLen => .next s
  | reg => .next { s with cfgRegs := writeCfg reg v s.cfgRegs }

/-- A host register read (R40 to R47). `CTRL` reads 0 (R41). `ERRCODE` and `OUT_LEN` are unspecified while `BUSY` (R47): a
free value, which keeps the 2 bits of `ERRCODE`. -/
def hostRead (reg : HostReg) (s : State) : State :=
  match reg with
  | .ctrl => s.withHostData 0
  | .status => s.withHostData s.status.bits.toNat
  | .errcode =>
    if s.status = .busy then s.withFreeHostData (Config.freeNat .readErrcode s.freeCount % 4)
    else s.withHostData (errcodeBits s.errcode).toNat
  | .inLen => s.withHostData s.inLen
  | .outLen =>
    if s.status = .busy then s.withFreeHostData (Config.freeNat .readOutLen s.freeCount)
    else s.withHostData s.outLen
  | .cfgMaxchar => s.withHostData s.cfgRegs.maxChar
  | .cfgMaxfreq => s.withHostData s.cfgRegs.maxFrequency
  | .cfgTerm => s.withHostData s.cfgRegs.terminateCode
  | .cfgFirst => s.withHostData s.cfgRegs.firstCode
  | .cfgMincopy => s.withHostData s.cfgRegs.minCopy
  | .cfgMaxcopy => s.withHostData s.cfgRegs.maxCopy
  | .cfgCopymin r => s.withHostData (s.cfgRegs.copyMin.get r)
  | .cfgCopymax r => s.withHostData (s.cfgRegs.copyMax.get r)
  | .cfgCopybits r => s.withHostData (s.cfgRegs.copyBits.get r)

/-- A host write of one byte of the `IN` window: only while no run is in progress (R50, R186 (a), U12). -/
def hostWriteIn (index : Nat) (v : Byte) (s : State) : Host.Outcome State Fault Refusal :=
  if s.status = .busy then .refused .inputWrittenDuringRun
  else .next { s with inWin := Memory.write s.inWin index v }

/-- A host read of one byte of the `OUT` window (R45): byte `index` of the output when `STATUS = DONE`, a free value in
every other state and beyond `OUT_LEN` (log 5). -/
def hostReadOut (index : Nat) (s : State) : State :=
  match (if s.status = .done then s.hist.out[index]? else none) with
  | some v => s.withHostData v.toNat
  | none => s.withFreeHostData (Config.freeNat .readOut s.freeCount % 256)

/-- One host transaction. -/
def hostAccess (hp : HuffParams) (op : HostOp) (s : State) : Host.Outcome State Fault Refusal :=
  match op with
  | .write reg v => hostWrite hp reg v s
  | .read reg => .next (hostRead reg s)
  | .writeIn index v => hostWriteIn index v s
  | .readOut index => .next (hostReadOut index s)
  | .wait => .next s

end Sys2Proof.Machine
end

