-- ==== Sys2Proof/Machine/Step.lean ====
section
/-!
DEFINITION. One step: a transaction of the host, or one stream instruction of the engine (R10, R140). `stepWith` takes the
open parameters as its argument (R103); `step` is the machine with the default instance (log 1).
-/

namespace Sys2Proof.Machine

/-- Run a decoded instruction. A copy whose length has no row in the opcode table, which only a configuration other than
the default has, runs by the common rule R144 (log 10). -/
def runDecoded (d : Decoded) (s : State) : Host.Outcome State Fault Refusal :=
  match d with
  | .row i => exec i s
  | .offTable r length => runCopy r length s

/-- One pass of `RUN` (R140): fetch the symbol, dispatch it (R141), run it. -/
def runOne (hp : HuffParams) (s : State) : Host.Outcome State Fault Refusal :=
  match decodeSym hp s with
  | .ok sym s1 =>
    match decodeSymbol s1.cfg sym with
    | .ok d => runDecoded d s1
    | .error _ => .refused (.symbolOutsideAlphabet sym)
  | .raise e s1 => .next (abort e s1)
  | .refused r => .refused r

/-- The engine's move: one stream instruction while `BUSY`; between runs the block is idle and its state is held
(R171, log 18). -/
def engineStep (hp : HuffParams) (s : State) : Host.Outcome State Fault Refusal :=
  if s.status = .busy then runOne hp s else .next s

/-- One step of the machine with the given instance of the open parameters. The host's next transaction is taken first;
where the host waits or has none, the engine moves (log 7). -/
def stepWith (hp : HuffParams) (s : State) : Host.Outcome State Fault Refusal :=
  match s.hostQueue with
  | [] => engineStep hp s
  | .wait :: q => engineStep hp (s.withQueue q)
  | op :: q => hostAccess hp op (s.withQueue q)

/-- One step of the machine with the default instance (R103). -/
def step (s : State) : Host.Outcome State Fault Refusal := stepWith .default s

/-- The state with the instruction of a table word placed where the next step fetches. Outside a run, `START` is done first.
The word's instruction is assembled on the current tree, with `xbits` of zeros, into `IN` from byte 0, and the cursor
is set to its first bit (log 8). -/
def State.withFetchWord (s : State) (nbits w : Nat) : State :=
  let s0 := if s.status = .busy then s else s.started .default
  let sym := match decodeTableWord nbits w with
    | some i => encode s0.cfg i
    | none => w
  let bytes := packBytes (symbolCode s0.cfg s0.model sym ++ List.replicate codeW false)
  { s0 with
    cursor := { s0.cursor with pos := 0, bitbuf := 0, bitcnt := 0 }
    inWin := memoryFrom 0 bytes
    inLen := bytes.length
    runLen := bytes.length
    hostQueue := [] }

end Sys2Proof.Machine
end

