-- ==== Sys2Proof/Safety.lean ====
section
/-!
DEFINITION. The terms in which claims about a run are stated: the input as a sequence of bits, the well-formedness of
the cursor, of the tree and of the ring, what R103 requires of an instance of the open parameters, the invariant of the
machine, and what the host sees.
-/

namespace Sys2Proof

/-- A leaf index (R26). -/
def Cfg.IsLeaf (cfg : Cfg) (n : Nat) : Prop := cfg.successMax ≤ n ∧ n ≤ cfg.twiceMax

end Sys2Proof

namespace Sys2Proof.Machine

/-! ### The input as a sequence of bits -/

/-- Bit `p` of the stream (R22, R54): bit `7 − (p mod 8)` of `IN[p div 8]`. -/
def inputBit (inp : Memory) (p : Nat) : Bool := (inputByte inp (p / 8)).getLsbD (7 - p % 8)

/-- The `n` bits of the stream from position `p` on. -/
def streamBits (inp : Memory) (p n : Nat) : List Bool := (List.range n).map fun k => inputBit inp (p + k)

/-- The cursor between operations (R21, R23, R91): at most 7 bits buffered, `bitbuf` the last byte pulled with its
consumed bits shifted out, never past the end of the input. -/
structure BitCursor.Wf (inp : Memory) (len : Nat) (c : BitCursor) : Prop where
  bitcnt_le : c.bitcnt ≤ 7
  pos_le : c.pos ≤ len
  empty : c.bitcnt = 0 → c.bitbuf = 0
  buffered : c.bitcnt ≠ 0 →
    0 < c.pos ∧ c.bitbuf = inputByte inp (c.pos - 1) <<< (8 - c.bitcnt)

/-- R93: the value that an extra-bits field denotes: 0 when the first bit is 0, and `2^k − 1` when it is 1, `k` the number
of 1 bits. -/
def extraOf (bits : List Bool) : Nat :=
  match bits with
  | true :: _ => 2 ^ bits.count true - 1
  | _ => 0

/-! ### The tree -/

/-- The node that the branch bits lead to from node `n` (R71, R100); a leaf has no children. -/
def HuffmanModel.descend (m : HuffmanModel) (cfg : Cfg) (path : List Bool) (n : Nat) : Nat :=
  path.foldl (fun k bit => if k ≤ cfg.maxChar then m.childOf bit k else NIL) n

/-- R27 (a) to (d), over the nodes `1..twiceMax` (R25): the root has no parent; every child link has its `up` link, so a
node is the child of one node only; every node is below the root; every leaf, so every symbol, is reached from the root
by child links. -/
structure WellFormedTree (cfg : Cfg) (m : HuffmanModel) : Prop where
  root : m.upOf ROOT = NIL
  children : ∀ n ≤ cfg.maxChar, 1 ≤ n → ∀ bit : Bool, m.childOf bit n ≠ NIL →
    m.childOf bit n ≤ cfg.twiceMax ∧ m.upOf (m.childOf bit n) = n
  reaches : ∀ c ≤ cfg.twiceMax, 1 ≤ c → ∃ k, m.upOf^[k] c = ROOT
  leaves : ∀ l, cfg.IsLeaf l → ∃ path, m.descend cfg path ROOT = l

/-- R27 (a) to (e): the arena is a full binary tree over the nodes `1..twiceMax` (R25), internal nodes `1..maxChar`, all
reachable from `ROOT` by following `up` backwards, and every cell exists. -/
structure FullTree (cfg : Cfg) (m : HuffmanModel) : Prop where
  weights : ∀ n ≤ cfg.twiceMax, 1 ≤ n → (m.weight.get n).isSome
  root : m.upOf ROOT = NIL
  children : ∀ n ≤ cfg.maxChar, 1 ≤ n → ∀ bit : Bool,
    ROOT < m.childOf bit n ∧ m.childOf bit n ≤ cfg.twiceMax ∧ m.upOf (m.childOf bit n) = n
  distinct : ∀ n ≤ cfg.maxChar, 1 ≤ n → m.leftOf n ≠ m.rightOf n
  parents : ∀ c ≤ cfg.twiceMax, ROOT < c →
    1 ≤ m.upOf c ∧ m.upOf c ≤ cfg.maxChar ∧ (m.leftOf (m.upOf c) = c ∨ m.rightOf (m.upOf c) = c)
  reaches : ∀ c ≤ cfg.twiceMax, 1 ≤ c → ∃ k, m.upOf^[k] c = ROOT

/-- R116 (a): every weight is at least 1. -/
def PositiveWeights (cfg : Cfg) (m : HuffmanModel) : Prop := ∀ n ≤ cfg.twiceMax, 1 ≤ n → 1 ≤ m.weightOf n

/-- R116 (c): every leaf weighs at most `maxFrequency − 1`. -/
def LeavesBelowCeiling (cfg : Cfg) (m : HuffmanModel) : Prop :=
  ∀ n ≤ cfg.twiceMax, cfg.successMax ≤ n → m.weightOf n < cfg.maxFrequency

/-- R111: every proper ancestor of node `x` weighs the sum of its two children. -/
def HuffmanModel.SummedAbove (m : HuffmanModel) (x : Nat) : Prop :=
  ∀ k, ROOT < m.upOf^[k] x →
    m.weightOf (m.upOf^[k + 1] x)
      = m.weightOf (m.leftOf (m.upOf^[k + 1] x)) + m.weightOf (m.rightOf (m.upOf^[k + 1] x))

/-- The trees of the default instance (R27, R115, R116 (a), (c)). -/
structure DefaultTree (cfg : Cfg) (m : HuffmanModel) : Prop where
  full : FullTree cfg m
  positive : PositiveWeights cfg m
  below : LeavesBelowCeiling cfg m

/-! ### The open parameters -/

/-- A weight after one or more rescales (R102, U3: "approximately halve every node's weight (minimum 1)"): at least 1, and at
most one above half of what it was. -/
def Rescaled (w w' : Nat) : Prop := 1 ≤ w' ∧ w' ≤ w / 2 + 1

/-- What R103 requires of an instance, for the rest of the spec to hold; `Good` are the arenas that the instance keeps.
(i) `UPDATE` is a function of the configuration, the arena and the leaf, and always has a result. (ii) Every arena of a
run is well formed by R27 (a) to (d). (iii), that no node index changes its symbol, needs no clause: the leaf of symbol
`s` is node `s + successMax` whatever the arena holds (R26). (iv) The leaf's weight is one more, before any rescale. -/
structure HuffParams.Lawful (hp : HuffParams) (Good : Cfg → HuffmanModel → Prop) : Prop where
  arenaOnly : ∀ cfg a (m1 m2 : HuffmanModel), m1.toArena = m2.toArena →
    (hp.update cfg a m1).map HuffmanModel.toArena = (hp.update cfg a m2).map HuffmanModel.toArena
  goodArena : ∀ cfg (m1 m2 : HuffmanModel), m1.toArena = m2.toArena → Good cfg m1 → Good cfg m2
  wellFormed : ∀ cfg m, cfg.valid = true → Good cfg m → WellFormedTree cfg m
  init : ∀ cfg (m : HuffmanModel), cfg.valid = true → Good cfg (m.withArena (hp.init cfg))
  update : ∀ cfg a m, cfg.valid = true → Good cfg m → cfg.IsLeaf a → ∃ m', hp.update cfg a m = some m' ∧ Good cfg m'
  counts : ∀ cfg a m m', cfg.valid = true → Good cfg m → cfg.IsLeaf a → hp.update cfg a m = some m' →
    m'.weightOf a = m.weightOf a + 1 ∨ Rescaled (m.weightOf a + 1) (m'.weightOf a)

/-! ### The ring -/

/-- R33 and R53: `count` is the length of `OUT`, and the ring holds the trailing `size` bytes of `OUT`. -/
structure HistoryRing.Wf (size : Nat) (h : HistoryRing) : Prop where
  count_eq : h.count = h.out.length
  window : ∀ k < h.count, h.count ≤ k + size → Memory.read h.ring (k % size) = h.out[k]?

/-! ### The machine -/

/-- What holds while a run is in progress, between instructions, with an instance that keeps the arenas `Good`. -/
structure RunInv (Good : Cfg → HuffmanModel → Prop) (s : State) : Prop where
  cfg_valid : s.cfg.valid = true
  cursor : s.cursor.Wf s.inWin s.runLen
  tree : Good s.cfg s.model
  ring : s.hist.Wf s.cfg.historySize

/-- The invariant of the machine with an instance that keeps the arenas `Good`: both memories are in canonical form; a run
in progress is well formed; `ERRCODE` is 0 exactly when `STATUS ≠ ERROR` (R43); `OUT_LEN` is as R45 says. -/
structure MachineInvFor (Good : Cfg → HuffmanModel → Prop) (s : State) : Prop where
  inWin_wf : Memory.wf s.inWin
  ring_wf : Memory.wf s.hist.ring
  run : s.status = .busy → RunInv Good s
  errcode : s.errcode = none ↔ s.status ≠ .error
  outLen_done : s.status = .done → s.outLen = s.hist.out.length
  outLen_zero : s.status = .idle ∨ s.status = .error → s.outLen = 0

/-- The invariant of the machine with the default instance. -/
abbrev MachineInv (s : State) : Prop := MachineInvFor DefaultTree s

/-- What the host can rely on when it reads the result of a run (R45, R47, R172): `STATUS`; when it is not `BUSY`, `ERRCODE` and
`OUT_LEN`; when it is `DONE`, the bytes of `OUT`. -/
def State.hostView (s : State) : Status × Option (Option ErrKind × Nat) × Option (List Byte) :=
  (s.status,
   if s.status = .busy then none else some (s.errcode, s.outLen),
   if s.status = .done then some s.hist.out else none)

/-- `k` steps of the machine with the given instance, stopping at the first refusal. -/
def runSteps (hp : HuffParams) : Nat → State → Host.Outcome State Fault Refusal
  | 0, s => .next s
  | k + 1, s =>
    match stepWith hp s with
    | .next t => runSteps hp k t
    | .fault f => .fault f
    | .refused r => .refused r

/-- Two outcomes that the host cannot tell apart: next states with the same host view, or the same stop. -/
def SameForHost (x y : Host.Outcome State Fault Refusal) : Prop :=
  match x, y with
  | .next s, .next t => s.hostView = t.hostView
  | .fault f, .fault g => f = g
  | .refused r, .refused q => r = q
  | _, _ => False

/-- The error of a run, taken (R164, R172): what the host sees, and the parts of the state that no run touches. -/
structure ErrorTaken (e : ErrKind) (s t : State) : Prop where
  status : t.status = .error
  errcode : t.errcode = some e
  outLen : t.outLen = 0
  inWin : t.inWin = s.inWin
  inLen : t.inLen = s.inLen
  cfgRegs : t.cfgRegs = s.cfgRegs
  cfg : t.cfg = s.cfg
  runLen : t.runLen = s.runLen
  hostQueue : t.hostQueue = s.hostQueue
  hostData : t.hostData = s.hostData

/-- The value of the extra-bits field of a copy at the cursor (R74). -/
def State.extraAt (s : State) (r : CopyRange) : Nat :=
  extraOf (streamBits s.inWin s.cursor.bitPos (s.cfg.copyBits.get r))

/-- The distance of a copy at the cursor (R75). -/
def State.distanceAt (s : State) (r : CopyRange) (length : Nat) : Nat := distanceOf s.cfg r length (s.extraAt r)

/-- The run of the machine is over, with success or with an error (R14). -/
def State.finished (s : State) : Prop := s.status = .done ∨ s.status = .error

end Sys2Proof.Machine
end

