-- ==== Sys2Proof/Certificates/Slice0/Obligations.lean ====
section
/-!
DEFINITION. The statements for the provers. `HUFF_INIT` and `HUFF_UPDATE` are arguments of the machine (R103): a statement
over every `hp : HuffParams`, or over every lawful one, holds for every instance of them. Statements about `huffInit`,
`update`, `step` or `HuffParams.default` are about the spec's default instance (log 1).
-/

open Sys2Proof Sys2Proof.Machine

/-! ### Encoding -/

/-- R72, R73: decoding the symbol of an instruction gives the instruction back, for every row of the table and under every
valid configuration in which the row can be expressed. -/
def Obligations.DecodeOfEncodeIsTheRow : Prop :=
  ∀ (c : Cfg) (i : Instr), c.valid = true → i.wf c = true → decodeSymbol c (encode c i) = .ok (.row i)

/-- R141, R73: under a valid configuration every symbol of the alphabet falls in exactly one case: `TERM` at `terminateCode`,
a literal below it, a copy above it, of range `(sym − firstCode) div codesPerRange`. Its operands are in range, and it is
the symbol of that instruction. -/
def Obligations.EverySymbolIsAnInstruction : Prop :=
  ∀ (c : Cfg) (sym : Nat), c.valid = true → sym ≤ c.maxChar →
    ∃ op, dispatchSymbol c sym = .ok op ∧ op.wf c = true ∧ op.symbol c = sym ∧
      match op with
      | .term => sym = c.terminateCode
      | .lit b => sym < c.terminateCode ∧ b.toNat = sym
      | .copy r _ => c.terminateCode < sym ∧ r.index = (sym - c.firstCode) / c.codesPerRange

/-- R72: the opcode map of the default configuration, range by range. -/
def Obligations.DefaultOpcodeMap : Prop :=
  ∀ sym ≤ 628, dispatchSymbol Cfg.default sym = .ok
    (if sym < 256 then .lit (BitVec.ofNat 8 sym)
     else if sym = 256 then .term
     else if sym ≤ 318 then .copy .r0 (sym - 254)
     else if sym ≤ 380 then .copy .r1 (sym - 316)
     else if sym ≤ 442 then .copy .r2 (sym - 378)
     else if sym ≤ 504 then .copy .r3 (sym - 440)
     else if sym ≤ 566 then .copy .r4 (sym - 502)
     else .copy .r5 (sym - 564))

/-- R79: a number above `maxChar` is no symbol. -/
def Obligations.SymbolsAboveAlphabetAreRejected : Prop :=
  ∀ (c : Cfg) (sym : Nat), c.valid = true → c.maxChar < sym → dispatchSymbol c sym = .error .aboveMaxChar

/-- R79: words of the opcode table, one for each family, written out as 10-bit symbols. -/
def Obligations.TableWordsDecode : Prop :=
  decodeTableWord 16 0b0001000001 = some (.lit 0x41) ∧ decodeTableWord 16 0b0100000000 = some .term ∧
  decodeTableWord 16 0b0100000001 = some .copy0_3 ∧ decodeTableWord 16 0b0100111111 = some .copy1_3 ∧
  decodeTableWord 16 0b0101111101 = some .copy2_3 ∧ decodeTableWord 16 0b0110111011 = some .copy3_3 ∧
  decodeTableWord 16 0b0111111001 = some .copy4_3 ∧ decodeTableWord 16 0b1001110100 = some .copy5_64 ∧
  decodeTableWord 16 0b1001110101 = none

/-- R105, on the model's initial tree (log 1): the initial code of a symbol is the binary numeral of its leaf index
without the leading 1, most significant bit first. -/
def Obligations.InitialCodesAreNumerals : Prop :=
  ∀ (c : Cfg) (m : HuffmanModel) (sym : Nat), c.valid = true → sym ≤ c.maxChar →
    symbolCode c (huffInit c m) sym = (Nat.bits (sym + c.successMax)).dropLast.reverse

/-- R71, R100: with every lawful instance, where the stream holds the code that the current tree gives a symbol, the fetch
reads that symbol and stands just behind its code. The arena is one that the instance keeps, and no more is asked of
its tree than R27 (a) to (d). -/
def Obligations.FetchReadsTheAssembledSymbol : Prop :=
  ∀ (hp : HuffParams) (Good : Cfg → HuffmanModel → Prop) (s : State) (sym : Nat), hp.Lawful Good → s.cfg.valid = true →
    Good s.cfg s.model → s.cursor.Wf s.inWin s.runLen → sym ≤ s.cfg.maxChar →
    (symbolCode s.cfg s.model sym).length ≤ s.cursor.bitsLeft s.runLen →
    streamBits s.inWin s.cursor.bitPos (symbolCode s.cfg s.model sym).length = symbolCode s.cfg s.model sym →
    ∃ t, decodeSym hp s = .ok sym t ∧
      t.cursor.bitPos = s.cursor.bitPos + (symbolCode s.cfg s.model sym).length ∧ t.cursor.Wf s.inWin s.runLen

/-- R70, R78, R140: with every lawful instance, where the stream holds the assembled code of an instruction, a step of the
engine runs exactly that instruction, with the cursor behind the code, at the first extra bit. -/
def Obligations.StepRunsTheAssembledInstruction : Prop :=
  ∀ (hp : HuffParams) (Good : Cfg → HuffmanModel → Prop) (s : State) (i : Instr), hp.Lawful Good → s.status = .busy →
    s.hostQueue = [] → s.cfg.valid = true → i.wf s.cfg = true → Good s.cfg s.model → s.cursor.Wf s.inWin s.runLen →
    (assemble s.cfg s.model i []).length ≤ s.cursor.bitsLeft s.runLen →
    streamBits s.inWin s.cursor.bitPos (assemble s.cfg s.model i []).length = assemble s.cfg s.model i [] →
    ∃ t, decodeSym hp s = .ok (encode s.cfg i) t ∧ stepWith hp s = exec i t ∧
      t.cursor.bitPos = s.cursor.bitPos + (assemble s.cfg s.model i []).length

/-! ### Bit cursor -/

/-- R90, R91: `NEXTBIT` delivers bit `P` of the stream and moves to `P + 1`; at the end of the input it raises and leaves
the cursor as it was. -/
def Obligations.NextBitDeliversStreamBit : Prop :=
  ∀ (inp : Memory) (len : Nat) (c : BitCursor), c.Wf inp len →
    (c.bitPos < 8 * len → ∃ c', nextBit inp len c = .ok (inputBit inp c.bitPos) c' ∧
      c'.bitPos = c.bitPos + 1 ∧ c'.Wf inp len ∧ c'.code = c.code ∧ c'.mask = c.mask) ∧
    (8 * len ≤ c.bitPos → nextBit inp len c = .raise .unexpectedEndOfStream c)

/-- R93: `NEXTCODE(n)` is 0 when `n = 0` or the first bit is 0, and `2^k − 1` when the first bit is 1 and `k` of the `n` bits
are 1; it consumes exactly `n` bits. -/
def Obligations.NextCodeClosedForm : Prop :=
  ∀ (inp : Memory) (len n : Nat) (c : BitCursor), c.Wf inp len → n ≤ codeW → n ≤ c.bitsLeft len →
    ∃ v c', nextCode inp len n c = .ok v c' ∧ c'.bitPos = c.bitPos + n ∧ c'.Wf inp len ∧
      (n = 0 → v = 0) ∧
      (1 ≤ n → v = if inputBit inp c.bitPos then 2 ^ (streamBits inp c.bitPos n).count true - 1 else 0)

/-- R24, R94 (c): what the registers of `NEXTCODE` hold when it completes. -/
def Obligations.NextCodeRegisters : Prop :=
  ∀ (inp : Memory) (len n v : Nat) (c c' : BitCursor), nextCode inp len n c = .ok v c' →
    v < 2 ^ n ∧ c'.code = v ∧ (1 ≤ n → c'.mask = 2 * v)

/-- R92, R94 (e): when fewer bits are left than `NEXTCODE` needs, it raises `UnexpectedEndOfStream` after consuming all of
them. -/
def Obligations.NextCodeEndOfStream : Prop :=
  ∀ (inp : Memory) (len n : Nat) (c : BitCursor), c.Wf inp len → n ≤ codeW → c.bitsLeft len < n →
    ∃ c', nextCode inp len n c = .raise .unexpectedEndOfStream c' ∧ c'.pos = len ∧ c'.bitcnt = 0 ∧ c'.Wf inp len

/-! ### Huffman model (where no instance `hp` is named: the default `HUFF_INIT` and `HUFF_UPDATE`, log 1) -/

/-- R104: the cells of the initial tree. -/
def Obligations.InitialTreeCells : Prop :=
  ∀ (c : Cfg) (m : HuffmanModel),
    (∀ n ≤ c.maxChar, 1 ≤ n → (huffInit c m).leftOf n = 2 * n ∧ (huffInit c m).rightOf n = 2 * n + 1) ∧
    (huffInit c m).upOf ROOT = NIL ∧
    (∀ n ≤ c.twiceMax, 2 ≤ n → (huffInit c m).upOf n = n / 2) ∧
    (∀ n ≤ c.twiceMax, 1 ≤ n → (huffInit c m).weight.get n = some 1)

/-- R103 (ii), R115, R116: the initial tree is full, every weight is at least 1, every leaf is below the ceiling. -/
def Obligations.InitialTreeIsFull : Prop :=
  ∀ (c : Cfg) (m : HuffmanModel), c.valid = true →
    FullTree c (huffInit c m) ∧ PositiveWeights c (huffInit c m) ∧ LeavesBelowCeiling c (huffInit c m)

/-- R111: after `PROPAGATE(x)` every proper ancestor of `x` weighs the sum of its two children; every other weight, every
link, and every working register but `x` and `p` is as before, and `x` is `ROOT`. -/
def Obligations.PropagateSumsTheAncestors : Prop :=
  ∀ (c : Cfg) (m : HuffmanModel) (x : Nat), c.valid = true → FullTree c m → 1 ≤ x → x ≤ c.twiceMax →
    ∃ m', propagate c x m = some m' ∧ m'.left = m.left ∧ m'.right = m.right ∧ m'.up = m.up ∧
      m'.x = ROOT ∧ m'.a = m.a ∧ m'.b = m.b ∧ m'.ua = m.ua ∧ m'.uua = m.uua ∧ m'.nxt = m.nxt ∧ m'.n = m.n ∧
      m'.SummedAbove x ∧ ∀ n, (∀ k, m.upOf^[k + 1] x ≠ n) → m'.weight.get n = m.weight.get n

/-- R112, R71: a node strictly heavier than its uncle takes the uncle's place, in the uncle's slot (left or right) under
`uua`, and the uncle takes its place, in its slot under `ua`; no other node's parent and no other child link changes. The
weights are then propagated from the uncle: in the new tree every proper ancestor of it weighs the sum of its two
children, and every other weight cell is as before. At equal or smaller weight nothing changes. `PROMOTE(a)` makes
this pass and goes on from the old `ua`, until that is a child of the root; it makes no pass for a child of the root. -/
def Obligations.ExchangeSwapsNodeAndUncle : Prop :=
  (∀ (c : Cfg) (m : HuffmanModel), c.valid = true → FullTree c m → ROOT < m.a → m.a ≤ c.twiceMax →
    m.ua = m.upOf m.a → m.ua ≠ ROOT → m.uua = m.upOf m.ua → m.b = m.uncle →
    (m.weightOf m.a ≤ m.weightOf m.b → exchangeIfHeavier c m = some m) ∧
    (m.weightOf m.b < m.weightOf m.a → ∃ m', exchangeIfHeavier c m = some m' ∧ FullTree c m' ∧ m'.a = m.b ∧
      m'.b = m.b ∧ m'.ua = m.ua ∧ m'.uua = m.uua ∧ m'.nxt = m.nxt ∧ m'.n = m.n ∧
      m'.SummedAbove m.b ∧ (∀ n, (∀ k, m'.upOf^[k + 1] m.b ≠ n) → m'.weight.get n = m.weight.get n) ∧
      m'.upOf m.a = m.uua ∧ m'.upOf m.b = m.ua ∧ (∀ k, k ≠ m.a → k ≠ m.b → m'.upOf k = m.upOf k) ∧
      (∀ bit, m.childOf bit m.uua = m.b → m'.childOf bit m.uua = m.a) ∧
      (∀ bit, m.childOf bit m.ua = m.a → m'.childOf bit m.ua = m.b) ∧
      ∀ bit n, ¬ (n = m.uua ∧ m.childOf bit n = m.b) → ¬ (n = m.ua ∧ m.childOf bit n = m.a) →
        m'.childOf bit n = m.childOf bit n) ∧
    ∃ m1, exchangeIfHeavier c m = some m1 ∧
      promote c m.a m = if m.uua = ROOT then some (climb m1) else promote c m.ua (climb m1)) ∧
  ∀ (c : Cfg) (m : HuffmanModel) (a : Nat), m.upOf a = ROOT → promote c a m = some { m with a := a }

/-- R113: when the root has reached `maxFrequency`, `RESCALE` halves the weight of every node, rounding down, with a floor
of 1; otherwise it changes nothing. The links stay. -/
def Obligations.RescaleHalvesEveryWeight : Prop :=
  ∀ (c : Cfg) (m : HuffmanModel),
    (c.maxFrequency ≤ m.weightOf ROOT →
      (∀ n w, m.weight.get n = some w → (rescale c m).weight.get n = some (max 1 (w / 2))) ∧
      (rescale c m).left = m.left ∧ (rescale c m).right = m.right ∧ (rescale c m).up = m.up) ∧
    (m.weightOf ROOT < c.maxFrequency → rescale c m = m)

/-- R115, R114: `UPDATE` of a leaf of a full tree completes, and the tree stays full. -/
def Obligations.UpdateKeepsTheTreeFull : Prop :=
  ∀ (c : Cfg) (m : HuffmanModel) (a : Nat), c.valid = true → FullTree c m → c.IsLeaf a →
    ∃ m', update c a m = some m' ∧ FullTree c m'

/-- R103 (iv), R110, R113: `UPDATE(a)` is its four steps in order. It adds one to the weight of leaf `a` and to no other
leaf. When the root is then still below `maxFrequency`, that is all for the leaves; when the root has reached it, the
root and every leaf are halved, once. -/
def Obligations.UpdateCountsItsLeaf : Prop :=
  ∀ (c : Cfg) (m m' : HuffmanModel) (a : Nat), c.valid = true → FullTree c m → c.IsLeaf a →
    update c a m = some m' →
    ∃ m1 m2, propagate c a (m.setWeight a (m.weightOf a + 1)) = some m1 ∧ promote c a m1 = some m2 ∧
      m' = rescale c m2 ∧
      (m2.weightOf ROOT < c.maxFrequency ∧ m'.weightOf ROOT < c.maxFrequency ∧
          (∀ l, c.IsLeaf l → m'.weightOf l = if l = a then m.weightOf l + 1 else m.weightOf l) ∨
        c.maxFrequency ≤ m2.weightOf ROOT ∧ m'.weightOf ROOT = halve (m2.weightOf ROOT) ∧
          c.maxFrequency ≤ 2 * m'.weightOf ROOT + 1 ∧
          (∀ l, c.IsLeaf l → m'.weightOf l = halve (if l = a then m.weightOf l + 1 else m.weightOf l)))

/-- R116 (a): `UPDATE` keeps every weight at least 1. -/
def Obligations.UpdateKeepsWeightsPositive : Prop :=
  ∀ (c : Cfg) (m m' : HuffmanModel) (a : Nat), c.valid = true → FullTree c m → PositiveWeights c m → c.IsLeaf a →
    update c a m = some m' → PositiveWeights c m'

/-- R116 (b), (c): `UPDATE` keeps every leaf below `maxFrequency`. -/
def Obligations.UpdateKeepsLeavesBelowCeiling : Prop :=
  ∀ (c : Cfg) (m m' : HuffmanModel) (a : Nat), c.valid = true → FullTree c m → LeavesBelowCeiling c m → c.IsLeaf a →
    update c a m = some m' → LeavesBelowCeiling c m'

/-- R117: on a full tree `DECODESYM` never raises `InvalidHuffmanCode`, whatever the instance. -/
def Obligations.FullTreeHasNoInvalidCode : Prop :=
  ∀ (hp : HuffParams) (s t : State), s.cfg.valid = true → FullTree s.cfg s.model → decodeSym hp s ≠ .raise .invalidHuffmanCode t

/-- R100, R162, R166 (1): at an internal node without the child that the bit selects, the bit is read first and then
`InvalidHuffmanCode` is raised, so with no input left the error is `UnexpectedEndOfStream`; at the root the raise is
`DECODESYM`'s, before any `UPDATE`. -/
def Obligations.MissingChildRaises : Prop :=
  (∀ (cfg : Cfg) (inp : Memory) (len fuel : Nat) (m : HuffmanModel) (c : BitCursor), m.a < cfg.successMax →
    (∀ bit c', nextBit inp len c = .ok bit c' → m.childOf bit m.a = NIL →
      walk cfg inp len (fuel + 1) m c = .raise .invalidHuffmanCode ({ m with nxt := NIL }, c')) ∧
    (c.bitsLeft len = 0 → walk cfg inp len (fuel + 1) m c = .raise .unexpectedEndOfStream (m, c))) ∧
  ∀ (hp : HuffParams) (s : State), s.cfg.valid = true →
    (∀ bit c, nextBit s.inWin s.runLen s.cursor = .ok bit c → s.model.childOf bit ROOT = NIL →
      ∃ t, decodeSym hp s = .raise .invalidHuffmanCode t ∧ t.cursor = c ∧ t.hist = s.hist) ∧
    (s.cursor.bitsLeft s.runLen = 0 →
      ∃ t, decodeSym hp s = .raise .unexpectedEndOfStream t ∧ t.cursor = s.cursor)

/-- R100, R101, R76, with the default `HUFF_UPDATE` (log 1): on a full tree a fetch either ends the stream or answers a
symbol of the alphabet, having consumed at least one bit, with the tree updated and full; it changes nothing but the
cursor, the arena part and `sym`. -/
def Obligations.FetchOnAFullTree : Prop :=
  ∀ (s : State), s.cfg.valid = true → FullTree s.cfg s.model → s.cursor.Wf s.inWin s.runLen →
    (∃ t, decodeSym .default s = .raise .unexpectedEndOfStream t) ∨
    ∃ sym t, decodeSym .default s = .ok sym t ∧ sym ≤ s.cfg.maxChar ∧ FullTree s.cfg t.model ∧
      t.cursor.Wf s.inWin s.runLen ∧ t.cursor.bitsLeft s.runLen < s.cursor.bitsLeft s.runLen ∧
      t = { s with cursor := t.cursor, model := t.model, dec := { s.dec with sym := sym } }

/-! ### History ring -/

/-- R130: `APPENDLIT` appends the byte to `OUT`, writes it to cell `count mod size` and to no other, and adds one to
`count`. -/
def Obligations.AppendLitWritesBothViews : Prop :=
  ∀ (size : Nat) (v : Byte) (h : HistoryRing),
    (appendLit size v h).out = h.out ++ [v] ∧ (appendLit size v h).count = h.count + 1 ∧
    Memory.read (appendLit size v h).ring (h.count % size) = some v ∧
    (∀ a, a ≠ h.count % size → Memory.read (appendLit size v h).ring a = Memory.read h.ring a) ∧
    (appendLit size v h).rd = h.rd ∧ (appendLit size v h).i = h.i

/-- R133: `APPLYCOPY` raises `InvalidDistance` exactly when the distance exceeds `count`, before anything moves, whatever
the length; a distance equal to `count` is legal. Of the cells that a legal copy loads, those it does not write itself
were written before it. -/
def Obligations.InvalidDistanceExactly : Prop :=
  ∀ (size length distance : Nat) (h : HistoryRing), 1 ≤ distance → distance ≤ size → h.Wf size →
    (h.count < distance → applyCopy size length distance h = .raise .invalidDistance h) ∧
    (distance ≤ h.count → (∃ h', applyCopy size length distance h = .ok () h') ∧
      ∀ k < distance, (Memory.read h.ring ((h.count - distance + k) % size)).isSome)

/-- R131, R132, R135: a legal copy appends `length` bytes, each equal to the byte `distance` before it, in ascending order,
so that an overlapping copy repeats; `OUT` and the ring stay two views of one stream, and the cells outside the
`length` cells from `count mod size` on stay. -/
def Obligations.CopyRepeatsTheHistory : Prop :=
  ∀ (size length distance : Nat) (h : HistoryRing), 1 ≤ distance → distance ≤ size → distance ≤ h.count → h.Wf size →
    ∃ h', applyCopy size length distance h = .ok () h' ∧ h'.count = h.count + length ∧ h.out <+: h'.out ∧
      (∀ k < length, h'.out[h.count + k]? = h'.out[h.count + k - distance]?) ∧ h'.Wf size ∧
      ∀ a, (∀ k < length, a ≠ (h.count + k) % size) → Memory.read h'.ring a = Memory.read h.ring a

/-- R132: a copy with distance 1 repeats the last byte `length` times. -/
def Obligations.DistanceOneRepeatsLastByte : Prop :=
  ∀ (size length : Nat) (h : HistoryRing) (v : Byte), 1 ≤ size → h.Wf size → h.out.getLast? = some v →
    ∃ h', applyCopy size length 1 h = .ok () h' ∧ h'.out = h.out ++ List.replicate length v

/-- R134: outside distances `1..size` the copy has no meaning and is refused, whatever else holds. -/
def Obligations.CopyOutsideItsDomainIsRefused : Prop :=
  ∀ (size length distance : Nat) (h : HistoryRing),
    applyCopy size length distance h = .refused (.copyOutsideDomain distance) ↔ distance = 0 ∨ size < distance

/-! ### Instructions -/

/-- R142: the symbol of `LIT b` is `b`. `LIT b` completes in every state: the byte goes to `OUT` and to cell `count mod
historySize`, `count` grows by one, and nothing else changes. -/
def Obligations.LitAppendsItsByte : Prop :=
  ∀ (b : Byte) (s : State), encode s.cfg (.lit b) = b.toNat ∧
    ∃ t, exec (.lit b) s = .next t ∧ t.hist.out = s.hist.out ++ [b] ∧ t.hist.count = s.hist.count + 1 ∧
      Memory.read t.hist.ring (s.hist.count % s.cfg.historySize) = some b ∧
      (∀ a, a ≠ s.hist.count % s.cfg.historySize → Memory.read t.hist.ring a = Memory.read s.hist.ring a) ∧
      t.hist.rd = s.hist.rd ∧ t.hist.i = s.hist.i ∧ t = { s with hist := t.hist }

/-- R143: `TERM` is symbol 256 by default and completes in every state: `STATUS <- DONE`, `OUT_LEN <- count`, and nothing else
changes. Nothing more is read from the input: the engine's next move leaves `STATUS` and the cursor. -/
def Obligations.TermEndsTheRun : Prop :=
  encode Cfg.default .term = 256 ∧
  ∀ (hp : HuffParams) (s : State), exec .term s = .next { s with status := .done, outLen := s.hist.count } ∧
    ∃ t, engineStep hp { s with status := .done, outLen := s.hist.count } = .next t ∧ t.status = .done ∧
      t.cursor = s.cursor

/-- R144 (R145 to R150), R74, R75: every copy row completes when its extra bits are there and its distance is legal. It
consumes its extra bits, appends `length` bytes, each the byte `distance` before it, writes the `length` ring cells from
`count mod historySize` on, sets the working registers, and changes nothing else. -/
def Obligations.CopyRowsComplete : Prop :=
  ∀ (i : Instr) (r : CopyRange) (len : Nat) (s : State), i.toOp = .copy r len →
    s.cfg.valid = true → i.wf s.cfg = true → s.cursor.Wf s.inWin s.runLen → s.hist.Wf s.cfg.historySize →
    s.cfg.copyBits.get r ≤ s.cursor.bitsLeft s.runLen → s.distanceAt r len ≤ s.hist.count →
    ∃ t, exec i s = .next t ∧ t = { s with cursor := t.cursor, hist := t.hist, dec := t.dec } ∧
      t.cursor.bitPos = s.cursor.bitPos + s.cfg.copyBits.get r ∧ t.cursor.Wf s.inWin s.runLen ∧
      t.cursor.code = s.extraAt r ∧
      t.dec = { sym := s.dec.sym, r := r.index, length := len, extra := s.extraAt r, distance := s.distanceAt r len } ∧
      t.hist.count = s.hist.count + len ∧ s.hist.out <+: t.hist.out ∧
      (∀ k < len, t.hist.out[s.hist.count + k]? = t.hist.out[s.hist.count + k - s.distanceAt r len]?) ∧
      t.hist.Wf s.cfg.historySize ∧
      ∀ a, (∀ k < len, a ≠ (s.hist.count + k) % s.cfg.historySize) →
        Memory.read t.hist.ring a = Memory.read s.hist.ring a

/-- R144, R163, R164: a copy row whose distance exceeds `count` takes `InvalidDistance`. -/
def Obligations.CopyTooFarTakesInvalidDistance : Prop :=
  ∀ (i : Instr) (r : CopyRange) (len : Nat) (s : State), i.toOp = .copy r len →
    s.cfg.valid = true → i.wf s.cfg = true → s.cursor.Wf s.inWin s.runLen →
    s.cfg.copyBits.get r ≤ s.cursor.bitsLeft s.runLen → s.hist.count < s.distanceAt r len →
    ∃ t, exec i s = .next t ∧ ErrorTaken .invalidDistance s t

/-- R144, R161, R166 (2): a copy row whose extra bits are missing takes `UnexpectedEndOfStream`, whatever its distance would
have been. -/
def Obligations.CopyCutShortTakesEndOfStream : Prop :=
  ∀ (i : Instr) (r : CopyRange) (len : Nat) (s : State), i.toOp = .copy r len →
    s.cfg.valid = true → s.cursor.Wf s.inWin s.runLen → s.cursor.bitsLeft s.runLen < s.cfg.copyBits.get r →
    ∃ t, exec i s = .next t ∧ ErrorTaken .unexpectedEndOfStream s t

/-- R165: a copy that raises has appended no byte and written no ring cell. -/
def Obligations.FailedCopyMovesNothing : Prop :=
  ∀ (r : CopyRange) (len : Nat) (e : ErrKind) (s t : State), copyInstr r len s = .raise e t → t.hist = s.hist

/-- R145 to R150, R75: the distances of each range under the default configuration, for every extra-bits field and every
length; no distance is below the length. -/
def Obligations.DefaultDistanceRanges : Prop :=
  ∀ (r : CopyRange) (len : Nat) (bits : List Bool), bits.length = Cfg.default.copyBits.get r → 3 ≤ len → len ≤ 64 →
    len ≤ distanceOf Cfg.default r len (extraOf bits) ∧
    (match r with
      | .r0 => 3 | .r1 => 19 | .r2 => 83 | .r3 => 339 | .r4 => 1363 | .r5 => 5459)
        ≤ distanceOf Cfg.default r len (extraOf bits) ∧
    distanceOf Cfg.default r len (extraOf bits) ≤
      (match r with
        | .r0 => 79 | .r1 => 143 | .r2 => 399 | .r3 => 1423 | .r4 => 5519 | .r5 => 21903)

/-! ### Errors and the host -/

/-- R164, R172: what taking an error leaves for the host to see, and what it leaves alone. -/
def Obligations.AbortShowsTheErrorOnly : Prop :=
  ∀ (e : ErrKind) (s : State), ErrorTaken e s (abort e s)

/-- R42, R43, R160: the numbers that the host reads for `STATUS` and, outside a run, for `ERRCODE`. -/
def Obligations.StatusAndErrcodeNumbers : Prop :=
  ∀ (s : State),
    (hostRead .status s).hostData
      = (match s.status with | .idle => 0 | .busy => 1 | .done => 2 | .error => 3) ∧
    (s.status ≠ .busy →
      (hostRead .errcode s).hostData
        = match s.errcode with
          | none => 0
          | some .unexpectedEndOfStream => 1
          | some .invalidHuffmanCode => 2
          | some .invalidDistance => 3)

/-- R45: when `STATUS = DONE` the host reads `OUT_LEN` and the bytes of `OUT` in the order they were appended. -/
def Obligations.DoneShowsTheOutput : Prop :=
  ∀ (s : State), s.status = .done →
    (hostRead .outLen s).hostData = s.outLen ∧
    ∀ k v, s.hist.out[k]? = some v → (hostReadOut k s).hostData = v.toNat

/-- R44, R46: the host writes `IN_LEN` and each `CFG_*` register and reads the value back; no other register reads
differently, and no other part of the state changes. The model's choices in it: that no `CFG_*` register is hardwired
(log 20), that a write during `BUSY` changes the register though not the run (log 9), and that the unspecified reads of
`ERRCODE` and `OUT_LEN` during `BUSY` are free values that such a write leaves as they are (log 5). -/
def Obligations.HostRegistersReadBack : Prop :=
  ∀ (hp : HuffParams) (reg : HostReg) (v : Nat) (s : State), reg ≠ .ctrl → reg ≠ .status → reg ≠ .errcode →
    reg ≠ .outLen →
    ∃ t, hostAccess hp (.write reg v) s = .next t ∧ t = { s with inLen := t.inLen, cfgRegs := t.cfgRegs } ∧
      (hostRead reg t).hostData = v ∧
      ∀ other, other ≠ reg → (hostRead other t).hostData = (hostRead other s).hostData

/-- R41, R42, R43, R45, U14: a host write of a read-only register, and of `CTRL` with bit 0 clear, changes nothing. -/
def Obligations.ReadOnlyRegistersIgnoreWrites : Prop :=
  ∀ (hp : HuffParams) (v : Nat) (s : State),
    hostAccess hp (.write .status v) s = .next s ∧ hostAccess hp (.write .errcode v) s = .next s ∧
    hostAccess hp (.write .outLen v) s = .next s ∧
    (v.testBit 0 = false → hostAccess hp (.write .ctrl v) s = .next s) ∧ (hostRead .ctrl s).hostData = 0

/-- R44, R50: outside a run the host writes one byte of the `IN` window; every other byte reads as before, and nothing else
changes. -/
def Obligations.HostWritesOneInputByte : Prop :=
  ∀ (hp : HuffParams) (index : Nat) (v : Byte) (s : State), s.status ≠ .busy →
    ∃ t, hostAccess hp (.writeIn index v) s = .next t ∧ t = { s with inWin := t.inWin } ∧
      Memory.read t.inWin index = some v ∧ ∀ a, a ≠ index → Memory.read t.inWin a = Memory.read s.inWin a

/-- R152, R48, R180: `START` while no run is in progress, under a valid configuration: the arena is `HUFF_INIT(cfg)` of the
instance. With the default instance the tree is full with positive weights (log 1). That the ring is then unwritten, so
that its unspecified cells read as free values, is the model's choice (log 4). -/
def Obligations.StartBeginsAFreshRun : Prop :=
  ∀ (hp : HuffParams) (s : State) (v : Nat), v.testBit 0 = true → s.status ≠ .busy → s.cfgRegs.valid = true →
    ∃ t, hostAccess hp (.write .ctrl v) s = .next t ∧ t.status = .busy ∧ t.errcode = none ∧ t.outLen = 0 ∧
      t.cursor.pos = 0 ∧ t.cursor.bitcnt = 0 ∧ t.cursor.bitbuf = 0 ∧ t.hist.count = 0 ∧ t.hist.out = [] ∧
      (∀ a, Memory.read t.hist.ring a = none) ∧ t.cfg = s.cfgRegs ∧ t.runLen = s.inLen ∧
      t.model.toArena = hp.init s.cfgRegs ∧
      (hp = .default → FullTree t.cfg t.model ∧ PositiveWeights t.cfg t.model) ∧ t.inWin = s.inWin ∧
      t.inLen = s.inLen ∧ t.cfgRegs = s.cfgRegs

/-- R8, R152 (1): `START` with an invalid configuration is refused. -/
def Obligations.StartRefusesInvalidConfiguration : Prop :=
  ∀ (hp : HuffParams) (s : State) (v : Nat), v.testBit 0 = true → s.status ≠ .busy → s.cfgRegs.valid = false →
    hostAccess hp (.write .ctrl v) s = .refused .invalidConfiguration

/-- R41, R47, R65, R186, U12: what the host does during a run does not reach the run: a write of the `IN` window is refused;
every other transaction answers a next state that leaves every part of the run as it was, and a `START` changes
nothing. -/
def Obligations.HostCannotReachARun : Prop :=
  ∀ (hp : HuffParams) (op : HostOp) (s : State), s.status = .busy →
    (∀ i v, op = .writeIn i v → hostAccess hp op s = .refused .inputWrittenDuringRun) ∧
    ((∀ i v, op ≠ .writeIn i v) → ∃ t, hostAccess hp op s = .next t ∧
      t = { s with inLen := t.inLen, cfgRegs := t.cfgRegs, hostData := t.hostData, freeCount := t.freeCount } ∧
      ((∃ v, op = .write .ctrl v) → t = s))

/-! ### The step and the run -/

/-- R140, R141: when the fetch answers a symbol, the step is that of the instruction the symbol stands for: `exec` of a row of
the table, or the common copy rule for a copy length without a row (log 10). `step` is the machine with the default
instance. -/
def Obligations.StepRunsTheDecodedInstruction : Prop :=
  (∀ (hp : HuffParams) (s t : State) (sym : Nat) (d : Decoded), s.status = .busy → s.hostQueue = [] →
    decodeSym hp s = .ok sym t → decodeSymbol t.cfg sym = .ok d →
    stepWith hp s = runDecoded d t ∧ (∀ i, d = .row i → stepWith hp s = exec i t) ∧
      ∀ r len, d = .offTable r len → stepWith hp s = runCopy r len t) ∧
  ∀ s, step s = stepWith .default s

/-- R164: when the fetch raises, the step takes the error. -/
def Obligations.StepTakesTheFetchError : Prop :=
  ∀ (hp : HuffParams) (s t : State) (e : ErrKind), s.status = .busy → s.hostQueue = [] → decodeSym hp s = .raise e t →
    stepWith hp s = .next (abort e t) ∧ ErrorTaken e s (abort e t)

/-- R10, and the model's schedule (log 7): a pending host transaction is the step; a `wait` gives the engine the step. -/
def Obligations.StepTakesTheHostTransaction : Prop :=
  ∀ (hp : HuffParams) (s : State) (op : HostOp) (q : List HostOp), s.hostQueue = op :: q →
    (op ≠ .wait → stepWith hp s = hostAccess hp op (s.withQueue q)) ∧
    (op = .wait → stepWith hp s = engineStep hp (s.withQueue q))

/-- R171: between runs the block is idle and `STATUS` is held; that the rest of the state is held too is log 18. -/
def Obligations.IdleBlockHoldsItsState : Prop :=
  ∀ (hp : HuffParams) (s : State), s.status ≠ .busy → s.hostQueue = [] → stepWith hp s = .next s

/-- R42, R167: `STATUS` leaves `IDLE`, `DONE` and `ERROR` only by a `START`, which begins a fresh run; during a run it stays
`BUSY` or becomes `DONE` or `ERROR`. -/
def Obligations.StatusTransitions : Prop :=
  ∀ (hp : HuffParams) (s t : State), stepWith hp s = .next t →
    (s.status ≠ .busy → t.status ≠ s.status →
      ∃ v q, s.hostQueue = .write .ctrl v :: q ∧ v.testBit 0 = true ∧ t = (s.withQueue q).started hp) ∧
    (s.status = .busy → t.status = .busy ∨ t.status = .done ∨ t.status = .error)

/-- R32, R58, R65: the engine never writes the input window, the host's registers or the latched configuration. -/
def Obligations.EngineNeverWritesItsInput : Prop :=
  ∀ (hp : HuffParams) (s t : State), engineStep hp s = .next t →
    t.inWin = s.inWin ∧ t.inLen = s.inLen ∧ t.cfgRegs = s.cfgRegs ∧ t.cfg = s.cfg ∧ t.runLen = s.runLen ∧
      t.hostQueue = s.hostQueue ∧ t.hostData = s.hostData

/-- The invariant of the machine holds at reset, whatever arenas the instance keeps (the values that the spec gives:
R181). -/
def Obligations.InvariantHoldsAtReset : Prop :=
  ∀ (Good : Cfg → HuffmanModel → Prop), MachineInvFor Good State.reset

/-- R21, R27, R33, R43, R45, R53, R115, R116 (a), (c): every step of the machine with the default instance (log 1) keeps its
invariant: during a run the tree is full, every weight is at least 1, and every leaf is below `maxFrequency`. -/
def Obligations.StepKeepsTheInvariant : Prop :=
  ∀ (s t : State), MachineInv s → step s = .next t → MachineInv t

/-- R151, R14: with every lawful instance, a run started under a valid configuration is over after at most `8·IN_LEN + 1`
steps of the engine, with `DONE` or `ERROR`, whatever the input window holds; no step of it is refused. -/
def Obligations.EveryRunFinishes : Prop :=
  ∀ (hp : HuffParams) (Good : Cfg → HuffmanModel → Prop) (s : State), hp.Lawful Good → s.cfgRegs.valid = true →
    s.hostQueue = [] → ∃ t, runSteps hp (8 * s.inLen + 1) (s.started hp) = .next t ∧ t.finished

/-- R152, R181, R49: with every lawful instance, nothing of an earlier run influences a later one: what the host sees of a
run depends only on the instance, the configuration and the input. -/
def Obligations.RunsAreIsolated : Prop :=
  ∀ (hp : HuffParams) (Good : Cfg → HuffmanModel → Prop) (s1 s2 : State) (k : Nat), hp.Lawful Good →
    s1.cfgRegs.valid = true → s1.cfgRegs = s2.cfgRegs → s1.inLen = s2.inLen → s1.inWin = s2.inWin →
    s1.hostQueue = [] → s2.hostQueue = [] →
    SameForHost (runSteps hp k (s1.started hp)) (runSteps hp k (s2.started hp))

/-! ### Every depth, every instance, every copy -/

/-- R100, R166 (1), at every depth: let the next bits lead from the root to an internal node. If the bit after them selects a
child that is not there, `DECODESYM` raises `InvalidHuffmanCode` just behind that bit; if the stream ends there, it raises
`UnexpectedEndOfStream`. Neither has updated the arena or written the history. -/
def Obligations.MissingChildRaisesAtAnyDepth : Prop :=
  ∀ (hp : HuffParams) (s : State) (path : List Bool) (n : Nat), s.cfg.valid = true → s.cursor.Wf s.inWin s.runLen →
    s.model.descend s.cfg path ROOT = n → n ≠ NIL → n ≤ s.cfg.maxChar → path.length ≤ s.cursor.bitsLeft s.runLen →
    streamBits s.inWin s.cursor.bitPos path.length = path →
    (path.length < s.cursor.bitsLeft s.runLen →
      s.model.childOf (inputBit s.inWin (s.cursor.bitPos + path.length)) n = NIL →
      ∃ t, decodeSym hp s = .raise .invalidHuffmanCode t ∧ t.cursor.bitPos = s.cursor.bitPos + path.length + 1 ∧
        t.model.toArena = s.model.toArena ∧ t.hist = s.hist) ∧
    (path.length = s.cursor.bitsLeft s.runLen →
      ∃ t, decodeSym hp s = .raise .unexpectedEndOfStream t ∧ t.cursor.bitPos = s.cursor.bitPos + path.length ∧
        t.model.toArena = s.model.toArena ∧ t.hist = s.hist)

/-- R103: the default instance (R104, R110 to R113) meets the requirements, and keeps the trees of R115 and R116. -/
def Obligations.DefaultInstanceIsLawful : Prop := HuffParams.default.Lawful DefaultTree

/-- R100, R101 (d), (e), R103, R184: with every lawful instance a fetch raises an error that a fetch can raise, with the
arena as it was, or it answers a symbol of the alphabet, having consumed at least one bit. The arena is then
`HUFF_UPDATE` of the symbol's leaf on the arena before, one that the instance keeps, in which that leaf has been
counted. The fetch changes nothing but the cursor, the arena part and `sym`. -/
def Obligations.FetchUnderAnyInstance : Prop :=
  ∀ (hp : HuffParams) (Good : Cfg → HuffmanModel → Prop) (s : State), hp.Lawful Good → s.cfg.valid = true →
    Good s.cfg s.model → s.cursor.Wf s.inWin s.runLen →
    (∃ e t, decodeSym hp s = .raise e t ∧ e ≠ .invalidDistance ∧ t.model.toArena = s.model.toArena) ∨
    ∃ sym t, decodeSym hp s = .ok sym t ∧ sym ≤ s.cfg.maxChar ∧ Good s.cfg t.model ∧
      (hp.update s.cfg (sym + s.cfg.successMax) s.model).map HuffmanModel.toArena = some t.model.toArena ∧
      (t.model.weightOf (sym + s.cfg.successMax) = s.model.weightOf (sym + s.cfg.successMax) + 1 ∨
        Rescaled (s.model.weightOf (sym + s.cfg.successMax) + 1) (t.model.weightOf (sym + s.cfg.successMax))) ∧
      t.cursor.Wf s.inWin s.runLen ∧ t.cursor.bitsLeft s.runLen < s.cursor.bitsLeft s.runLen ∧
      t = { s with cursor := t.cursor, model := t.model, dec := { s.dec with sym := sym } }

/-- R21, R27 (a) to (d), R33, R43, R45, R53, R103: with every lawful instance every step keeps the invariant of the machine;
during a run the arena is one that the instance keeps, and so a well-formed tree. -/
def Obligations.StepKeepsTheInvariantOfAnyInstance : Prop :=
  ∀ (hp : HuffParams) (Good : Cfg → HuffmanModel → Prop) (s t : State), hp.Lawful Good → MachineInvFor Good s →
    stepWith hp s = .next t → MachineInvFor Good t ∧ (t.status = .busy → WellFormedTree t.cfg t.model)

/-- R144, for a copy whose length has no row in the opcode table, which only a configuration other than the default has
(log 10): it completes with the whole effect of a copy when its extra bits are there and its distance is legal, takes
`InvalidDistance` when the distance exceeds `count`, and `UnexpectedEndOfStream` when extra bits are missing. -/
def Obligations.OffTableCopyFollowsTheCommonRule : Prop :=
  ∀ (r : CopyRange) (len : Nat) (s : State), s.cfg.valid = true → s.cfg.copyLengthOk len = true →
    s.cursor.Wf s.inWin s.runLen →
    (s.hist.Wf s.cfg.historySize → s.cfg.copyBits.get r ≤ s.cursor.bitsLeft s.runLen →
      s.distanceAt r len ≤ s.hist.count →
      ∃ t, runDecoded (.offTable r len) s = .next t ∧
        t = { s with cursor := t.cursor, hist := t.hist, dec := t.dec } ∧
        t.cursor.bitPos = s.cursor.bitPos + s.cfg.copyBits.get r ∧ t.cursor.Wf s.inWin s.runLen ∧
        t.cursor.code = s.extraAt r ∧
        t.dec = { sym := s.dec.sym, r := r.index, length := len, extra := s.extraAt r, distance := s.distanceAt r len } ∧
        t.hist.count = s.hist.count + len ∧ s.hist.out <+: t.hist.out ∧
        (∀ k < len, t.hist.out[s.hist.count + k]? = t.hist.out[s.hist.count + k - s.distanceAt r len]?) ∧
        t.hist.Wf s.cfg.historySize ∧
        ∀ a, (∀ k < len, a ≠ (s.hist.count + k) % s.cfg.historySize) →
          Memory.read t.hist.ring a = Memory.read s.hist.ring a) ∧
    (s.cfg.copyBits.get r ≤ s.cursor.bitsLeft s.runLen → s.hist.count < s.distanceAt r len →
      ∃ t, runDecoded (.offTable r len) s = .next t ∧ ErrorTaken .invalidDistance s t) ∧
    (s.cursor.bitsLeft s.runLen < s.cfg.copyBits.get r →
      ∃ t, runDecoded (.offTable r len) s = .next t ∧ ErrorTaken .unexpectedEndOfStream s t)
end

