-- ==== Sys2Proof/Laws/State.lean ====
section
/-!
SUPPORT. One lemma for each field of State under each update of it, so that no later proof unfolds a record update.
-/

namespace Sys2Proof.Machine

/-! ### withCursor -/

@[simp] theorem State.withCursor_cursor (s : State) (c : BitCursor) : (s.withCursor c).cursor = c := rfl
@[simp] theorem State.withCursor_model (s : State) (c : BitCursor) : (s.withCursor c).model = s.model := rfl
@[simp] theorem State.withCursor_hist (s : State) (c : BitCursor) : (s.withCursor c).hist = s.hist := rfl
@[simp] theorem State.withCursor_dec (s : State) (c : BitCursor) : (s.withCursor c).dec = s.dec := rfl
@[simp] theorem State.withCursor_status (s : State) (c : BitCursor) : (s.withCursor c).status = s.status := rfl
@[simp] theorem State.withCursor_errcode (s : State) (c : BitCursor) : (s.withCursor c).errcode = s.errcode := rfl
@[simp] theorem State.withCursor_inLen (s : State) (c : BitCursor) : (s.withCursor c).inLen = s.inLen := rfl
@[simp] theorem State.withCursor_outLen (s : State) (c : BitCursor) : (s.withCursor c).outLen = s.outLen := rfl
@[simp] theorem State.withCursor_cfgRegs (s : State) (c : BitCursor) : (s.withCursor c).cfgRegs = s.cfgRegs := rfl
@[simp] theorem State.withCursor_inWin (s : State) (c : BitCursor) : (s.withCursor c).inWin = s.inWin := rfl
@[simp] theorem State.withCursor_cfg (s : State) (c : BitCursor) : (s.withCursor c).cfg = s.cfg := rfl
@[simp] theorem State.withCursor_runLen (s : State) (c : BitCursor) : (s.withCursor c).runLen = s.runLen := rfl
@[simp] theorem State.withCursor_hostQueue (s : State) (c : BitCursor) : (s.withCursor c).hostQueue = s.hostQueue := rfl
@[simp] theorem State.withCursor_hostData (s : State) (c : BitCursor) : (s.withCursor c).hostData = s.hostData := rfl
@[simp] theorem State.withCursor_freeCount (s : State) (c : BitCursor) : (s.withCursor c).freeCount = s.freeCount := rfl

/-! ### withModel -/

@[simp] theorem State.withModel_cursor (s : State) (m : HuffmanModel) : (s.withModel m).cursor = s.cursor := rfl
@[simp] theorem State.withModel_model (s : State) (m : HuffmanModel) : (s.withModel m).model = m := rfl
@[simp] theorem State.withModel_hist (s : State) (m : HuffmanModel) : (s.withModel m).hist = s.hist := rfl
@[simp] theorem State.withModel_dec (s : State) (m : HuffmanModel) : (s.withModel m).dec = s.dec := rfl
@[simp] theorem State.withModel_status (s : State) (m : HuffmanModel) : (s.withModel m).status = s.status := rfl
@[simp] theorem State.withModel_errcode (s : State) (m : HuffmanModel) : (s.withModel m).errcode = s.errcode := rfl
@[simp] theorem State.withModel_inLen (s : State) (m : HuffmanModel) : (s.withModel m).inLen = s.inLen := rfl
@[simp] theorem State.withModel_outLen (s : State) (m : HuffmanModel) : (s.withModel m).outLen = s.outLen := rfl
@[simp] theorem State.withModel_cfgRegs (s : State) (m : HuffmanModel) : (s.withModel m).cfgRegs = s.cfgRegs := rfl
@[simp] theorem State.withModel_inWin (s : State) (m : HuffmanModel) : (s.withModel m).inWin = s.inWin := rfl
@[simp] theorem State.withModel_cfg (s : State) (m : HuffmanModel) : (s.withModel m).cfg = s.cfg := rfl
@[simp] theorem State.withModel_runLen (s : State) (m : HuffmanModel) : (s.withModel m).runLen = s.runLen := rfl
@[simp] theorem State.withModel_hostQueue (s : State) (m : HuffmanModel) : (s.withModel m).hostQueue = s.hostQueue := rfl
@[simp] theorem State.withModel_hostData (s : State) (m : HuffmanModel) : (s.withModel m).hostData = s.hostData := rfl
@[simp] theorem State.withModel_freeCount (s : State) (m : HuffmanModel) : (s.withModel m).freeCount = s.freeCount := rfl

/-! ### withHist -/

@[simp] theorem State.withHist_cursor (s : State) (h : HistoryRing) : (s.withHist h).cursor = s.cursor := rfl
@[simp] theorem State.withHist_model (s : State) (h : HistoryRing) : (s.withHist h).model = s.model := rfl
@[simp] theorem State.withHist_hist (s : State) (h : HistoryRing) : (s.withHist h).hist = h := rfl
@[simp] theorem State.withHist_dec (s : State) (h : HistoryRing) : (s.withHist h).dec = s.dec := rfl
@[simp] theorem State.withHist_status (s : State) (h : HistoryRing) : (s.withHist h).status = s.status := rfl
@[simp] theorem State.withHist_errcode (s : State) (h : HistoryRing) : (s.withHist h).errcode = s.errcode := rfl
@[simp] theorem State.withHist_inLen (s : State) (h : HistoryRing) : (s.withHist h).inLen = s.inLen := rfl
@[simp] theorem State.withHist_outLen (s : State) (h : HistoryRing) : (s.withHist h).outLen = s.outLen := rfl
@[simp] theorem State.withHist_cfgRegs (s : State) (h : HistoryRing) : (s.withHist h).cfgRegs = s.cfgRegs := rfl
@[simp] theorem State.withHist_inWin (s : State) (h : HistoryRing) : (s.withHist h).inWin = s.inWin := rfl
@[simp] theorem State.withHist_cfg (s : State) (h : HistoryRing) : (s.withHist h).cfg = s.cfg := rfl
@[simp] theorem State.withHist_runLen (s : State) (h : HistoryRing) : (s.withHist h).runLen = s.runLen := rfl
@[simp] theorem State.withHist_hostQueue (s : State) (h : HistoryRing) : (s.withHist h).hostQueue = s.hostQueue := rfl
@[simp] theorem State.withHist_hostData (s : State) (h : HistoryRing) : (s.withHist h).hostData = s.hostData := rfl
@[simp] theorem State.withHist_freeCount (s : State) (h : HistoryRing) : (s.withHist h).freeCount = s.freeCount := rfl

/-! ### withDec -/

@[simp] theorem State.withDec_cursor (s : State) (d : Decompressor) : (s.withDec d).cursor = s.cursor := rfl
@[simp] theorem State.withDec_model (s : State) (d : Decompressor) : (s.withDec d).model = s.model := rfl
@[simp] theorem State.withDec_hist (s : State) (d : Decompressor) : (s.withDec d).hist = s.hist := rfl
@[simp] theorem State.withDec_dec (s : State) (d : Decompressor) : (s.withDec d).dec = d := rfl
@[simp] theorem State.withDec_status (s : State) (d : Decompressor) : (s.withDec d).status = s.status := rfl
@[simp] theorem State.withDec_errcode (s : State) (d : Decompressor) : (s.withDec d).errcode = s.errcode := rfl
@[simp] theorem State.withDec_inLen (s : State) (d : Decompressor) : (s.withDec d).inLen = s.inLen := rfl
@[simp] theorem State.withDec_outLen (s : State) (d : Decompressor) : (s.withDec d).outLen = s.outLen := rfl
@[simp] theorem State.withDec_cfgRegs (s : State) (d : Decompressor) : (s.withDec d).cfgRegs = s.cfgRegs := rfl
@[simp] theorem State.withDec_inWin (s : State) (d : Decompressor) : (s.withDec d).inWin = s.inWin := rfl
@[simp] theorem State.withDec_cfg (s : State) (d : Decompressor) : (s.withDec d).cfg = s.cfg := rfl
@[simp] theorem State.withDec_runLen (s : State) (d : Decompressor) : (s.withDec d).runLen = s.runLen := rfl
@[simp] theorem State.withDec_hostQueue (s : State) (d : Decompressor) : (s.withDec d).hostQueue = s.hostQueue := rfl
@[simp] theorem State.withDec_hostData (s : State) (d : Decompressor) : (s.withDec d).hostData = s.hostData := rfl
@[simp] theorem State.withDec_freeCount (s : State) (d : Decompressor) : (s.withDec d).freeCount = s.freeCount := rfl

/-! ### withQueue -/

@[simp] theorem State.withQueue_cursor (s : State) (q : List HostOp) : (s.withQueue q).cursor = s.cursor := rfl
@[simp] theorem State.withQueue_model (s : State) (q : List HostOp) : (s.withQueue q).model = s.model := rfl
@[simp] theorem State.withQueue_hist (s : State) (q : List HostOp) : (s.withQueue q).hist = s.hist := rfl
@[simp] theorem State.withQueue_dec (s : State) (q : List HostOp) : (s.withQueue q).dec = s.dec := rfl
@[simp] theorem State.withQueue_status (s : State) (q : List HostOp) : (s.withQueue q).status = s.status := rfl
@[simp] theorem State.withQueue_errcode (s : State) (q : List HostOp) : (s.withQueue q).errcode = s.errcode := rfl
@[simp] theorem State.withQueue_inLen (s : State) (q : List HostOp) : (s.withQueue q).inLen = s.inLen := rfl
@[simp] theorem State.withQueue_outLen (s : State) (q : List HostOp) : (s.withQueue q).outLen = s.outLen := rfl
@[simp] theorem State.withQueue_cfgRegs (s : State) (q : List HostOp) : (s.withQueue q).cfgRegs = s.cfgRegs := rfl
@[simp] theorem State.withQueue_inWin (s : State) (q : List HostOp) : (s.withQueue q).inWin = s.inWin := rfl
@[simp] theorem State.withQueue_cfg (s : State) (q : List HostOp) : (s.withQueue q).cfg = s.cfg := rfl
@[simp] theorem State.withQueue_runLen (s : State) (q : List HostOp) : (s.withQueue q).runLen = s.runLen := rfl
@[simp] theorem State.withQueue_hostQueue (s : State) (q : List HostOp) : (s.withQueue q).hostQueue = q := rfl
@[simp] theorem State.withQueue_hostData (s : State) (q : List HostOp) : (s.withQueue q).hostData = s.hostData := rfl
@[simp] theorem State.withQueue_freeCount (s : State) (q : List HostOp) : (s.withQueue q).freeCount = s.freeCount := rfl

/-! ### withHostData -/

@[simp] theorem State.withHostData_cursor (s : State) (v : Nat) : (s.withHostData v).cursor = s.cursor := rfl
@[simp] theorem State.withHostData_model (s : State) (v : Nat) : (s.withHostData v).model = s.model := rfl
@[simp] theorem State.withHostData_hist (s : State) (v : Nat) : (s.withHostData v).hist = s.hist := rfl
@[simp] theorem State.withHostData_dec (s : State) (v : Nat) : (s.withHostData v).dec = s.dec := rfl
@[simp] theorem State.withHostData_status (s : State) (v : Nat) : (s.withHostData v).status = s.status := rfl
@[simp] theorem State.withHostData_errcode (s : State) (v : Nat) : (s.withHostData v).errcode = s.errcode := rfl
@[simp] theorem State.withHostData_inLen (s : State) (v : Nat) : (s.withHostData v).inLen = s.inLen := rfl
@[simp] theorem State.withHostData_outLen (s : State) (v : Nat) : (s.withHostData v).outLen = s.outLen := rfl
@[simp] theorem State.withHostData_cfgRegs (s : State) (v : Nat) : (s.withHostData v).cfgRegs = s.cfgRegs := rfl
@[simp] theorem State.withHostData_inWin (s : State) (v : Nat) : (s.withHostData v).inWin = s.inWin := rfl
@[simp] theorem State.withHostData_cfg (s : State) (v : Nat) : (s.withHostData v).cfg = s.cfg := rfl
@[simp] theorem State.withHostData_runLen (s : State) (v : Nat) : (s.withHostData v).runLen = s.runLen := rfl
@[simp] theorem State.withHostData_hostQueue (s : State) (v : Nat) : (s.withHostData v).hostQueue = s.hostQueue := rfl
@[simp] theorem State.withHostData_hostData (s : State) (v : Nat) : (s.withHostData v).hostData = v := rfl
@[simp] theorem State.withHostData_freeCount (s : State) (v : Nat) : (s.withHostData v).freeCount = s.freeCount := rfl

/-! ### withFreeHostData -/

@[simp] theorem State.withFreeHostData_cursor (s : State) (v : Nat) : (s.withFreeHostData v).cursor = s.cursor := rfl
@[simp] theorem State.withFreeHostData_model (s : State) (v : Nat) : (s.withFreeHostData v).model = s.model := rfl
@[simp] theorem State.withFreeHostData_hist (s : State) (v : Nat) : (s.withFreeHostData v).hist = s.hist := rfl
@[simp] theorem State.withFreeHostData_dec (s : State) (v : Nat) : (s.withFreeHostData v).dec = s.dec := rfl
@[simp] theorem State.withFreeHostData_status (s : State) (v : Nat) : (s.withFreeHostData v).status = s.status := rfl
@[simp] theorem State.withFreeHostData_errcode (s : State) (v : Nat) : (s.withFreeHostData v).errcode = s.errcode := rfl
@[simp] theorem State.withFreeHostData_inLen (s : State) (v : Nat) : (s.withFreeHostData v).inLen = s.inLen := rfl
@[simp] theorem State.withFreeHostData_outLen (s : State) (v : Nat) : (s.withFreeHostData v).outLen = s.outLen := rfl
@[simp] theorem State.withFreeHostData_cfgRegs (s : State) (v : Nat) : (s.withFreeHostData v).cfgRegs = s.cfgRegs := rfl
@[simp] theorem State.withFreeHostData_inWin (s : State) (v : Nat) : (s.withFreeHostData v).inWin = s.inWin := rfl
@[simp] theorem State.withFreeHostData_cfg (s : State) (v : Nat) : (s.withFreeHostData v).cfg = s.cfg := rfl
@[simp] theorem State.withFreeHostData_runLen (s : State) (v : Nat) : (s.withFreeHostData v).runLen = s.runLen := rfl
@[simp] theorem State.withFreeHostData_hostQueue (s : State) (v : Nat) : (s.withFreeHostData v).hostQueue = s.hostQueue := rfl
@[simp] theorem State.withFreeHostData_hostData (s : State) (v : Nat) : (s.withFreeHostData v).hostData = v := rfl
@[simp] theorem State.withFreeHostData_freeCount (s : State) (v : Nat) : (s.withFreeHostData v).freeCount = s.freeCount + 1 := rfl

/-! ### Taking an error (R164) -/

@[simp] theorem abort_cursor (e : ErrKind) (s : State) : (abort e s).cursor = freeCursor s.freeCount := rfl
@[simp] theorem abort_model (e : ErrKind) (s : State) : (abort e s).model = freeModel s.freeCount := rfl
@[simp] theorem abort_hist (e : ErrKind) (s : State) : (abort e s).hist = freeHist s.freeCount := rfl
@[simp] theorem abort_dec (e : ErrKind) (s : State) : (abort e s).dec = freeDec s.freeCount := rfl
@[simp] theorem abort_status (e : ErrKind) (s : State) : (abort e s).status = .error := rfl
@[simp] theorem abort_errcode (e : ErrKind) (s : State) : (abort e s).errcode = some e := rfl
@[simp] theorem abort_inLen (e : ErrKind) (s : State) : (abort e s).inLen = s.inLen := rfl
@[simp] theorem abort_outLen (e : ErrKind) (s : State) : (abort e s).outLen = 0 := rfl
@[simp] theorem abort_cfgRegs (e : ErrKind) (s : State) : (abort e s).cfgRegs = s.cfgRegs := rfl
@[simp] theorem abort_inWin (e : ErrKind) (s : State) : (abort e s).inWin = s.inWin := rfl
@[simp] theorem abort_cfg (e : ErrKind) (s : State) : (abort e s).cfg = s.cfg := rfl
@[simp] theorem abort_runLen (e : ErrKind) (s : State) : (abort e s).runLen = s.runLen := rfl
@[simp] theorem abort_hostQueue (e : ErrKind) (s : State) : (abort e s).hostQueue = s.hostQueue := rfl
@[simp] theorem abort_hostData (e : ErrKind) (s : State) : (abort e s).hostData = s.hostData := rfl
@[simp] theorem abort_freeCount (e : ErrKind) (s : State) : (abort e s).freeCount = s.freeCount + 1 := rfl

/-! ### The start of a run (R48) -/

@[simp] theorem State.started_cursor (hp : HuffParams) (s : State) : (s.started hp).cursor = { s.cursor with pos := 0, bitbuf := 0, bitcnt := 0 } := rfl
@[simp] theorem State.started_model (hp : HuffParams) (s : State) : (s.started hp).model = s.model.withArena (hp.init s.cfgRegs) := rfl
@[simp] theorem State.started_hist (hp : HuffParams) (s : State) : (s.started hp).hist = { s.hist with ring := [], count := 0, out := [] } := rfl
@[simp] theorem State.started_dec (hp : HuffParams) (s : State) : (s.started hp).dec = s.dec := rfl
@[simp] theorem State.started_status (hp : HuffParams) (s : State) : (s.started hp).status = .busy := rfl
@[simp] theorem State.started_errcode (hp : HuffParams) (s : State) : (s.started hp).errcode = none := rfl
@[simp] theorem State.started_inLen (hp : HuffParams) (s : State) : (s.started hp).inLen = s.inLen := rfl
@[simp] theorem State.started_outLen (hp : HuffParams) (s : State) : (s.started hp).outLen = 0 := rfl
@[simp] theorem State.started_cfgRegs (hp : HuffParams) (s : State) : (s.started hp).cfgRegs = s.cfgRegs := rfl
@[simp] theorem State.started_inWin (hp : HuffParams) (s : State) : (s.started hp).inWin = s.inWin := rfl
@[simp] theorem State.started_cfg (hp : HuffParams) (s : State) : (s.started hp).cfg = s.cfgRegs := rfl
@[simp] theorem State.started_runLen (hp : HuffParams) (s : State) : (s.started hp).runLen = s.inLen := rfl
@[simp] theorem State.started_hostQueue (hp : HuffParams) (s : State) : (s.started hp).hostQueue = s.hostQueue := rfl
@[simp] theorem State.started_hostData (hp : HuffParams) (s : State) : (s.started hp).hostData = s.hostData := rfl
@[simp] theorem State.started_freeCount (hp : HuffParams) (s : State) : (s.started hp).freeCount = s.freeCount := rfl

/-! ### Results of operations -/

section Results

variable {σ τ α β : Type}

@[simp] theorem Res.andThen_ok (v : α) (s : σ) (k : α → σ → Res σ β) : (Res.ok v s).andThen k = k v s := rfl
@[simp] theorem Res.andThen_raise (e : ErrKind) (s : σ) (k : α → σ → Res σ β) :
    (Res.raise e s).andThen k = .raise e s := rfl
@[simp] theorem Res.andThen_refused (r : Refusal) (k : α → σ → Res σ β) :
    (Res.refused r).andThen k = .refused r := rfl
@[simp] theorem Res.lift_ok (put : σ → τ) (v : α) (s : σ) : (Res.ok v s).lift put = .ok v (put s) := rfl
@[simp] theorem Res.lift_raise (put : σ → τ) (e : ErrKind) (s : σ) :
    (Res.raise e s : Res σ α).lift put = .raise e (put s) := rfl
@[simp] theorem Res.lift_refused (put : σ → τ) (r : Refusal) : (Res.refused r : Res σ α).lift put = .refused r := rfl
@[simp] theorem conclude_ok (u : Unit) (s : State) : conclude (.ok u s) = .next s := rfl
@[simp] theorem conclude_raise (e : ErrKind) (s : State) : conclude (.raise e s) = .next (abort e s) := rfl
@[simp] theorem conclude_refused (r : Refusal) : conclude (.refused r) = .refused r := rfl

/-- A composed operation completes exactly when both parts do. -/
theorem Res.andThen_eq_ok {x : Res σ α} {k : α → σ → Res σ β} {w : β} {t : σ} :
    x.andThen k = .ok w t ↔ ∃ v s, x = .ok v s ∧ k v s = .ok w t := by
  cases x <;> simp [Res.andThen]

/-- A composed operation raises when the first part does, or when the first part completes and the second raises. -/
theorem Res.andThen_eq_raise {x : Res σ α} {k : α → σ → Res σ β} {e : ErrKind} {t : σ} :
    x.andThen k = .raise e t ↔ x = .raise e t ∨ ∃ v s, x = .ok v s ∧ k v s = .raise e t := by
  cases x <;> simp [Res.andThen]

/-- A lifted operation completes exactly when it does. -/
theorem Res.lift_eq_ok {x : Res σ α} {put : σ → τ} {v : α} {t : τ} :
    x.lift put = .ok v t ↔ ∃ s, x = .ok v s ∧ put s = t := by
  cases x <;> simp [Res.lift]

/-- A lifted operation raises exactly when it does. -/
theorem Res.lift_eq_raise {x : Res σ α} {put : σ → τ} {e : ErrKind} {t : τ} :
    x.lift put = .raise e t ↔ ∃ s, x = .raise e s ∧ put s = t := by
  cases x <;> simp [Res.lift]

/-- Every way a step can answer a next state: the operation completed, or it raised and the error was taken. -/
theorem conclude_eq_next {x : Res State Unit} {t : State} :
    conclude x = .next t ↔ x = .ok () t ∨ ∃ e s, x = .raise e s ∧ t = abort e s := by
  cases x <;> simp [conclude, eq_comm]

end Results

end Sys2Proof.Machine
end

