-- ==== Sys2Proof/Laws/Memory.lean ====
section
/-!
SUPPORT. The laws of byte memories and of node arrays: a read after a write, and that a write keeps the canonical form.
-/

namespace Sys2Proof.Machine

/-- Reading the address just written. -/
@[simp] theorem Memory.read_write_same (m : Memory) (a : Nat) (v : Byte) :
    Memory.read (Memory.write m a v) a = some v := by
  induction m with
  | nil => simp [Memory.write, Memory.read]
  | cons c m ih =>
    obtain ⟨j, w⟩ := c
    simp only [Memory.write]
    split
    · simp [Memory.read]
    · split
      · simp [Memory.read]
      · simp [Memory.read, *]

/-- A write leaves every other address as it was. -/
theorem Memory.read_write_ne (m : Memory) (a b : Nat) (v : Byte) (h : b ≠ a) :
    Memory.read (Memory.write m a v) b = Memory.read m b := by
  induction m with
  | nil => simp [Memory.write, Memory.read, h]
  | cons c m ih =>
    obtain ⟨j, w⟩ := c
    simp only [Memory.write]
    split
    · simp [Memory.read, h]
    · split
      · rename_i h2; subst h2; simp [Memory.read, h]
      · simp [Memory.read, ih]

/-- A read after a write, in one equation. -/
theorem Memory.read_write (m : Memory) (a b : Nat) (v : Byte) :
    Memory.read (Memory.write m a v) b = if b = a then some v else Memory.read m b := by
  split
  · next h => subst h; exact Memory.read_write_same m b v
  · next h => exact Memory.read_write_ne m a b v h

/-- The cells of a memory after a write: the written one, or cells that stood before. -/
theorem Memory.mem_write {m : Memory} {a : Nat} {v : Byte} {c : Host.Cell} (h : c ∈ Memory.write m a v) :
    c = (a, v) ∨ c ∈ m := by
  induction m with
  | nil => simp_all [Memory.write]
  | cons d m ih =>
    obtain ⟨j, w⟩ := d
    simp only [Memory.write] at h
    split at h
    · simpa using h
    · split at h
      · rcases List.mem_cons.mp h with h | h
        · exact .inl h
        · exact .inr (List.mem_cons_of_mem _ h)
      · rcases List.mem_cons.mp h with h | h
        · exact .inr (h ▸ List.mem_cons_self)
        · exact (ih h).imp_right (List.mem_cons_of_mem _)

/-- A write keeps the canonical form. -/
theorem Memory.wf_write {m : Memory} (hm : Memory.wf m) (a : Nat) (v : Byte) : Memory.wf (Memory.write m a v) := by
  induction m with
  | nil => simp [Memory.write, Memory.wf]
  | cons d m ih =>
    obtain ⟨j, w⟩ := d
    have hm' := List.pairwise_cons.mp hm
    simp only [Memory.write]
    split
    · next h =>
      refine List.pairwise_cons.mpr ⟨fun c hc => ?_, hm⟩
      rcases List.mem_cons.mp hc with rfl | hc
      · exact h
      · exact Nat.lt_trans h (hm'.1 c hc)
    · split
      · next h => subst h; exact List.pairwise_cons.mpr ⟨hm'.1, hm'.2⟩
      · next h1 h2 =>
        refine List.pairwise_cons.mpr ⟨fun c hc => ?_, ih hm'.2⟩
        rcases Memory.mem_write hc with rfl | hc
        · show j < a
          omega
        · exact hm'.1 c hc

/-- The memory of `State.reset` is canonical. -/
theorem reset_memories_wf : Memory.wf State.reset.inWin ∧ Memory.wf State.reset.hist.ring := by
  simp [State.reset, Memory.wf]

/-- A memory built from a byte list reads as that list. -/
theorem read_memoryFrom (a k : Nat) (vs : List Byte) (h : a ≤ k) :
    Memory.read (memoryFrom a vs) k = vs[k - a]? := by
  induction vs generalizing a with
  | nil => simp [memoryFrom, Memory.read]
  | cons v vs ih =>
    simp only [memoryFrom, Memory.read]
    split
    · next hk => subst hk; simp
    · next hk =>
      rw [ih (a + 1) (by omega), show k - a = (k - (a + 1)) + 1 by omega]
      simp

/-- A byte of the input window after a write of one (R32). -/
theorem inputByte_write (m : Memory) (a k : Nat) (v : Byte) :
    inputByte (Memory.write m a v) k = if k = a then v else inputByte m k := by
  simp only [inputByte, Memory.read_write]
  split <;> rfl

/-- A ring cell after a write of one (R30). -/
theorem ringByte_write (m : Memory) (a k : Nat) (v : Byte) :
    ringByte (Memory.write m a v) k = if k = a then v else ringByte m k := by
  simp only [ringByte, Memory.read_write]
  split <;> rfl

end Sys2Proof.Machine

namespace Sys2Proof

/-! ### Node arrays -/

theorem Cells.find_put_same (f : Nat) (t : Cells) (k w : Nat) (h0 : 1 ≤ k) (hf : k ≤ f) :
    (Cells.put f t k w).find k = some w := by
  induction f generalizing t k with
  | zero => omega
  | succ f ih =>
    simp only [Cells.put]
    split
    · next h => simp [Cells.find, h]
    · next h =>
      split
      · next h2 => simp [Cells.find, h, h2, ih t.even (k / 2) (by omega) (by omega)]
      · next h2 => simp [Cells.find, h, h2, ih t.odd (k / 2) (by omega) (by omega)]

/-- What an array part answers, by its value and its two parts. -/
theorem Cells.find_eq (t : Cells) (k : Nat) :
    t.find k = if k ≤ 1 then t.value else if k % 2 = 0 then t.even.find (k / 2) else t.odd.find (k / 2) := by
  cases t <;> simp [Cells.find, Cells.value, Cells.even, Cells.odd]

theorem Cells.find_put_ne (f : Nat) (t : Cells) (k j w : Nat) (hk : 1 ≤ k) (hj : 1 ≤ j) (h : j ≠ k) :
    (Cells.put f t k w).find j = t.find j := by
  induction f generalizing t k j with
  | zero => rfl
  | succ f ih =>
    rw [Cells.find_eq t j]
    simp only [Cells.put]
    split
    · simp only [Cells.find, if_neg (show ¬ j ≤ 1 by omega)]
    · split
      · simp only [Cells.find]
        split
        · rfl
        · split
          · exact ih t.even (k / 2) (j / 2) (by omega) (by omega) (by omega)
          · rfl
      · simp only [Cells.find]
        split
        · rfl
        · split
          · rfl
          · exact ih t.odd (k / 2) (j / 2) (by omega) (by omega) (by omega)

/-- Reading the cell just written. -/
theorem Cells.get_set_same (t : Cells) (k w : Nat) (h : 1 ≤ k) : (t.set k w).get k = some w := by
  have : k ≠ 0 := by omega
  simp [Cells.get, Cells.set, this, Cells.find_put_same k t k w h (Nat.le_refl k)]

/-- A write leaves every other cell as it was. -/
theorem Cells.get_set_ne (t : Cells) (k j w : Nat) (h : j ≠ k) : (t.set k w).get j = t.get j := by
  simp only [Cells.get, Cells.set]
  split
  · rfl
  · split
    · rfl
    · next hj hk =>
      exact Cells.find_put_ne k t k j w (Nat.pos_of_ne_zero hk) (Nat.pos_of_ne_zero hj) h

/-- A read after a write, in one equation. Index 0 has no cell. -/
theorem Cells.get_set (t : Cells) (k j w : Nat) :
    (t.set k w).get j = if j = k ∧ j ≠ 0 then some w else t.get j := by
  by_cases h : j = k
  · subst h
    by_cases h0 : j = 0
    · simp [h0, Cells.set]
    · simp [h0, Cells.get_set_same t j w (by omega)]
  · simp [h, Cells.get_set_ne t k j w h]

theorem Cells.find_map (f : Nat → Nat) (t : Cells) (k : Nat) : (t.map f).find k = (t.find k).map f := by
  induction t generalizing k with
  | nil => rfl
  | node v e o ihe iho =>
    simp only [Cells.map, Cells.find]
    split
    · rfl
    · split
      · exact ihe _
      · exact iho _

/-- Reading after a map. -/
@[simp] theorem Cells.get_map (f : Nat → Nat) (t : Cells) (k : Nat) : (t.map f).get k = (t.get k).map f := by
  simp only [Cells.get]
  split
  · rfl
  · exact Cells.find_map f t k

theorem Cells.find_fill (f : Nat → Nat) (hi d base stride k : Nat) (hk : 1 ≤ k) (hd : k ≤ d) (hs : 1 ≤ stride) :
    (Cells.fill f hi d base stride).find k
      = if base + stride * k ≤ hi then some (f (base + stride * k)) else none := by
  induction d generalizing base stride k with
  | zero => omega
  | succ d ih =>
    simp only [Cells.fill]
    have hsk : stride ≤ stride * k := Nat.le_mul_of_pos_right stride hk
    split
    · next h => rw [if_neg (by omega)]; rfl
    · next h =>
      simp only [Cells.find]
      split
      · next h1 =>
        have : k = 1 := by omega
        subst this
        simp [show base + stride ≤ hi by omega]
      · next h1 =>
        split
        · next h2 =>
          rw [ih base (2 * stride) (k / 2) (by omega) (by omega) (by omega)]
          have : 2 * stride * (k / 2) = stride * k := by
            rw [Nat.mul_comm 2 stride, Nat.mul_assoc]
            congr 1
            omega
          rw [this]
        · next h2 =>
          rw [ih (base + stride) (2 * stride) (k / 2) (by omega) (by omega) (by omega)]
          have : base + stride + 2 * stride * (k / 2) = base + stride * k := by
            have hk2 : k = 2 * (k / 2) + 1 := by omega
            have : stride * k = stride * (2 * (k / 2)) + stride := by
              conv_lhs => rw [hk2]
              rw [Nat.mul_add, Nat.mul_one]
            rw [this, ← Nat.mul_assoc, Nat.mul_comm 2 stride]
            omega
          rw [this]

/-- The cells of a freshly filled array: exactly `1..hi`. -/
theorem Cells.get_upTo (hi : Nat) (f : Nat → Nat) (k : Nat) :
    (Cells.upTo hi f).get k = if 1 ≤ k ∧ k ≤ hi then some (f k) else none := by
  simp only [Cells.get, Cells.upTo]
  split
  · next h => simp [h]
  · next h =>
    have h : 1 ≤ k := Nat.pos_of_ne_zero h
    by_cases hk : k ≤ hi
    · rw [Cells.find_fill f hi hi 0 1 k (by omega) hk (Nat.le_refl 1)]
      simp [hk, h]
    · rw [if_neg (by omega)]
      have hfind : ∀ d base stride k, 1 ≤ stride → 1 ≤ k → hi < base + stride * k →
          (Cells.fill f hi d base stride).find k = none := by
        intro d
        induction d with
        | zero => intros; rfl
        | succ d ih =>
          intro base stride k hs hk hlt
          simp only [Cells.fill]
          split
          · rfl
          · next h =>
            simp only [Cells.find]
            have hk1 : ¬ k ≤ 1 := by
              intro hk1
              have : k = 1 := by omega
              subst this
              omega
            rw [if_neg hk1]
            have hk2 : k = 2 * (k / 2) + k % 2 := by omega
            split
            · next h2 =>
              apply ih
              · omega
              · omega
              · rw [h2, Nat.add_zero] at hk2
                rw [hk2] at hlt
                rw [Nat.mul_comm 2 stride, Nat.mul_assoc]
                exact hlt
            · next h2 =>
              apply ih
              · omega
              · omega
              · have h1 : k % 2 = 1 := by omega
                rw [h1] at hk2
                rw [hk2, Nat.mul_add, ← Nat.mul_assoc, Nat.mul_comm stride 2] at hlt
                omega
      exact hfind hi 0 1 k (Nat.le_refl 1) (by omega) (by omega)

end Sys2Proof
end

