-- ==== Sys2Proof/Laws/Cursor.lean ====
section
/-!
SUPPORT. What `NEXTBIT` and `NEXTCODE` can do (R90, R92), said once.
-/

namespace Sys2Proof.Machine

/-- Everything `NEXTBIT` can do (R90): it delivers a buffered bit, it raises, or it pulls a byte. -/
theorem nextBit_cases (inp : Memory) (len : Nat) (c : BitCursor) :
    (c.bitcnt ≠ 0 ∧ nextBit inp len c
      = .ok (c.bitbuf.getLsbD 7) { c with bitbuf := c.bitbuf <<< 1, bitcnt := c.bitcnt - 1 }) ∨
    (c.bitcnt = 0 ∧ len ≤ c.pos ∧ nextBit inp len c = .raise .unexpectedEndOfStream c) ∨
    (c.bitcnt = 0 ∧ c.pos < len ∧ nextBit inp len c
      = .ok ((inputByte inp c.pos).getLsbD 7)
          { c with pos := c.pos + 1, bitbuf := inputByte inp c.pos <<< 1, bitcnt := 7 }) := by
  by_cases h0 : c.bitcnt = 0
  · by_cases hp : len ≤ c.pos
    · exact .inr (.inl ⟨h0, hp, by simp [nextBit, h0, hp]⟩)
    · exact .inr (.inr ⟨h0, Nat.lt_of_not_le hp, by simp [nextBit, takeBit, h0, hp]⟩)
  · exact .inl ⟨h0, by simp [nextBit, takeBit, h0]⟩

/-- Everything a completed `NEXTBIT` can do (R90): the bit comes from the buffer, or from the byte it pulled; the working
registers of `NEXTCODE` stay. -/
theorem nextBit_eq_ok {inp : Memory} {len : Nat} {c c' : BitCursor} {bit : Bool}
    (h : nextBit inp len c = .ok bit c') :
    (c.bitcnt ≠ 0 ∧ bit = c.bitbuf.getLsbD 7 ∧
      c' = { c with bitbuf := c.bitbuf <<< 1, bitcnt := c.bitcnt - 1 }) ∨
    (c.bitcnt = 0 ∧ c.pos < len ∧ bit = (inputByte inp c.pos).getLsbD 7 ∧
      c' = { c with pos := c.pos + 1, bitbuf := inputByte inp c.pos <<< 1, bitcnt := 7 }) := by
  rcases nextBit_cases inp len c with ⟨h0, e⟩ | ⟨-, -, e⟩ | ⟨h0, hp, e⟩ <;> rw [e] at h <;> cases h
  · exact .inl ⟨h0, rfl, rfl⟩
  · exact .inr ⟨h0, hp, rfl, rfl⟩

/-- `NEXTBIT` raises exactly when a bit is asked for with none buffered and the input exhausted, and leaves the cursor as
it was (R90). -/
theorem nextBit_eq_raise {inp : Memory} {len : Nat} {c c' : BitCursor} {e : ErrKind} :
    nextBit inp len c = .raise e c' ↔
      c.bitcnt = 0 ∧ len ≤ c.pos ∧ e = .unexpectedEndOfStream ∧ c' = c := by
  rcases nextBit_cases inp len c with ⟨h0, h⟩ | ⟨h0, hp, h⟩ | ⟨-, hp, h⟩ <;> rw [h]
  · simp [h0]
  · simp [h0, hp, eq_comm]
  · simp [Nat.not_le.mpr hp]

/-- `NEXTBIT` never refuses. -/
theorem nextBit_ne_refused {inp : Memory} {len : Nat} {c : BitCursor} {r : Refusal} :
    nextBit inp len c ≠ .refused r := by
  rcases nextBit_cases inp len c with ⟨-, h⟩ | ⟨-, -, h⟩ | ⟨-, -, h⟩ <;> rw [h] <;> exact nofun

/-- A completed `NEXTBIT` leaves the registers of `NEXTCODE`. -/
theorem nextBit_code_mask {inp : Memory} {len : Nat} {c c' : BitCursor} {bit : Bool}
    (h : nextBit inp len c = .ok bit c') : c'.code = c.code ∧ c'.mask = c.mask := by
  obtain ⟨-, -, rfl⟩ | ⟨-, -, -, rfl⟩ := nextBit_eq_ok h <;> exact ⟨rfl, rfl⟩

/-- A completed `NEXTBIT` leaves one bit fewer to deliver. -/
theorem nextBit_bitsLeft {inp : Memory} {len : Nat} {c c' : BitCursor} {bit : Bool}
    (h : nextBit inp len c = .ok bit c') : c'.bitsLeft len + 1 = c.bitsLeft len := by
  obtain ⟨h0, -, rfl⟩ | ⟨h0, hp, -, rfl⟩ := nextBit_eq_ok h
  · simp only [BitCursor.bitsLeft]; omega
  · simp only [BitCursor.bitsLeft, h0]; omega

/-- `NEXTBIT` raises only when no bit is left. -/
theorem nextBit_raise_bitsLeft {inp : Memory} {len : Nat} {c c' : BitCursor} {e : ErrKind}
    (h : nextBit inp len c = .raise e c') : c.bitsLeft len = 0 := by
  obtain ⟨h0, hp, -, -⟩ := nextBit_eq_raise.mp h
  simp only [BitCursor.bitsLeft]; omega

@[simp] theorem foldBit_pos (bit : Bool) (c : BitCursor) : (foldBit bit c).pos = c.pos := rfl
@[simp] theorem foldBit_bitbuf (bit : Bool) (c : BitCursor) : (foldBit bit c).bitbuf = c.bitbuf := rfl
@[simp] theorem foldBit_bitcnt (bit : Bool) (c : BitCursor) : (foldBit bit c).bitcnt = c.bitcnt := rfl
@[simp] theorem foldBit_code (bit : Bool) (c : BitCursor) :
    (foldBit bit c).code = if bit then c.code ||| c.mask else c.code := rfl
@[simp] theorem foldBit_mask (bit : Bool) (c : BitCursor) :
    (foldBit bit c).mask = (if bit then c.code ||| c.mask else c.code) <<< 1 := rfl
@[simp] theorem foldBit_bitsLeft (bit : Bool) (len : Nat) (c : BitCursor) :
    (foldBit bit c).bitsLeft len = c.bitsLeft len := rfl
@[simp] theorem foldBit_bitPos (bit : Bool) (c : BitCursor) : (foldBit bit c).bitPos = c.bitPos := rfl

@[simp] theorem nextCodeLoop_zero (inp : Memory) (len : Nat) (c : BitCursor) : nextCodeLoop inp len 0 c = .ok () c := rfl
theorem nextCodeLoop_succ (inp : Memory) (len n : Nat) (c : BitCursor) :
    nextCodeLoop inp len (n + 1) c
      = (nextBit inp len c).andThen fun bit c' => nextCodeLoop inp len n (foldBit bit c') := rfl

/-- The loop of `NEXTCODE`, completed, has consumed exactly its bits. -/
theorem nextCodeLoop_bitsLeft {inp : Memory} {len n : Nat} {c c' : BitCursor} {u : Unit}
    (h : nextCodeLoop inp len n c = .ok u c') : c'.bitsLeft len + n = c.bitsLeft len := by
  induction n generalizing c with
  | zero => simp only [nextCodeLoop_zero, Res.ok.injEq] at h; rw [h.2]; omega
  | succ n ih =>
    rw [nextCodeLoop_succ, Res.andThen_eq_ok] at h
    obtain ⟨bit, c1, h1, h2⟩ := h
    have := ih h2
    have := nextBit_bitsLeft h1
    simp only [foldBit_bitsLeft] at *
    omega

/-- The loop of `NEXTCODE` raises only the end of the stream, and only when fewer bits are left than it needs. -/
theorem nextCodeLoop_raise {inp : Memory} {len n : Nat} {c c' : BitCursor} {e : ErrKind}
    (h : nextCodeLoop inp len n c = .raise e c') : e = .unexpectedEndOfStream ∧ c.bitsLeft len < n := by
  induction n generalizing c with
  | zero => cases h
  | succ n ih =>
    rw [nextCodeLoop_succ, Res.andThen_eq_raise] at h
    obtain h | ⟨bit, c1, h1, h2⟩ := h
    · exact ⟨(nextBit_eq_raise.mp h).2.2.1, by have := nextBit_raise_bitsLeft h; omega⟩
    · obtain ⟨he, hl⟩ := ih h2
      have := nextBit_bitsLeft h1
      simp only [foldBit_bitsLeft] at hl
      exact ⟨he, by omega⟩

/-- `NEXTCODE` completes exactly when its loop does, and answers the `code` register (R92). -/
theorem nextCode_eq_ok {inp : Memory} {len n v : Nat} {c c' : BitCursor} :
    nextCode inp len n c = .ok v c' ↔
      n ≤ codeW ∧ nextCodeLoop inp len n { c with mask := 1, code := 0 } = .ok () c' ∧ v = c'.code := by
  simp only [nextCode]
  split
  · next h => simp [Nat.not_le.mpr h]
  · next h =>
    rw [Res.andThen_eq_ok]
    constructor
    · rintro ⟨⟨⟩, s, h1, h2⟩
      simp only [Res.ok.injEq] at h2
      obtain ⟨rfl, rfl⟩ := h2
      exact ⟨by omega, h1, rfl⟩
    · rintro ⟨-, h1, rfl⟩
      exact ⟨(), c', h1, rfl⟩

/-- `NEXTCODE` raises exactly when its loop does. -/
theorem nextCode_eq_raise {inp : Memory} {len n : Nat} {c c' : BitCursor} {e : ErrKind} :
    nextCode inp len n c = .raise e c' ↔
      n ≤ codeW ∧ nextCodeLoop inp len n { c with mask := 1, code := 0 } = .raise e c' := by
  simp only [nextCode]
  split
  · next h => simp [Nat.not_le.mpr h]
  · next h =>
    rw [Res.andThen_eq_raise]
    constructor
    · rintro (h1 | ⟨v, s, h1, h2⟩)
      · exact ⟨by omega, h1⟩
      · cases h2
    · rintro ⟨-, h1⟩
      exact .inl h1

/-- `NEXTCODE` on the state changes the cursor only. -/
theorem State.nextCode_eq_ok {s t : State} {n v : Nat} :
    s.nextCode n = .ok v t ↔
      ∃ c, Machine.nextCode s.inWin s.runLen n s.cursor = .ok v c ∧ t = s.withCursor c := by
  simp only [State.nextCode, Res.lift_eq_ok]
  exact exists_congr fun c => and_congr_right fun _ => eq_comm

/-- `NEXTCODE` on the state raises with only the cursor changed. -/
theorem State.nextCode_eq_raise {s t : State} {n : Nat} {e : ErrKind} :
    s.nextCode n = .raise e t ↔
      ∃ c, Machine.nextCode s.inWin s.runLen n s.cursor = .raise e c ∧ t = s.withCursor c := by
  simp only [State.nextCode, Res.lift_eq_raise]
  exact exists_congr fun c => and_congr_right fun _ => eq_comm

end Sys2Proof.Machine
end

