-- ==== Sys2Proof/Laws/History.lean ====
section
/-!
SUPPORT. What `APPENDLIT`, `APPLYCOPY` and the common copy rule can do (R130, R131, R144), said once.
-/

namespace Sys2Proof.Machine

@[simp] theorem appendLit_ring (size : Nat) (v : Byte) (h : HistoryRing) :
    (appendLit size v h).ring = Memory.write h.ring (h.count % size) v := rfl
@[simp] theorem appendLit_count (size : Nat) (v : Byte) (h : HistoryRing) :
    (appendLit size v h).count = h.count + 1 := rfl
@[simp] theorem appendLit_out (size : Nat) (v : Byte) (h : HistoryRing) :
    (appendLit size v h).out = h.out ++ [v] := rfl
@[simp] theorem appendLit_rd (size : Nat) (v : Byte) (h : HistoryRing) : (appendLit size v h).rd = h.rd := rfl
@[simp] theorem appendLit_i (size : Nat) (v : Byte) (h : HistoryRing) : (appendLit size v h).i = h.i := rfl

@[simp] theorem copyLoop_zero (size i : Nat) (h : HistoryRing) : copyLoop size 0 i h = h := rfl

theorem copyLoop_succ (size n i : Nat) (h : HistoryRing) :
    copyLoop size (n + 1) i h
      = copyLoop size n (i + 1) { appendLit size (ringByte h.ring h.rd) h with i := i, rd := (h.rd + 1) % size } := rfl

/-- What a copy loop does to `count` and to the length of `OUT`. -/
theorem copyLoop_count (size n i : Nat) (h : HistoryRing) :
    (copyLoop size n i h).count = h.count + n ∧ (copyLoop size n i h).out.length = h.out.length + n := by
  induction n generalizing i h with
  | zero => exact ⟨rfl, rfl⟩
  | succ n ih =>
    rw [copyLoop_succ]
    refine ⟨(ih _ _).1.trans ?_, (ih _ _).2.trans ?_⟩ <;> simp <;> omega

/-- A copy only appends to `OUT`. -/
theorem copyLoop_out_prefix (size n i : Nat) (h : HistoryRing) : h.out <+: (copyLoop size n i h).out := by
  induction n generalizing i h with
  | zero => exact List.prefix_rfl
  | succ n ih =>
    exact (List.prefix_append h.out [ringByte h.ring h.rd]).trans
      (ih (i + 1) { appendLit size (ringByte h.ring h.rd) h with i := i, rd := (h.rd + 1) % size })

/-- A copy keeps the canonical form of the ring. -/
theorem copyLoop_ring_wf (size n i : Nat) {h : HistoryRing} (hw : Memory.wf h.ring) :
    Memory.wf (copyLoop size n i h).ring := by
  induction n generalizing i h with
  | zero => exact hw
  | succ n ih => exact ih _ (Memory.wf_write hw _ _)

/-- Everything `APPLYCOPY` can do (R131, R133, R134). -/
theorem applyCopy_cases (size length distance : Nat) (h : HistoryRing) :
    ((distance = 0 ∨ size < distance) ∧
      applyCopy size length distance h = .refused (.copyOutsideDomain distance)) ∨
    (1 ≤ distance ∧ distance ≤ size ∧ h.count < distance ∧
      applyCopy size length distance h = .raise .invalidDistance h) ∨
    (1 ≤ distance ∧ distance ≤ size ∧ distance ≤ h.count ∧
      applyCopy size length distance h
        = .ok () (copyLoop size length 0 { h with rd := (h.count - distance) % size })) := by
  simp only [applyCopy]
  split
  · next hd => exact .inl ⟨hd, rfl⟩
  · next hd =>
    split
    · next hc => exact .inr (.inl ⟨by omega, by omega, hc, rfl⟩)
    · next hc => exact .inr (.inr ⟨by omega, by omega, by omega, rfl⟩)

/-- `APPLYCOPY` raises exactly when the distance exceeds `count` (R133), and then nothing has moved. -/
theorem applyCopy_eq_raise {size length distance : Nat} {h h' : HistoryRing} {e : ErrKind} :
    applyCopy size length distance h = .raise e h' ↔
      1 ≤ distance ∧ distance ≤ size ∧ h.count < distance ∧ e = .invalidDistance ∧ h' = h := by
  rcases applyCopy_cases size length distance h with ⟨hd, hc⟩ | ⟨h1, h2, h3, hc⟩ | ⟨h1, h2, h3, hc⟩
  · rw [hc]
    constructor
    · intro h; cases h
    · rintro ⟨h1, h2, -⟩; omega
  · rw [hc]; simp [h1, h2, h3, eq_comm]
  · rw [hc]
    constructor
    · intro hr; cases hr
    · rintro ⟨-, -, h4, -⟩; omega

/-- `APPLYCOPY` completes only within its domain, with a legal distance. -/
theorem applyCopy_eq_ok {size length distance : Nat} {h h' : HistoryRing} {u : Unit} :
    applyCopy size length distance h = .ok u h' ↔
      1 ≤ distance ∧ distance ≤ size ∧ distance ≤ h.count ∧
        h' = copyLoop size length 0 { h with rd := (h.count - distance) % size } := by
  rcases applyCopy_cases size length distance h with ⟨hd, hc⟩ | ⟨h1, h2, h3, hc⟩ | ⟨h1, h2, h3, hc⟩
  · rw [hc]
    constructor
    · intro h; cases h
    · rintro ⟨h1, h2, -⟩; omega
  · rw [hc]
    constructor
    · intro h; cases h
    · rintro ⟨-, -, h4, -⟩; omega
  · rw [hc]; simp [h1, h2, h3, eq_comm]

/-- `APPLYCOPY` on the state changes the history part only. -/
theorem State.applyCopy_eq_ok {s t : State} {length distance : Nat} {u : Unit} :
    s.applyCopy length distance = .ok u t ↔
      ∃ h, Machine.applyCopy s.cfg.historySize length distance s.hist = .ok () h ∧ t = s.withHist h := by
  simp only [State.applyCopy, Res.lift_eq_ok]
  exact exists_congr fun h => and_congr_right fun _ => eq_comm

/-- `APPLYCOPY` on the state raises with the state as it was, but for the history part it was given. -/
theorem State.applyCopy_eq_raise {s t : State} {length distance : Nat} {e : ErrKind} :
    s.applyCopy length distance = .raise e t ↔
      ∃ h, Machine.applyCopy s.cfg.historySize length distance s.hist = .raise e h ∧ t = s.withHist h := by
  simp only [State.applyCopy, Res.lift_eq_raise]
  exact exists_congr fun h => and_congr_right fun _ => eq_comm

/-- The working registers of the decode loop as `COPYr` leaves them (R144). -/
def copyDec (cfg : Cfg) (r : CopyRange) (length extra : Nat) (d : Decompressor) : Decompressor :=
  { d with r := r.index, length := length, extra := extra, distance := distanceOf cfg r length extra }

/-- Everything a completed `COPYr` has done (R144): `NEXTCODE` on the cursor, `APPLYCOPY` on the ring, the working registers,
and nothing else. -/
theorem copyInstr_eq_ok {r : CopyRange} {length : Nat} {s t : State} {u : Unit} :
    copyInstr r length s = .ok u t ↔
      ∃ extra c h,
        nextCode s.inWin s.runLen (s.cfg.copyBits.get r) s.cursor = .ok extra c ∧
        applyCopy s.cfg.historySize length (distanceOf s.cfg r length extra) s.hist = .ok () h ∧
        t = { s with cursor := c, hist := h, dec := copyDec s.cfg r length extra s.dec } := by
  simp only [copyInstr, Res.andThen_eq_ok, State.nextCode_eq_ok, State.applyCopy_eq_ok]
  constructor
  · rintro ⟨extra, s1, ⟨c, h1, rfl⟩, h, h2, rfl⟩
    exact ⟨extra, c, h, h1, h2, rfl⟩
  · rintro ⟨extra, c, h, h1, h2, rfl⟩
    exact ⟨extra, _, ⟨c, h1, rfl⟩, h, h2, rfl⟩

/-- Everything a raising `COPYr` can be (R166 (2)): the extra bits are missing, or they were read and the distance is
invalid. -/
theorem copyInstr_eq_raise {r : CopyRange} {length : Nat} {s t : State} {e : ErrKind} :
    copyInstr r length s = .raise e t ↔
      (∃ c, nextCode s.inWin s.runLen (s.cfg.copyBits.get r) s.cursor = .raise e c ∧
        t = { s with cursor := c, dec := { s.dec with r := r.index, length := length } }) ∨
      ∃ extra c h,
        nextCode s.inWin s.runLen (s.cfg.copyBits.get r) s.cursor = .ok extra c ∧
        applyCopy s.cfg.historySize length (distanceOf s.cfg r length extra) s.hist = .raise e h ∧
        t = { s with cursor := c, hist := h, dec := copyDec s.cfg r length extra s.dec } := by
  simp only [copyInstr, Res.andThen_eq_raise, State.nextCode_eq_raise, State.nextCode_eq_ok,
    State.applyCopy_eq_raise]
  constructor
  · rintro (⟨c, h1, rfl⟩ | ⟨extra, s1, ⟨c, h1, rfl⟩, h, h2, rfl⟩)
    · exact .inl ⟨c, h1, rfl⟩
    · exact .inr ⟨extra, c, h, h1, h2, rfl⟩
  · rintro (⟨c, h1, rfl⟩ | ⟨extra, c, h, h1, h2, rfl⟩)
    · exact .inl ⟨c, h1, rfl⟩
    · exact .inr ⟨extra, _, ⟨c, h1, rfl⟩, h, h2, rfl⟩

end Sys2Proof.Machine
end

