-- ==== Sys2Proof/Laws/Exec.lean ====
section
/-!
SUPPORT. The meanings of all instructions by their operands: a copy row's meaning is the common rule at the range and
the length of the row.
-/

namespace Sys2Proof.Machine

/-- The meaning of an instruction by its operands. -/
def execOp (op : Op) (s : State) : Host.Outcome State Fault Refusal :=
  match op with
  | .lit b => .next (s.withHist (appendLit s.cfg.historySize b s.hist))
  | .term => .next { s with status := .done, outLen := s.hist.count }
  | .copy r len => runCopy r len s

/-- Every row of the table means what its operands say. -/
theorem exec_eq_execOp (i : Instr) (s : State) : exec i s = execOp i.toOp s := by
  cases i <;> rfl

/-- A copy row, by its range and its length. -/
theorem exec_copy {i : Instr} {r : CopyRange} {len : Nat} (h : i.toOp = .copy r len) (s : State) :
    exec i s = runCopy r len s := by
  rw [exec_eq_execOp, h]; rfl

/-- Every copy row has a length of 3..64 (R79). -/
theorem copy_length_bounds {i : Instr} {r : CopyRange} {len : Nat} (h : i.toOp = .copy r len) :
    3 ≤ len ∧ len ≤ 64 := by
  cases i <;> cases h <;> decide

/-- The table's row for the operands of a row is that row. -/
theorem toDecoded_toOp (i : Instr) : i.toOp.toDecoded = .row i := by
  cases i <;> rfl

/-- A row is determined by its operands. -/
theorem toOp_injective {i j : Instr} (h : i.toOp = j.toOp) : i = j := by
  have := toDecoded_toOp i
  rw [h, toDecoded_toOp j] at this
  injection this with this
  exact this.symm

end Sys2Proof.Machine
end

