-- ==== Sys2Proof/Laws/Huffman.lean ====
section
/-!
SUPPORT. The laws of the Huffman arena: reading after a write of one link or weight, and what `PROPAGATE`, `PROMOTE`,
`RESCALE`, `UPDATE` and the walk can do, said once.
-/

namespace Sys2Proof.Machine

/-! ### One field under each write of a cell -/

@[simp] theorem setLeft_left (m : HuffmanModel) (n v : Nat) : (m.setLeft n v).left = m.left.set n v := rfl
@[simp] theorem setLeft_right (m : HuffmanModel) (n v : Nat) : (m.setLeft n v).right = m.right := rfl
@[simp] theorem setLeft_up (m : HuffmanModel) (n v : Nat) : (m.setLeft n v).up = m.up := rfl
@[simp] theorem setLeft_weight (m : HuffmanModel) (n v : Nat) : (m.setLeft n v).weight = m.weight := rfl
@[simp] theorem setLeft_a (m : HuffmanModel) (n v : Nat) : (m.setLeft n v).a = m.a := rfl
@[simp] theorem setLeft_b (m : HuffmanModel) (n v : Nat) : (m.setLeft n v).b = m.b := rfl
@[simp] theorem setLeft_ua (m : HuffmanModel) (n v : Nat) : (m.setLeft n v).ua = m.ua := rfl
@[simp] theorem setLeft_uua (m : HuffmanModel) (n v : Nat) : (m.setLeft n v).uua = m.uua := rfl
@[simp] theorem setLeft_p (m : HuffmanModel) (n v : Nat) : (m.setLeft n v).p = m.p := rfl
@[simp] theorem setLeft_x (m : HuffmanModel) (n v : Nat) : (m.setLeft n v).x = m.x := rfl
@[simp] theorem setLeft_nxt (m : HuffmanModel) (n v : Nat) : (m.setLeft n v).nxt = m.nxt := rfl
@[simp] theorem setLeft_n (m : HuffmanModel) (n v : Nat) : (m.setLeft n v).n = m.n := rfl
@[simp] theorem setRight_left (m : HuffmanModel) (n v : Nat) : (m.setRight n v).left = m.left := rfl
@[simp] theorem setRight_right (m : HuffmanModel) (n v : Nat) : (m.setRight n v).right = m.right.set n v := rfl
@[simp] theorem setRight_up (m : HuffmanModel) (n v : Nat) : (m.setRight n v).up = m.up := rfl
@[simp] theorem setRight_weight (m : HuffmanModel) (n v : Nat) : (m.setRight n v).weight = m.weight := rfl
@[simp] theorem setRight_a (m : HuffmanModel) (n v : Nat) : (m.setRight n v).a = m.a := rfl
@[simp] theorem setRight_b (m : HuffmanModel) (n v : Nat) : (m.setRight n v).b = m.b := rfl
@[simp] theorem setRight_ua (m : HuffmanModel) (n v : Nat) : (m.setRight n v).ua = m.ua := rfl
@[simp] theorem setRight_uua (m : HuffmanModel) (n v : Nat) : (m.setRight n v).uua = m.uua := rfl
@[simp] theorem setRight_p (m : HuffmanModel) (n v : Nat) : (m.setRight n v).p = m.p := rfl
@[simp] theorem setRight_x (m : HuffmanModel) (n v : Nat) : (m.setRight n v).x = m.x := rfl
@[simp] theorem setRight_nxt (m : HuffmanModel) (n v : Nat) : (m.setRight n v).nxt = m.nxt := rfl
@[simp] theorem setRight_n (m : HuffmanModel) (n v : Nat) : (m.setRight n v).n = m.n := rfl
@[simp] theorem setUp_left (m : HuffmanModel) (n v : Nat) : (m.setUp n v).left = m.left := rfl
@[simp] theorem setUp_right (m : HuffmanModel) (n v : Nat) : (m.setUp n v).right = m.right := rfl
@[simp] theorem setUp_up (m : HuffmanModel) (n v : Nat) : (m.setUp n v).up = m.up.set n v := rfl
@[simp] theorem setUp_weight (m : HuffmanModel) (n v : Nat) : (m.setUp n v).weight = m.weight := rfl
@[simp] theorem setUp_a (m : HuffmanModel) (n v : Nat) : (m.setUp n v).a = m.a := rfl
@[simp] theorem setUp_b (m : HuffmanModel) (n v : Nat) : (m.setUp n v).b = m.b := rfl
@[simp] theorem setUp_ua (m : HuffmanModel) (n v : Nat) : (m.setUp n v).ua = m.ua := rfl
@[simp] theorem setUp_uua (m : HuffmanModel) (n v : Nat) : (m.setUp n v).uua = m.uua := rfl
@[simp] theorem setUp_p (m : HuffmanModel) (n v : Nat) : (m.setUp n v).p = m.p := rfl
@[simp] theorem setUp_x (m : HuffmanModel) (n v : Nat) : (m.setUp n v).x = m.x := rfl
@[simp] theorem setUp_nxt (m : HuffmanModel) (n v : Nat) : (m.setUp n v).nxt = m.nxt := rfl
@[simp] theorem setUp_n (m : HuffmanModel) (n v : Nat) : (m.setUp n v).n = m.n := rfl
@[simp] theorem setWeight_left (m : HuffmanModel) (n v : Nat) : (m.setWeight n v).left = m.left := rfl
@[simp] theorem setWeight_right (m : HuffmanModel) (n v : Nat) : (m.setWeight n v).right = m.right := rfl
@[simp] theorem setWeight_up (m : HuffmanModel) (n v : Nat) : (m.setWeight n v).up = m.up := rfl
@[simp] theorem setWeight_weight (m : HuffmanModel) (n v : Nat) : (m.setWeight n v).weight = m.weight.set n v := rfl
@[simp] theorem setWeight_a (m : HuffmanModel) (n v : Nat) : (m.setWeight n v).a = m.a := rfl
@[simp] theorem setWeight_b (m : HuffmanModel) (n v : Nat) : (m.setWeight n v).b = m.b := rfl
@[simp] theorem setWeight_ua (m : HuffmanModel) (n v : Nat) : (m.setWeight n v).ua = m.ua := rfl
@[simp] theorem setWeight_uua (m : HuffmanModel) (n v : Nat) : (m.setWeight n v).uua = m.uua := rfl
@[simp] theorem setWeight_p (m : HuffmanModel) (n v : Nat) : (m.setWeight n v).p = m.p := rfl
@[simp] theorem setWeight_x (m : HuffmanModel) (n v : Nat) : (m.setWeight n v).x = m.x := rfl
@[simp] theorem setWeight_nxt (m : HuffmanModel) (n v : Nat) : (m.setWeight n v).nxt = m.nxt := rfl
@[simp] theorem setWeight_n (m : HuffmanModel) (n v : Nat) : (m.setWeight n v).n = m.n := rfl

/-! ### Reading after a write of a cell -/

theorem leftOf_setLeft (m : HuffmanModel) (n v k : Nat) :
    (m.setLeft n v).leftOf k = if k = n ∧ k ≠ 0 then v else m.leftOf k := by
  simp only [HuffmanModel.leftOf, setLeft_left, Cells.get_set]
  split <;> rfl
@[simp] theorem rightOf_setLeft (m : HuffmanModel) (n v k : Nat) : (m.setLeft n v).rightOf k = m.rightOf k := rfl
@[simp] theorem upOf_setLeft (m : HuffmanModel) (n v k : Nat) : (m.setLeft n v).upOf k = m.upOf k := rfl
@[simp] theorem weightOf_setLeft (m : HuffmanModel) (n v k : Nat) : (m.setLeft n v).weightOf k = m.weightOf k := rfl
@[simp] theorem leftOf_setRight (m : HuffmanModel) (n v k : Nat) : (m.setRight n v).leftOf k = m.leftOf k := rfl
theorem rightOf_setRight (m : HuffmanModel) (n v k : Nat) :
    (m.setRight n v).rightOf k = if k = n ∧ k ≠ 0 then v else m.rightOf k := by
  simp only [HuffmanModel.rightOf, setRight_right, Cells.get_set]
  split <;> rfl
@[simp] theorem upOf_setRight (m : HuffmanModel) (n v k : Nat) : (m.setRight n v).upOf k = m.upOf k := rfl
@[simp] theorem weightOf_setRight (m : HuffmanModel) (n v k : Nat) : (m.setRight n v).weightOf k = m.weightOf k := rfl
@[simp] theorem leftOf_setUp (m : HuffmanModel) (n v k : Nat) : (m.setUp n v).leftOf k = m.leftOf k := rfl
@[simp] theorem rightOf_setUp (m : HuffmanModel) (n v k : Nat) : (m.setUp n v).rightOf k = m.rightOf k := rfl
theorem upOf_setUp (m : HuffmanModel) (n v k : Nat) :
    (m.setUp n v).upOf k = if k = n ∧ k ≠ 0 then v else m.upOf k := by
  simp only [HuffmanModel.upOf, setUp_up, Cells.get_set]
  split <;> rfl
@[simp] theorem weightOf_setUp (m : HuffmanModel) (n v k : Nat) : (m.setUp n v).weightOf k = m.weightOf k := rfl
@[simp] theorem leftOf_setWeight (m : HuffmanModel) (n v k : Nat) : (m.setWeight n v).leftOf k = m.leftOf k := rfl
@[simp] theorem rightOf_setWeight (m : HuffmanModel) (n v k : Nat) : (m.setWeight n v).rightOf k = m.rightOf k := rfl
@[simp] theorem upOf_setWeight (m : HuffmanModel) (n v k : Nat) : (m.setWeight n v).upOf k = m.upOf k := rfl
theorem weightOf_setWeight (m : HuffmanModel) (n v k : Nat) :
    (m.setWeight n v).weightOf k = if k = n ∧ k ≠ 0 then v else m.weightOf k := by
  simp only [HuffmanModel.weightOf, setWeight_weight, Cells.get_set]
  split <;> rfl

@[simp] theorem childOf_true (m : HuffmanModel) (n : Nat) : m.childOf true n = m.rightOf n := rfl
@[simp] theorem childOf_false (m : HuffmanModel) (n : Nat) : m.childOf false n = m.leftOf n := rfl

/-! ### Another arena under the same working registers -/

@[simp] theorem withArena_toArena (m : HuffmanModel) (r : Arena) : (m.withArena r).toArena = r := rfl
@[simp] theorem withArena_a (m : HuffmanModel) (r : Arena) : (m.withArena r).a = m.a := rfl
@[simp] theorem withArena_b (m : HuffmanModel) (r : Arena) : (m.withArena r).b = m.b := rfl
@[simp] theorem withArena_ua (m : HuffmanModel) (r : Arena) : (m.withArena r).ua = m.ua := rfl
@[simp] theorem withArena_uua (m : HuffmanModel) (r : Arena) : (m.withArena r).uua = m.uua := rfl
@[simp] theorem withArena_p (m : HuffmanModel) (r : Arena) : (m.withArena r).p = m.p := rfl
@[simp] theorem withArena_x (m : HuffmanModel) (r : Arena) : (m.withArena r).x = m.x := rfl
@[simp] theorem withArena_nxt (m : HuffmanModel) (r : Arena) : (m.withArena r).nxt = m.nxt := rfl
@[simp] theorem withArena_n (m : HuffmanModel) (r : Arena) : (m.withArena r).n = m.n := rfl

/-- Links and weights are read from the arena alone. -/
theorem leftOf_arena {m m' : HuffmanModel} (h : m.toArena = m'.toArena) : m.leftOf = m'.leftOf := by
  funext n; simp only [HuffmanModel.leftOf, h]
theorem rightOf_arena {m m' : HuffmanModel} (h : m.toArena = m'.toArena) : m.rightOf = m'.rightOf := by
  funext n; simp only [HuffmanModel.rightOf, h]
theorem upOf_arena {m m' : HuffmanModel} (h : m.toArena = m'.toArena) : m.upOf = m'.upOf := by
  funext n; simp only [HuffmanModel.upOf, h]
theorem weightOf_arena {m m' : HuffmanModel} (h : m.toArena = m'.toArena) : m.weightOf = m'.weightOf := by
  funext n; simp only [HuffmanModel.weightOf, h]
theorem childOf_arena {m m' : HuffmanModel} (h : m.toArena = m'.toArena) : m.childOf = m'.childOf := by
  funext b n; simp only [HuffmanModel.childOf, leftOf_arena h, rightOf_arena h]

/-! ### The initial tree (R104) -/

theorem leftOf_huffInit (cfg : Cfg) (m : HuffmanModel) (n : Nat) :
    (huffInit cfg m).leftOf n = if 1 ≤ n ∧ n ≤ cfg.maxChar then 2 * n else NIL := by
  simp only [HuffmanModel.leftOf, huffInit, withArena_toArena, heapArena, Cells.get_upTo]
  split <;> rfl

theorem rightOf_huffInit (cfg : Cfg) (m : HuffmanModel) (n : Nat) :
    (huffInit cfg m).rightOf n = if 1 ≤ n ∧ n ≤ cfg.maxChar then 2 * n + 1 else NIL := by
  simp only [HuffmanModel.rightOf, huffInit, withArena_toArena, heapArena, Cells.get_upTo]
  split <;> rfl

theorem upOf_huffInit (cfg : Cfg) (m : HuffmanModel) (n : Nat) :
    (huffInit cfg m).upOf n = if 2 ≤ n ∧ n ≤ cfg.twiceMax then n / 2 else NIL := by
  simp only [HuffmanModel.upOf, huffInit, withArena_toArena, heapArena, Cells.get_upTo]
  by_cases h1 : n = 1
  · subst h1; split <;> simp
  · by_cases h0 : n = 0
    · subst h0; simp
    · have : (1 ≤ n ∧ n ≤ cfg.twiceMax) ↔ (2 ≤ n ∧ n ≤ cfg.twiceMax) := by omega
      simp only [this]
      split <;> simp_all

theorem weightOf_huffInit (cfg : Cfg) (m : HuffmanModel) (n : Nat) (h1 : 1 ≤ n) (h2 : n ≤ cfg.twiceMax) :
    (huffInit cfg m).weightOf n = 1 := by
  simp [HuffmanModel.weightOf, huffInit, heapArena, Cells.get_upTo, h1, h2]

/-! ### `PROPAGATE` (R111) -/

/-- Two models with the same links: the same children and the same parents. -/
structure SameLinks (m m' : HuffmanModel) : Prop where
  left : m'.left = m.left
  right : m'.right = m.right
  up : m'.up = m.up

theorem SameLinks.refl (m : HuffmanModel) : SameLinks m m := ⟨rfl, rfl, rfl⟩

theorem SameLinks.trans {m m' m'' : HuffmanModel} (h : SameLinks m m') (h' : SameLinks m' m'') : SameLinks m m'' :=
  ⟨h'.left.trans h.left, h'.right.trans h.right, h'.up.trans h.up⟩

theorem SameLinks.leftOf {m m' : HuffmanModel} (h : SameLinks m m') : m'.leftOf = m.leftOf := by
  funext n; simp only [HuffmanModel.leftOf, h.left]

theorem SameLinks.rightOf {m m' : HuffmanModel} (h : SameLinks m m') : m'.rightOf = m.rightOf := by
  funext n; simp only [HuffmanModel.rightOf, h.right]

theorem SameLinks.upOf {m m' : HuffmanModel} (h : SameLinks m m') : m'.upOf = m.upOf := by
  funext n; simp only [HuffmanModel.upOf, h.up]

theorem SameLinks.childOf {m m' : HuffmanModel} (h : SameLinks m m') : m'.childOf = m.childOf := by
  funext b n; cases b
  · exact congrFun h.leftOf n
  · exact congrFun h.rightOf n

/-- What one pass of `PROPAGATE`'s loop does (R111). -/
theorem propagateStep_links (m : HuffmanModel) : SameLinks m (propagateStep m) := ⟨rfl, rfl, rfl⟩
@[simp] theorem propagateStep_x (m : HuffmanModel) : (propagateStep m).x = m.upOf m.x := rfl
@[simp] theorem propagateStep_p (m : HuffmanModel) : (propagateStep m).p = m.upOf m.x := rfl
@[simp] theorem propagateStep_a (m : HuffmanModel) : (propagateStep m).a = m.a := rfl
@[simp] theorem propagateStep_b (m : HuffmanModel) : (propagateStep m).b = m.b := rfl
@[simp] theorem propagateStep_ua (m : HuffmanModel) : (propagateStep m).ua = m.ua := rfl
@[simp] theorem propagateStep_uua (m : HuffmanModel) : (propagateStep m).uua = m.uua := rfl
@[simp] theorem propagateStep_nxt (m : HuffmanModel) : (propagateStep m).nxt = m.nxt := rfl
@[simp] theorem propagateStep_n (m : HuffmanModel) : (propagateStep m).n = m.n := rfl
theorem propagateStep_weight (m : HuffmanModel) :
    (propagateStep m).weight
      = m.weight.set (m.upOf m.x) (m.weightOf (m.leftOf (m.upOf m.x)) + m.weightOf (m.rightOf (m.upOf m.x))) := rfl

theorem propagateLoop_root {f : Nat} {m : HuffmanModel} (h : m.x = ROOT) : propagateLoop f m = some m := by
  cases f <;> simp [propagateLoop, h]

theorem propagateLoop_step {f : Nat} {m : HuffmanModel} (h : m.x ≠ ROOT) :
    propagateLoop (f + 1) m = propagateLoop f (propagateStep m) := by
  simp [propagateLoop, h]

/-- An induction over the passes of a completed `PROPAGATE` loop: a relation that holds when no pass is made, and that one
pass in front keeps, holds between its start and its end. -/
theorem propagateLoop_induct {R : HuffmanModel → HuffmanModel → Prop}
    (done : ∀ m, m.x = ROOT → R m m)
    (pass : ∀ m m', m.x ≠ ROOT → R (propagateStep m) m' → R m m')
    {f : Nat} {m m' : HuffmanModel} (h : propagateLoop f m = some m') : R m m' := by
  induction f generalizing m with
  | zero =>
    simp only [propagateLoop] at h
    split at h
    · next hx => cases h; exact done _ hx
    · cases h
  | succ f ih =>
    by_cases hx : m.x = ROOT
    · rw [propagateLoop_root hx] at h; cases h; exact done _ hx
    · rw [propagateLoop_step hx] at h
      exact pass m m' hx (ih h)

/-- `PROPAGATE` writes weights only: the links and the other working registers stay, and its `x` ends at `ROOT`. -/
theorem propagateLoop_frame {f : Nat} {m m' : HuffmanModel} (h : propagateLoop f m = some m') :
    SameLinks m m' ∧ m'.x = ROOT ∧ m'.a = m.a ∧ m'.b = m.b ∧ m'.ua = m.ua ∧ m'.uua = m.uua ∧ m'.nxt = m.nxt ∧
      m'.n = m.n := by
  refine propagateLoop_induct
    (R := fun m m' => SameLinks m m' ∧ m'.x = ROOT ∧ m'.a = m.a ∧ m'.b = m.b ∧ m'.ua = m.ua ∧ m'.uua = m.uua ∧
      m'.nxt = m.nxt ∧ m'.n = m.n) ?_ ?_ h
  · intro m hx; exact ⟨SameLinks.refl m, hx, rfl, rfl, rfl, rfl, rfl, rfl⟩
  · rintro m m' - ⟨hl, hx, h1, h2, h3, h4, h5, h6⟩
    exact ⟨(propagateStep_links m).trans hl, hx, h1, h2, h3, h4, h5, h6⟩

/-- `PROPAGATE` completes when following `up` reaches `ROOT` within the fuel. -/
theorem propagateLoop_isSome {f k : Nat} {m : HuffmanModel} (hk : k ≤ f) (h : m.upOf^[k] m.x = ROOT) :
    ∃ m', propagateLoop f m = some m' := by
  induction f generalizing k m with
  | zero =>
    have : k = 0 := by omega
    subst this
    exact ⟨m, propagateLoop_root h⟩
  | succ f ih =>
    by_cases hx : m.x = ROOT
    · exact ⟨m, propagateLoop_root hx⟩
    · rw [propagateLoop_step hx]
      cases k with
      | zero => exact absurd h hx
      | succ k =>
        refine ih (k := k) (by omega) ?_
        rw [(propagateStep_links m).upOf, propagateStep_x]
        exact h

/-- `PROPAGATE` writes the weights of proper ancestors only. -/
theorem propagateLoop_weight_other {f : Nat} {m m' : HuffmanModel} (h : propagateLoop f m = some m') {n : Nat}
    (hn : ∀ k, m.upOf^[k + 1] m.x ≠ n) : m'.weight.get n = m.weight.get n := by
  refine propagateLoop_induct
    (R := fun m m' => (∀ k, m.upOf^[k + 1] m.x ≠ n) → m'.weight.get n = m.weight.get n) ?_ ?_ h hn
  · intro m _ _; rfl
  · intro m m' _ ih hn
    rw [ih ?_, propagateStep_weight, Cells.get_set_ne]
    · exact fun e => hn 0 e.symm
    · intro k
      rw [(propagateStep_links m).upOf, propagateStep_x]
      exact hn (k + 1)

/-- A weight cell that exists still exists after `PROPAGATE`. -/
theorem propagateLoop_weight_isSome {f : Nat} {m m' : HuffmanModel} (h : propagateLoop f m = some m') {n : Nat}
    (hn : (m.weight.get n).isSome) : (m'.weight.get n).isSome := by
  refine propagateLoop_induct
    (R := fun m m' => (m.weight.get n).isSome → (m'.weight.get n).isSome) ?_ ?_ h hn
  · intro m _ h; exact h
  · intro m m' _ ih h
    refine ih ?_
    rw [propagateStep_weight, Cells.get_set]
    split
    · rfl
    · exact h

/-! ### `PROMOTE` (R112) -/

@[simp] theorem locateUncle_links (m : HuffmanModel) : SameLinks m (locateUncle m) := ⟨rfl, rfl, rfl⟩
@[simp] theorem locateUncle_uua (m : HuffmanModel) : (locateUncle m).uua = m.upOf m.ua := rfl
@[simp] theorem locateUncle_ua (m : HuffmanModel) : (locateUncle m).ua = m.ua := rfl
@[simp] theorem locateUncle_a (m : HuffmanModel) : (locateUncle m).a = m.a := rfl
@[simp] theorem locateUncle_weight (m : HuffmanModel) : (locateUncle m).weight = m.weight := rfl
theorem locateUncle_b (m : HuffmanModel) :
    (locateUncle m).b
      = if m.leftOf (m.upOf m.ua) = m.ua then m.rightOf (m.upOf m.ua) else m.leftOf (m.upOf m.ua) := rfl

@[simp] theorem climb_links (m : HuffmanModel) : SameLinks m (climb m) := ⟨rfl, rfl, rfl⟩
@[simp] theorem climb_a (m : HuffmanModel) : (climb m).a = m.upOf m.a := rfl
@[simp] theorem climb_ua (m : HuffmanModel) : (climb m).ua = m.upOf (m.upOf m.a) := rfl
@[simp] theorem climb_weight (m : HuffmanModel) : (climb m).weight = m.weight := rfl

/-- An exchange moves links only; weights and working registers stay. -/
theorem exchangeLinks_frame (m : HuffmanModel) :
    (exchangeLinks m).weight = m.weight ∧ (exchangeLinks m).a = m.a ∧ (exchangeLinks m).b = m.b ∧
      (exchangeLinks m).ua = m.ua ∧ (exchangeLinks m).uua = m.uua ∧ (exchangeLinks m).nxt = m.nxt ∧
      (exchangeLinks m).n = m.n := by
  simp only [exchangeLinks]
  split <;> split <;> exact ⟨rfl, rfl, rfl, rfl, rfl, rfl, rfl⟩

/-- The parents after an exchange: `a` is below `uua`, `b` below `ua`, every other node where it was. -/
theorem upOf_exchangeLinks (m : HuffmanModel) (k : Nat) (ha : m.a ≠ 0) (hb : m.b ≠ 0) :
    (exchangeLinks m).upOf k = if k = m.a then m.uua else if k = m.b then m.ua else m.upOf k := by
  have h : ∀ m2 : HuffmanModel, m2.upOf = m.upOf →
      ((m2.setUp m.b m.ua).setUp m.a m.uua).upOf k
        = if k = m.a then m.uua else if k = m.b then m.ua else m.upOf k := by
    intro m2 h2
    rw [upOf_setUp, upOf_setUp, h2]
    by_cases h1 : k = m.a
    · simp [h1, ha]
    · by_cases h3 : k = m.b
      · simp [h3, hb]
      · simp [h1, h3]
  simp only [exchangeLinks]
  split <;> split <;> exact h _ rfl

/-- The exchange happens exactly when `a` is strictly heavier than its uncle; equal weights do not exchange (R112). -/
theorem exchangeIfHeavier_eq_some {cfg : Cfg} {m m' : HuffmanModel} :
    exchangeIfHeavier cfg m = some m' ↔
      (m.weightOf m.b < m.weightOf m.a ∧
        ∃ m1, propagate cfg m.b (exchangeLinks m) = some m1 ∧ m' = { m1 with a := m1.b }) ∨
      (m.weightOf m.a ≤ m.weightOf m.b ∧ m' = m) := by
  simp only [exchangeIfHeavier]
  split
  · next h =>
    simp only [Option.map_eq_some_iff, h, true_and, Nat.not_le.mpr h, false_and, or_false]
    exact exists_congr fun m1 => and_congr_right fun _ => eq_comm
  · next h => simp [h, Nat.le_of_not_lt h, eq_comm]

/-- An induction over the passes of a completed `PROMOTE` loop, from its end. -/
theorem promoteLoop_induct {cfg : Cfg} {R : HuffmanModel → HuffmanModel → Prop}
    (last : ∀ m m1, exchangeIfHeavier cfg (locateUncle m) = some m1 → (climb m1).ua = ROOT → R m (climb m1))
    (pass : ∀ m m1 m', exchangeIfHeavier cfg (locateUncle m) = some m1 → (climb m1).ua ≠ ROOT →
      R (climb m1) m' → R m m')
    {f : Nat} {m m' : HuffmanModel} (h : promoteLoop cfg f m = some m') : R m m' := by
  induction f generalizing m with
  | zero => cases h
  | succ f ih =>
    simp only [promoteLoop] at h
    split at h
    · cases h
    · next m1 h1 =>
      split at h
      · next hr => cases h; exact last m m1 h1 hr
      · next hr => exact pass m m1 m' h1 hr (ih h)

/-! ### `RESCALE` and `UPDATE` (R113, R110) -/

theorem halve_eq (w : Nat) : halve w = max 1 (w / 2) := by
  simp [halve, Nat.shiftRight_eq_div_pow]

theorem halve_pos (w : Nat) : 1 ≤ halve w := Nat.le_max_left _ _

/-- `RESCALE` leaves the links (R113). -/
theorem rescale_links (cfg : Cfg) (m : HuffmanModel) : SameLinks m (rescale cfg m) := by
  simp only [rescale]
  split <;> exact ⟨rfl, rfl, rfl⟩

/-- The weight cells after `RESCALE` (R113). -/
theorem rescale_weight (cfg : Cfg) (m : HuffmanModel) (n : Nat) :
    (rescale cfg m).weight.get n
      = if cfg.maxFrequency ≤ m.weightOf ROOT then (m.weight.get n).map halve else m.weight.get n := by
  simp only [rescale]
  split <;> simp

/-- A completed `UPDATE` is its four steps (R110). -/
theorem update_eq_some {cfg : Cfg} {a : Nat} {m m' : HuffmanModel} :
    update cfg a m = some m' ↔
      ∃ m1 m2, propagate cfg a (m.setWeight a (m.weightOf a + 1)) = some m1 ∧ promote cfg a m1 = some m2 ∧
        m' = rescale cfg m2 := by
  simp only [update]
  split
  · next h => simp [h]
  · next m1 h =>
    split
    · next h2 => simp [h, h2]
    · next m2 h2 => simp [h, h2, eq_comm]

/-! ### The walk (R100) -/

theorem walk_leaf {cfg : Cfg} {inp : Memory} {len f : Nat} {m : HuffmanModel} {c : BitCursor}
    (h : cfg.successMax ≤ m.a) : walk cfg inp len (f + 1) m c = .ok () (m, c) := by
  simp [walk, Nat.not_lt.mpr h]

theorem walk_internal {cfg : Cfg} {inp : Memory} {len f : Nat} {m : HuffmanModel} {c c1 : BitCursor} {bit : Bool}
    (h : m.a < cfg.successMax) (hb : nextBit inp len c = .ok bit c1) :
    walk cfg inp len (f + 1) m c
      = if m.childOf bit m.a = NIL then .raise .invalidHuffmanCode ({ m with nxt := m.childOf bit m.a }, c1)
        else walk cfg inp len f { m with nxt := m.childOf bit m.a, a := m.childOf bit m.a } c1 := by
  simp [walk, h, hb]

/-- The walk changes the cursor and the registers `a` and `nxt`; a completed walk stands on a leaf. -/
theorem walk_eq_ok {cfg : Cfg} {inp : Memory} {len f : Nat} {m : HuffmanModel} {c : BitCursor} {u : Unit}
    {m' : HuffmanModel} {c' : BitCursor} (h : walk cfg inp len f m c = .ok u (m', c')) :
    cfg.successMax ≤ m'.a ∧ m' = { m with a := m'.a, nxt := m'.nxt } ∧ c'.code = c.code ∧ c'.mask = c.mask ∧
      c'.bitsLeft len ≤ c.bitsLeft len ∧ (m.a < cfg.successMax → c'.bitsLeft len < c.bitsLeft len) := by
  induction f generalizing m c with
  | zero => cases h
  | succ f ih =>
    by_cases hl : m.a < cfg.successMax
    · simp only [walk, if_pos hl] at h
      split at h
      · next bit c1 hb =>
        split at h
        · cases h
        · obtain ⟨h1, h2, h3, h4, h5, -⟩ := ih h
          obtain ⟨h6, h7⟩ := nextBit_code_mask hb
          have := nextBit_bitsLeft hb
          refine ⟨h1, ?_, h3.trans h6, h4.trans h7, by omega, fun _ => by omega⟩
          rw [h2]
      · cases h
      · cases h
    · rw [walk_leaf (Nat.le_of_not_lt hl)] at h
      cases h
      exact ⟨Nat.le_of_not_lt hl, rfl, rfl, rfl, Nat.le_refl _, fun h => absurd h hl⟩

/-- The walk never refuses. -/
theorem walk_ne_refused {cfg : Cfg} {inp : Memory} {len f : Nat} {m : HuffmanModel} {c : BitCursor} {r : Refusal} :
    walk cfg inp len f m c ≠ .refused r := by
  induction f generalizing m c with
  | zero => simp [walk]
  | succ f ih =>
    simp only [walk]
    split
    · split
      · split
        · simp
        · exact ih
      · simp
      · next h => exact absurd h nextBit_ne_refused
    · simp

/-- Everything a completed `DECODESYM` has done (R100): the walk, then `UPDATE` of its leaf. -/
theorem decodeSym_eq_ok {hp : HuffParams} {s t : State} {sym : Nat} :
    decodeSym hp s = .ok sym t ↔
      ∃ m c m', s.walk = .ok () (m, c) ∧ hp.update s.cfg m.a m = some m' ∧ sym = m.a - s.cfg.successMax ∧
        t = { s with cursor := c, model := m', dec := { s.dec with sym := sym } } := by
  simp only [decodeSym]
  constructor
  · intro h
    split at h
    · next m c hw =>
      split at h
      · next m' hu =>
        simp only [Res.ok.injEq] at h
        obtain ⟨rfl, rfl⟩ := h
        exact ⟨m, c, m', hw, hu, rfl, rfl⟩
      · cases h
    · cases h
    · cases h
  · rintro ⟨m, c, m', hw, hu, rfl, rfl⟩
    simp only [hw, hu]
    rfl

/-- `DECODESYM` raises exactly when its walk does; `UPDATE` has then not run (R100). -/
theorem decodeSym_eq_raise {hp : HuffParams} {s t : State} {e : ErrKind} :
    decodeSym hp s = .raise e t ↔ ∃ m c, s.walk = .raise e (m, c) ∧ t = { s with cursor := c, model := m } := by
  simp only [decodeSym]
  constructor
  · intro h
    split at h
    · split at h <;> cases h
    · next e' m c hw =>
      simp only [Res.raise.injEq] at h
      obtain ⟨rfl, rfl⟩ := h
      exact ⟨m, c, hw, rfl⟩
    · cases h
  · rintro ⟨m, c, hw, rfl⟩
    simp only [hw]
    rfl

/-- A completed `DECODESYM` leaves everything but the cursor, the arena part and `sym`. -/
theorem decodeSym_frame {hp : HuffParams} {s t : State} {sym : Nat} (h : decodeSym hp s = .ok sym t) :
    t.hist = s.hist ∧ t.status = s.status ∧ t.errcode = s.errcode ∧ t.inLen = s.inLen ∧ t.outLen = s.outLen ∧
      t.cfgRegs = s.cfgRegs ∧ t.inWin = s.inWin ∧ t.cfg = s.cfg ∧ t.runLen = s.runLen ∧
      t.hostQueue = s.hostQueue ∧ t.hostData = s.hostData ∧ t.freeCount = s.freeCount ∧
      t.dec = { s.dec with sym := sym } := by
  obtain ⟨m, c, m', -, -, -, rfl⟩ := decodeSym_eq_ok.mp h
  exact ⟨rfl, rfl, rfl, rfl, rfl, rfl, rfl, rfl, rfl, rfl, rfl, rfl, rfl⟩

end Sys2Proof.Machine
end

