-- ==== Sys2Proof/Laws/Tree.lean ====
section
/-!
SUPPORT. Facts about a full tree (R27): no cycles, the bound on depths, and that re-hanging a node and its uncle keeps
the tree full (R115). Facts about a well-formed tree: the code of a symbol leads to its leaf (R71), and what the walk
can do.
-/

namespace Sys2Proof.Machine

theorem upOf_zero (m : HuffmanModel) : m.upOf 0 = NIL := by simp [HuffmanModel.upOf, Cells.get]

theorem iterate_upOf_zero (m : HuffmanModel) (k : Nat) : m.upOf^[k] 0 = 0 :=
  Function.iterate_fixed (upOf_zero m) k

namespace FullTree

variable {cfg : Cfg} {m m' : HuffmanModel}

/-- A model with the same links and all weight cells is a full tree too. -/
theorem of_sameLinks (h : FullTree cfg m) (hl : SameLinks m m')
    (hw : ∀ n, (m.weight.get n).isSome → (m'.weight.get n).isSome) : FullTree cfg m' where
  weights n h1 h2 := hw n (h.weights n h1 h2)
  root := by rw [hl.upOf]; exact h.root
  children := by rw [hl.childOf, hl.upOf]; exact h.children
  distinct := by rw [hl.leftOf, hl.rightOf]; exact h.distinct
  parents := by rw [hl.upOf, hl.leftOf, hl.rightOf]; exact h.parents
  reaches := by rw [hl.upOf]; exact h.reaches

/-- A node that is not the root has a parent, which is internal. -/
theorem parent_internal (h : FullTree cfg m) {n : Nat} (h1 : ROOT < n) (h2 : n ≤ cfg.twiceMax) :
    1 ≤ m.upOf n ∧ m.upOf n ≤ cfg.maxChar :=
  ⟨(h.parents n h2 h1).1, (h.parents n h2 h1).2.1⟩

/-- No node is its own proper ancestor (R27 (c)). -/
theorem acyclic (h : FullTree cfg m) {n : Nat} (h1 : 1 ≤ n) (h2 : n ≤ cfg.twiceMax) (i : Nat) :
    m.upOf^[i + 1] n ≠ n := by
  intro hcycle
  obtain ⟨k, hk⟩ := h.reaches n h2 h1
  have hM : ∀ M, m.upOf^[(i + 1) * M] n = n := by
    intro M
    rw [Function.iterate_mul]
    exact Function.iterate_fixed hcycle M
  have hz : m.upOf^[(i + 1) * (k + 1)] n = 0 := by
    have : (i + 1) * (k + 1) = (i * (k + 1)) + 1 + k := by ring
    rw [this, Function.iterate_add_apply, hk, Function.iterate_add_apply, Function.iterate_one]
    rw [show m.upOf ROOT = 0 from h.root]
    exact iterate_upOf_zero m _
  rw [hM] at hz
  omega

/-- Every node below the root reaches it within `maxChar` steps (R76, R114). -/
theorem depth_le (h : FullTree cfg m) {n : Nat} (h1 : 1 ≤ n) (h2 : n ≤ cfg.twiceMax) :
    ∃ k ≤ cfg.maxChar, m.upOf^[k] n = ROOT ∧ ∀ j < k, m.upOf^[j] n ≠ ROOT := by
  classical
  have hex := h.reaches n h2 h1
  let k := Nat.find hex
  have hk : m.upOf^[k] n = ROOT := Nat.find_spec hex
  have hmin : ∀ j < k, m.upOf^[j] n ≠ ROOT := fun j hj => Nat.find_min hex hj
  have hnode : ∀ j ≤ k, ROOT ≤ m.upOf^[j] n ∧ m.upOf^[j] n ≤ cfg.twiceMax := by
    intro j
    induction j with
    | zero => intro _; exact ⟨h1, h2⟩
    | succ j ih =>
      intro hj
      obtain ⟨h3, h4⟩ := ih (by omega)
      have hne := hmin j (by omega)
      rw [Function.iterate_succ_apply']
      have := h.parent_internal (n := m.upOf^[j] n) (by omega) h4
      exact ⟨this.1, by have := this.2; simp only [Cfg.twiceMax]; omega⟩
  have hint : ∀ j, 1 ≤ j → j ≤ k → 1 ≤ m.upOf^[j] n ∧ m.upOf^[j] n ≤ cfg.maxChar := by
    intro j hj1 hjk
    obtain ⟨i, rfl⟩ : ∃ i, j = i + 1 := ⟨j - 1, by omega⟩
    obtain ⟨h3, h4⟩ := hnode i (by omega)
    have hne := hmin i (by omega)
    rw [Function.iterate_succ_apply']
    exact h.parent_internal (by omega) h4
  have hinj : ∀ i j, i < j → j ≤ k → m.upOf^[i] n ≠ m.upOf^[j] n := by
    intro i j hij hjk heq
    refine hmin (k - j + i) (by omega) ?_
    rw [Function.iterate_add_apply, heq, ← Function.iterate_add_apply, Nat.sub_add_cancel hjk]
    exact hk
  refine ⟨k, ?_, hk, hmin⟩
  have hcard : (Finset.Icc 1 k).card ≤ (Finset.Icc 1 cfg.maxChar).card := by
    refine Finset.card_le_card_of_injOn (fun j => m.upOf^[j] n) ?_ ?_
    · intro j hj
      have hj := Finset.mem_coe.mp hj
      rw [Finset.mem_Icc] at hj
      exact Finset.mem_coe.mpr (Finset.mem_Icc.mpr (hint j hj.1 hj.2))
    · intro i hi j hj heq
      have hi := Finset.mem_Icc.mp (Finset.mem_coe.mp hi)
      have hj := Finset.mem_Icc.mp (Finset.mem_coe.mp hj)
      rcases Nat.lt_trichotomy i j with hlt | heq' | hgt
      · exact absurd heq (hinj i j hlt hj.2)
      · exact heq'
      · exact absurd heq.symm (hinj j i hgt hi.2)
  simpa using hcard

/-- `PROPAGATE` from any node of a full tree completes, and the tree stays full (R111, R114). -/
theorem propagate (h : FullTree cfg m) {x : Nat} (h1 : 1 ≤ x) (h2 : x ≤ cfg.twiceMax) :
    ∃ m', Machine.propagate cfg x m = some m' ∧ FullTree cfg m' := by
  obtain ⟨k, hk, hr, -⟩ := h.depth_le h1 h2
  obtain ⟨m', hm⟩ := propagateLoop_isSome (m := { m with x := x }) (f := cfg.twiceMax) (k := k)
    (by simp only [Cfg.twiceMax]; omega) hr
  refine ⟨m', hm, ?_⟩
  have hf : FullTree cfg { m with x := x } := h.of_sameLinks ⟨rfl, rfl, rfl⟩ fun _ h => h
  exact hf.of_sameLinks (propagateLoop_frame hm).1 fun n hn => propagateLoop_weight_isSome hm hn

end FullTree

/-- The uncle of a node whose parent is not the root (R112): with `ua` the parent of `a`, `uua` the parent of `ua`, and `b`
the child of `uua` other than `ua`. -/
structure UncleOf (cfg : Cfg) (m : HuffmanModel) : Prop where
  node : ROOT < m.a ∧ m.a ≤ cfg.twiceMax
  ua_eq : m.ua = m.upOf m.a
  ua_ne : m.ua ≠ ROOT
  uua_eq : m.uua = m.upOf m.ua
  b_eq : m.b = m.uncle

namespace UncleOf

variable {cfg : Cfg} {m : HuffmanModel}

/-- What the five nodes of an exchange are to each other. -/
theorem facts (h : UncleOf cfg m) (ht : FullTree cfg m) :
    (1 ≤ m.ua ∧ m.ua ≤ cfg.maxChar) ∧ (1 ≤ m.uua ∧ m.uua ≤ cfg.maxChar) ∧
      (ROOT < m.b ∧ m.b ≤ cfg.twiceMax) ∧ m.upOf m.b = m.uua ∧ m.b ≠ m.ua ∧ m.b ≠ m.a ∧ m.uua ≠ m.ua ∧
      m.uua ≠ m.a ∧ m.ua ≠ m.a ∧ m.uua ≠ m.b := by
  have hua := ht.parent_internal h.node.1 h.node.2
  rw [← h.ua_eq] at hua
  have hT : m.ua ≤ cfg.twiceMax := by simp only [Cfg.twiceMax]; omega
  have hne : ROOT < m.ua := lt_of_le_of_ne hua.1 (Ne.symm h.ua_ne)
  have huua := ht.parent_internal (n := m.ua) hne hT
  rw [← h.uua_eq] at huua
  have hb : (ROOT < m.b ∧ m.b ≤ cfg.twiceMax) ∧ m.upOf m.b = m.uua ∧ m.b ≠ m.ua := by
    have hl := ht.children m.uua huua.2 huua.1 false
    have hr := ht.children m.uua huua.2 huua.1 true
    have hd := ht.distinct m.uua huua.2 huua.1
    simp only [childOf_false, childOf_true] at hl hr
    rw [h.b_eq]
    simp only [HuffmanModel.uncle]
    split
    · next he => exact ⟨⟨hr.1, hr.2.1⟩, hr.2.2, fun e => hd (he.trans e.symm)⟩
    · next he => exact ⟨⟨hl.1, hl.2.1⟩, hl.2.2, he⟩
  have h2 : m.upOf^[1] m.a = m.ua := h.ua_eq.symm
  have h3 : m.upOf^[2] m.a = m.uua := by
    show m.upOf (m.upOf m.a) = m.uua
    rw [← h.ua_eq, ← h.uua_eq]
  have hba : m.b ≠ m.a := by
    intro e
    have := hb.2.1
    rw [e, ← h.ua_eq] at this
    refine ht.acyclic (n := m.ua) hua.1 hT 0 ?_
    show m.upOf m.ua = m.ua
    rw [← h.uua_eq, ← this]
  refine ⟨hua, huua, hb.1, hb.2.1, hb.2.2, hba, ?_, ?_, ?_, ?_⟩
  · intro e
    exact ht.acyclic (n := m.ua) hua.1 hT 0 (show m.upOf m.ua = m.ua by rw [← h.uua_eq, e])
  · intro e
    exact ht.acyclic (n := m.a) (by have := h.node.1; omega) h.node.2 1 (h3.trans e)
  · intro e
    exact ht.acyclic (n := m.a) (by have := h.node.1; omega) h.node.2 0 (h2.trans e)
  · intro e
    have hb0 := hb.1.1
    exact ht.acyclic (n := m.b) (by omega) hb.1.2 0 (hb.2.1.trans e)

/-- The children after an exchange: `a` where `b` was under `uua`, `b` where `a` was under `ua`, all others as before. -/
theorem children_exchange (h : UncleOf cfg m) (ht : FullTree cfg m) (bit : Bool) (n : Nat) :
    (exchangeLinks m).childOf bit n
      = if n = m.uua ∧ m.childOf bit n = m.b then m.a
        else if n = m.ua ∧ m.childOf bit n = m.a then m.b
        else m.childOf bit n := by
  obtain ⟨hua, huua, hb, hupb, hbua, hba, h1, h2, h3, h4⟩ := h.facts ht
  have huaT : m.ua ≤ cfg.twiceMax := by simp only [Cfg.twiceMax]; omega
  -- the children of `uua` are `ua` and `b`; one child of `ua` is `a`
  have hpu := (ht.parents m.ua huaT (lt_of_le_of_ne hua.1 (Ne.symm h.ua_ne))).2.2
  rw [← h.uua_eq] at hpu
  have hpa := (ht.parents m.a h.node.2 h.node.1).2.2
  rw [← h.ua_eq] at hpa
  have hdu := ht.distinct m.uua huua.2 huua.1
  have hda := ht.distinct m.ua hua.2 hua.1
  have huua0 : m.uua ≠ 0 := by omega
  have hua0 : m.ua ≠ 0 := by omega
  have hbl := h.b_eq
  simp only [HuffmanModel.uncle] at hbl
  simp only [exchangeLinks]
  by_cases hL : m.leftOf m.uua = m.ua
  · rw [if_pos hL] at hbl
    simp only [if_pos hL, leftOf_setRight]
    by_cases hA : m.leftOf m.ua = m.a
    · have hr : m.rightOf m.ua ≠ m.a := fun e => hda (hA.trans e.symm)
      simp only [if_pos hA]
      cases bit
      · simp only [childOf_false, leftOf_setUp, leftOf_setLeft, leftOf_setRight]
        by_cases e1 : n = m.uua
        · subst e1; simp [h1, hL, hbua.symm]
        · by_cases e2 : n = m.ua
          · subst e2; simp [hA, e1, hua0]
          · simp [e1, e2]
      · simp only [childOf_true, rightOf_setUp, rightOf_setLeft, rightOf_setRight]
        by_cases e1 : n = m.uua
        · subst e1; simp [hbl, huua0]
        · by_cases e2 : n = m.ua
          · subst e2; simp [hr, e1]
          · simp [e1, e2]
    · have hr : m.rightOf m.ua = m.a := hpa.resolve_left hA
      simp only [if_neg hA]
      cases bit
      · simp only [childOf_false, leftOf_setUp, leftOf_setRight]
        by_cases e1 : n = m.uua
        · subst e1; simp [hL, hbua.symm, h1]
        · by_cases e2 : n = m.ua
          · subst e2; simp [hA, e1]
          · simp [e1, e2]
      · simp only [childOf_true, rightOf_setUp, rightOf_setRight]
        by_cases e1 : n = m.uua
        · subst e1; simp [hbl, huua0, h1]
        · by_cases e2 : n = m.ua
          · subst e2; simp [hr, e1, hua0]
          · simp [e1, e2]
  · have hR : m.rightOf m.uua = m.ua := hpu.resolve_left hL
    rw [if_neg hL] at hbl
    simp only [if_neg hL, leftOf_setLeft]
    simp only [Ne.symm h1, false_and, if_false]
    by_cases hA : m.leftOf m.ua = m.a
    · have hr : m.rightOf m.ua ≠ m.a := fun e => hda (hA.trans e.symm)
      simp only [if_pos hA]
      cases bit
      · simp only [childOf_false, leftOf_setUp, leftOf_setLeft]
        by_cases e1 : n = m.uua
        · subst e1; simp [hbl, huua0, h1]
        · by_cases e2 : n = m.ua
          · subst e2; simp [hA, e1, hua0]
          · simp [e1, e2]
      · simp only [childOf_true, rightOf_setUp, rightOf_setLeft]
        by_cases e1 : n = m.uua
        · subst e1; simp [hR, hbua.symm, h1]
        · by_cases e2 : n = m.ua
          · subst e2; simp [hr, e1]
          · simp [e1, e2]
    · have hr : m.rightOf m.ua = m.a := hpa.resolve_left hA
      simp only [if_neg hA]
      cases bit
      · simp only [childOf_false, leftOf_setUp, leftOf_setLeft, leftOf_setRight]
        by_cases e1 : n = m.uua
        · subst e1; simp [hbl, huua0]
        · by_cases e2 : n = m.ua
          · subst e2; simp [hA, e1]
          · simp [e1, e2]
      · simp only [childOf_true, rightOf_setUp, rightOf_setLeft, rightOf_setRight]
        by_cases e1 : n = m.uua
        · subst e1; simp [hR, hbua.symm, h1]
        · by_cases e2 : n = m.ua
          · subst e2; simp [hr, e1, hua0]
          · simp [e1, e2]

/-- The parents after an exchange, as an equation that needs no side condition (R112). -/
theorem up_exchange (h : UncleOf cfg m) (ht : FullTree cfg m) (k : Nat) :
    (exchangeLinks m).upOf k = if k = m.a then m.uua else if k = m.b then m.ua else m.upOf k := by
  have hb := (h.facts ht).2.2.1.1
  have ha := h.node.1
  exact upOf_exchangeLinks m k (Nat.ne_of_gt (Nat.lt_trans Nat.zero_lt_one ha))
    (Nat.ne_of_gt (Nat.lt_trans Nat.zero_lt_one hb))

/-- From `uua` up, an exchange changes no parent. -/
theorem iterate_up_exchange (h : UncleOf cfg m) (ht : FullTree cfg m) (j : Nat) :
    (exchangeLinks m).upOf^[j] m.uua = m.upOf^[j] m.uua := by
  obtain ⟨-, -, hb, hupb, -⟩ := h.facts ht
  induction j with
  | zero => rfl
  | succ j ih =>
    rw [Function.iterate_succ_apply', Function.iterate_succ_apply', ih, h.up_exchange ht]
    have hna : m.upOf^[j] m.uua ≠ m.a := by
      intro e
      refine ht.acyclic (n := m.a) (Nat.le_of_lt h.node.1) h.node.2 (j + 1) ?_
      rw [Function.iterate_add_apply m.upOf j 2 m.a]
      show m.upOf^[j] (m.upOf (m.upOf m.a)) = m.a
      rw [← h.ua_eq, ← h.uua_eq]; exact e
    have hnb : m.upOf^[j] m.uua ≠ m.b := by
      intro e
      refine ht.acyclic (n := m.b) (Nat.le_of_lt hb.1) hb.2 j ?_
      rw [Function.iterate_add_apply m.upOf j 1 m.b]
      show m.upOf^[j] (m.upOf m.b) = m.b
      rw [hupb]; exact e
    rw [if_neg hna, if_neg hnb]

/-- An exchange keeps the tree full (R115). -/
theorem exchange (h : UncleOf cfg m) (ht : FullTree cfg m) : FullTree cfg (exchangeLinks m) := by
  obtain ⟨hua, huua, hb, hupb, hbua, hba, h1, h2, h3, h4⟩ := h.facts ht
  have huaT : m.ua ≤ cfg.twiceMax := by simp only [Cfg.twiceMax]; omega
  have hupa : m.upOf m.a = m.ua := h.ua_eq.symm
  have hup := h.up_exchange ht
  have hch := h.children_exchange ht
  refine ⟨?_, ?_, ?_, ?_, ?_, ?_⟩
  · rw [(exchangeLinks_frame m).1]; exact ht.weights
  · rw [hup, if_neg (Nat.ne_of_lt h.node.1), if_neg (Nat.ne_of_lt hb.1)]; exact ht.root
  · intro n hn1 hn2 bit
    obtain ⟨c1, c2, c3⟩ := ht.children n hn1 hn2 bit
    rw [hch]
    split
    · next e => exact ⟨h.node.1, h.node.2, by rw [hup, if_pos rfl]; exact e.1.symm⟩
    · next e =>
      split
      · next e' => exact ⟨hb.1, hb.2, by rw [hup, if_neg hba, if_pos rfl]; exact e'.1.symm⟩
      · next e' =>
        refine ⟨c1, c2, ?_⟩
        rw [hup]
        split
        · next e2 => rw [e2, hupa] at c3; exact absurd ⟨c3.symm, e2⟩ e'
        · split
          · next e2 => rw [e2, hupb] at c3; exact absurd ⟨c3.symm, e2⟩ e
          · exact c3
  · intro n hn1 hn2
    have hl : (exchangeLinks m).leftOf n = if n = m.uua ∧ m.leftOf n = m.b then m.a
        else if n = m.ua ∧ m.leftOf n = m.a then m.b else m.leftOf n := hch false n
    have hr : (exchangeLinks m).rightOf n = if n = m.uua ∧ m.rightOf n = m.b then m.a
        else if n = m.ua ∧ m.rightOf n = m.a then m.b else m.rightOf n := hch true n
    have hlu := (ht.children n hn1 hn2 false).2.2
    have hru := (ht.children n hn1 hn2 true).2.2
    have hd := ht.distinct n hn1 hn2
    simp only [childOf_false, childOf_true] at hlu hru
    rw [hl, hr]
    by_cases e : n = m.uua ∧ m.leftOf n = m.b
    · have hnb : m.rightOf n ≠ m.b := fun x => hd (e.2.trans x.symm)
      rw [if_pos e, if_neg (fun x => hnb x.2), if_neg (fun x => h1 (e.1.symm.trans x.1))]
      intro x
      rw [← x, hupa] at hru
      exact h1 (e.1.symm.trans hru.symm)
    · by_cases e' : n = m.ua ∧ m.leftOf n = m.a
      · have hna : m.rightOf n ≠ m.a := fun x => hd (e'.2.trans x.symm)
        rw [if_neg e, if_pos e', if_neg (fun x => h1 (x.1.symm.trans e'.1)), if_neg (fun x => hna x.2)]
        intro x
        rw [← x, hupb] at hru
        exact h1 (hru.trans e'.1)
      · rw [if_neg e, if_neg e']
        by_cases e2 : n = m.uua ∧ m.rightOf n = m.b
        · rw [if_pos e2]
          intro x
          rw [x, hupa] at hlu
          exact h1 (e2.1.symm.trans hlu.symm)
        · by_cases e3 : n = m.ua ∧ m.rightOf n = m.a
          · rw [if_neg e2, if_pos e3]
            intro x
            rw [x, hupb] at hlu
            exact h1 (hlu.trans e3.1)
          · rw [if_neg e2, if_neg e3]
            exact hd
  · intro c hc1 hc2
    rw [hup]
    split
    · next e =>
      refine ⟨huua.1, huua.2, ?_⟩
      have hp := (ht.parents m.b hb.2 hb.1).2.2
      rw [hupb] at hp
      rcases hp with hp | hp
      · left
        have := hch false m.uua
        simp only [childOf_false, hp, true_and, if_true] at this
        rw [this, e]
      · right
        have := hch true m.uua
        simp only [childOf_true, hp, true_and, if_true] at this
        rw [this, e]
    · next e =>
      split
      · next e' =>
        refine ⟨hua.1, hua.2, ?_⟩
        have hp := (ht.parents m.a h.node.2 h.node.1).2.2
        rw [hupa] at hp
        rcases hp with hp | hp
        · left
          have := hch false m.ua
          simp only [childOf_false, hp, Ne.symm h1, true_and, false_and, if_true, if_false] at this
          rw [this, e']
        · right
          have := hch true m.ua
          simp only [childOf_true, hp, Ne.symm h1, true_and, false_and, if_true, if_false] at this
          rw [this, e']
      · next e' =>
        obtain ⟨p1, p2, p3⟩ := ht.parents c hc1 hc2
        refine ⟨p1, p2, ?_⟩
        rcases p3 with p3 | p3
        · left
          have := hch false (m.upOf c)
          simp only [childOf_false, p3, e, e', and_false, if_false] at this
          exact this
        · right
          have := hch true (m.upOf c)
          simp only [childOf_true, p3, e, e', and_false, if_false] at this
          exact this
  · have huuar : ∃ k, (exchangeLinks m).upOf^[k] m.uua = ROOT := by
      obtain ⟨k, hk⟩ := ht.reaches m.uua (by simp only [Cfg.twiceMax]; omega) huua.1
      exact ⟨k, by rw [h.iterate_up_exchange ht]; exact hk⟩
    have huar : ∃ k, (exchangeLinks m).upOf^[k] m.ua = ROOT := by
      obtain ⟨k, hk⟩ := huuar
      refine ⟨k + 1, ?_⟩
      rw [Function.iterate_succ_apply, hup, if_neg h3, if_neg (Ne.symm hbua), ← h.uua_eq]
      exact hk
    intro c hc1 hc2
    obtain ⟨k, hk⟩ := ht.reaches c hc1 hc2
    clear hc1 hc2
    induction k generalizing c with
    | zero => exact ⟨0, hk⟩
    | succ k ih =>
      by_cases ea : c = m.a
      · obtain ⟨i, hi⟩ := huuar
        exact ⟨i + 1, by rw [Function.iterate_succ_apply, hup, if_pos ea]; exact hi⟩
      · by_cases eb : c = m.b
        · obtain ⟨i, hi⟩ := huar
          exact ⟨i + 1, by rw [Function.iterate_succ_apply, hup, if_neg ea, if_pos eb]; exact hi⟩
        · obtain ⟨i, hi⟩ := ih (m.upOf c) (by rw [← Function.iterate_succ_apply]; exact hk)
          exact ⟨i + 1, by rw [Function.iterate_succ_apply, hup, if_neg ea, if_neg eb]; exact hi⟩

/-- One pass of `PROMOTE`'s exchange on a full tree completes and keeps it full; afterwards the node in `a` is a child of `ua`,
and the way up from `ua` is what it was. -/
theorem pass (h : UncleOf cfg m) (ht : FullTree cfg m) :
    ∃ m1, exchangeIfHeavier cfg m = some m1 ∧ FullTree cfg m1 ∧ m1.upOf m1.a = m.ua ∧ m1.upOf m.ua = m.uua ∧
      ∀ j, m1.upOf^[j] m.uua = m.upOf^[j] m.uua := by
  by_cases hw : m.weightOf m.b < m.weightOf m.a
  · have hf := h.exchange ht
    obtain ⟨hua, huua, hb, hupb, hbua, hba, h1, h2, h3, h4⟩ := h.facts ht
    obtain ⟨m1, hp, hf1⟩ := hf.propagate (x := m.b) (Nat.le_of_lt hb.1) hb.2
    have hfr := propagateLoop_frame hp
    have hl : SameLinks (exchangeLinks m) m1 := ⟨hfr.1.left, hfr.1.right, hfr.1.up⟩
    have hbb : m1.b = m.b := hfr.2.2.2.1.trans (exchangeLinks_frame m).2.2.1
    refine ⟨{ m1 with a := m1.b }, exchangeIfHeavier_eq_some.mpr (.inl ⟨hw, m1, hp, rfl⟩),
      hf1.of_sameLinks ⟨rfl, rfl, rfl⟩ fun _ h => h, ?_, ?_, ?_⟩
    · show m1.upOf m1.b = _
      rw [hbb, hl.upOf, h.up_exchange ht, if_neg hba, if_pos rfl]
    · show m1.upOf m.ua = _
      rw [hl.upOf, h.up_exchange ht, if_neg h3, if_neg (Ne.symm hbua)]; exact h.uua_eq.symm
    · intro j
      show m1.upOf^[j] m.uua = _
      rw [hl.upOf, h.iterate_up_exchange ht]
  · exact ⟨m, exchangeIfHeavier_eq_some.mpr (.inr ⟨Nat.le_of_not_lt hw, rfl⟩), ht, h.ua_eq.symm, h.uua_eq.symm,
      fun _ => rfl⟩

end UncleOf

/-! ### Descents of a well-formed tree -/

theorem childOf_nil (m : HuffmanModel) (b : Bool) : m.childOf b NIL = NIL := by
  cases b <;> simp [HuffmanModel.leftOf, HuffmanModel.rightOf, Cells.get]

/-- There is no way on from `NIL`. -/
theorem descend_nil (m : HuffmanModel) (cfg : Cfg) (l : List Bool) : m.descend cfg l NIL = NIL := by
  induction l with
  | nil => rfl
  | cons b l ih =>
    simp only [HuffmanModel.descend, List.foldl_cons, childOf_nil, ite_self]
    exact ih


/-- A descent by one more bit. -/
theorem descend_snoc (m : HuffmanModel) (cfg : Cfg) (l : List Bool) (b : Bool) (n : Nat) :
    m.descend cfg (l ++ [b]) n = if m.descend cfg l n ≤ cfg.maxChar then m.childOf b (m.descend cfg l n) else NIL := by
  rw [HuffmanModel.descend, List.foldl_append]; rfl

/-- The last branch of a descent. -/
theorem WellFormedTree.last {cfg : Cfg} {m : HuffmanModel} (ht : WellFormedTree cfg m) {l : List Bool} {b : Bool} {n : Nat}
    (h : m.descend cfg (l ++ [b]) ROOT = n) (hn : n ≠ NIL) :
    1 ≤ m.descend cfg l ROOT ∧ m.descend cfg l ROOT ≤ cfg.maxChar ∧ m.childOf b (m.descend cfg l ROOT) = n ∧
      m.upOf n = m.descend cfg l ROOT := by
  rw [descend_snoc] at h
  split at h
  · next hle =>
    have h0 : m.descend cfg l ROOT ≠ NIL := by
      intro e; rw [e, childOf_nil] at h; exact hn h.symm
    have h1 : 1 ≤ m.descend cfg l ROOT := Nat.pos_of_ne_zero h0
    have := ht.children _ hle h1 b (by rw [h]; exact hn)
    rw [h] at this
    exact ⟨h1, hle, h, this.2⟩
  · exact absurd h.symm hn

/-- The code that the climb by `up` gives a node leads from the root to that node. -/
theorem WellFormedTree.codeLoop {cfg : Cfg} {m : HuffmanModel} (ht : WellFormedTree cfg m) (path : List Bool) :
    ∀ (f n : Nat), m.descend cfg path ROOT = n → n ≠ NIL → path.length ≤ f →
      ∃ l : List Bool, (∀ acc, Machine.codeLoop m f n acc = l ++ acc) ∧ m.descend cfg l ROOT = n := by
  induction path using List.reverseRecOn with
  | nil =>
    intro f n h hn hf
    have h : ROOT = n := h
    refine ⟨[], ?_, h⟩
    intro acc; cases f <;> simp [Machine.codeLoop, ← h]
  | append_singleton l b ih =>
    intro f n h hn hf
    obtain ⟨p1, p2, p3, p4⟩ := ht.last h hn
    obtain ⟨f, rfl⟩ : ∃ f', f = f' + 1 := ⟨f - 1, by simp at hf; omega⟩
    have hr : n ≠ ROOT := by
      intro e; rw [e, show m.upOf ROOT = 0 from ht.root] at p4; omega
    obtain ⟨l', a1, a2⟩ := ih f (m.upOf n) p4.symm (by rw [p4]; exact Nat.ne_of_gt p1) (by simp at hf; omega)
    refine ⟨l' ++ [m.rightOf (m.upOf n) == n], ?_, ?_⟩
    · intro acc
      rw [Machine.codeLoop, if_neg (by simp only [not_or]; exact ⟨hr, hn⟩), a1]; simp
    · rw [descend_snoc, a2, p4, if_pos p2]
      by_cases e : m.rightOf (m.descend cfg l ROOT) = n
      · simp [e]
      · rw [beq_eq_false_iff_ne.mpr e]
        cases b with
        | true => exact absurd p3 e
        | false => exact p3

/-- A descent is no longer than there are internal nodes. -/
theorem WellFormedTree.depth_le {cfg : Cfg} {m : HuffmanModel} (ht : WellFormedTree cfg m) {path : List Bool} {n : Nat}
    (h : m.descend cfg path ROOT = n) (hn : n ≠ NIL) : path.length ≤ cfg.maxChar := by
  -- the nodes above `n`
  have hup : ∀ (path : List Bool) (n : Nat), m.descend cfg path ROOT = n → n ≠ NIL →
      m.upOf^[path.length] n = ROOT ∧ ∀ j, 1 ≤ j → j ≤ path.length → 1 ≤ m.upOf^[j] n ∧ m.upOf^[j] n ≤ cfg.maxChar := by
    intro path
    induction path using List.reverseRecOn with
    | nil => intro n h _; exact ⟨h.symm, fun j h1 h2 => by simp at h2; omega⟩
    | append_singleton l b ih =>
      intro n h hn
      obtain ⟨p1, p2, -, p4⟩ := ht.last h hn
      obtain ⟨q1, q2⟩ := ih _ rfl (Nat.ne_of_gt p1)
      simp only [List.length_append, List.length_singleton]
      refine ⟨by rw [Function.iterate_succ_apply, p4]; exact q1, ?_⟩
      intro j h1 h2
      obtain ⟨j, rfl⟩ : ∃ j', j = j' + 1 := ⟨j - 1, by omega⟩
      rw [Function.iterate_succ_apply, p4]
      by_cases hj : j = 0
      · rw [hj]; exact ⟨p1, p2⟩
      · exact q2 j (by omega) (by omega)
  obtain ⟨hr, hint⟩ := hup path n h hn
  have hmin : ∀ j < path.length, m.upOf^[j] n ≠ ROOT := by
    intro j hj e
    have : path.length = (path.length - (j + 1)) + (j + 1) := by omega
    rw [this, Function.iterate_add_apply, Function.iterate_succ_apply' m.upOf j, e, show m.upOf ROOT = 0 from ht.root,
      iterate_upOf_zero] at hr
    exact absurd hr (by decide)
  have hinj : ∀ i j, i < j → j ≤ path.length → m.upOf^[i] n ≠ m.upOf^[j] n := by
    intro i j hij hjk heq
    refine hmin (path.length - j + i) (by omega) ?_
    rw [Function.iterate_add_apply, heq, ← Function.iterate_add_apply, Nat.sub_add_cancel hjk]
    exact hr
  have hcard : (Finset.Icc 1 path.length).card ≤ (Finset.Icc 1 cfg.maxChar).card := by
    refine Finset.card_le_card_of_injOn (fun j => m.upOf^[j] n) ?_ ?_
    · intro j hj
      have hj := Finset.mem_Icc.mp (Finset.mem_coe.mp hj)
      exact Finset.mem_coe.mpr (Finset.mem_Icc.mpr (hint j hj.1 hj.2))
    · intro i hi j hj heq
      have hi := Finset.mem_Icc.mp (Finset.mem_coe.mp hi)
      have hj := Finset.mem_Icc.mp (Finset.mem_coe.mp hj)
      rcases Nat.lt_trichotomy i j with hlt | heq' | hgt
      · exact absurd heq (hinj i j hlt hj.2)
      · exact heq'
      · exact absurd heq.symm (hinj j i hgt hi.2)
  simpa using hcard

/-- The code of a symbol leads from the root to its leaf (R71), on every well-formed tree. -/
theorem WellFormedTree.descend_symbolCode {cfg : Cfg} {m : HuffmanModel} (ht : WellFormedTree cfg m) {sym : Nat}
    (h : sym ≤ cfg.maxChar) : m.descend cfg (symbolCode cfg m sym) ROOT = sym + cfg.successMax := by
  have hl : cfg.IsLeaf (sym + cfg.successMax) := by
    constructor
    · omega
    · simp only [Cfg.successMax, Cfg.twiceMax]; omega
  have h0 : sym + cfg.successMax ≠ NIL := by show _ ≠ 0; simp only [Cfg.successMax]; omega
  obtain ⟨path, hp⟩ := ht.leaves _ hl
  obtain ⟨l, a1, a2⟩ := ht.codeLoop path cfg.twiceMax _ hp h0 (by
    have := ht.depth_le hp h0; simp only [Cfg.twiceMax]; omega)
  rw [symbolCode, a1, List.append_nil]; exact a2

/-- Everything the walk can do on a well-formed tree (R100, R27): it raises one of the two errors of a fetch, or it ends on
a leaf; the arena stays. -/
theorem WellFormedTree.walk {cfg : Cfg} {m0 : HuffmanModel} (ht : WellFormedTree cfg m0) (inp : Memory) (len : Nat)
    {f : Nat} {m : HuffmanModel} {c : BitCursor} (hm : m.toArena = m0.toArena) (h1 : 1 ≤ m.a) (h2 : m.a ≤ cfg.twiceMax) :
    (∃ e m' c', Machine.walk cfg inp len f m c = .raise e (m', c') ∧ e ≠ .invalidDistance ∧
      m'.toArena = m0.toArena) ∨
    ∃ m' c', Machine.walk cfg inp len f m c = .ok () (m', c') ∧ cfg.IsLeaf m'.a ∧ m'.toArena = m0.toArena := by
  induction f generalizing m c with
  | zero => exact .inl ⟨_, m, c, rfl, by decide, hm⟩
  | succ f ih =>
    by_cases hleaf : cfg.successMax ≤ m.a
    · exact .inr ⟨m, c, walk_leaf hleaf, ⟨hleaf, h2⟩, hm⟩
    · cases hb : nextBit inp len c with
      | ok bit c1 =>
        rw [walk_internal (Nat.lt_of_not_le hleaf) hb]
        split
        · exact .inl ⟨_, _, c1, rfl, by decide, hm⟩
        · next hn =>
          have hc := ht.children m.a (by simp only [Cfg.successMax] at hleaf; omega) h1 bit
          rw [← childOf_arena hm] at hc
          exact ih (m := { m with nxt := m.childOf bit m.a, a := m.childOf bit m.a }) hm (Nat.pos_of_ne_zero hn)
            (hc hn).1
      | raise e c1 =>
        have he := (nextBit_eq_raise.mp hb).2.2.1
        exact .inl ⟨e, m, c1, by rw [Machine.walk, if_pos (Nat.lt_of_not_le hleaf), hb], by rw [he]; decide, hm⟩
      | refused r => exact absurd hb nextBit_ne_refused

end Sys2Proof.Machine
end

