-- ==== Sys2Proof/Laws/Valid.lean ====
section
/-!
SUPPORT. What a valid configuration gives (R8), the range indices, and the values that an extra-bits field denotes (R93).
-/

namespace Sys2Proof

/-- The seven conditions of R8 as one conjunction of inequalities. -/
theorem Cfg.valid_bounds {c : Cfg} (h : c.valid = true) :
    1 ≤ c.terminateCode ∧ c.terminateCode ≤ 256 ∧ c.firstCode = c.terminateCode + 1 ∧ 1 ≤ c.minCopy ∧
      c.minCopy ≤ c.maxCopy ∧ c.maxChar + 1 = c.firstCode + 6 * c.codesPerRange ∧ (∀ r, c.copyBits.get r ≤ codeW) ∧
      (∀ r, c.copyMin.get r + (2 ^ c.copyBits.get r - 1) + c.maxCopy ≤ c.historySize) ∧ 2 ≤ c.maxFrequency := by
  simp only [Cfg.valid, Cfg.terminateOk, Cfg.firstOk, Cfg.lengthsOk, Cfg.alphabetOk, Cfg.bitsOk, Cfg.distancesOk,
    Cfg.frequencyOk, CopyRange.all, List.all_cons, List.all_nil, Bool.and_eq_true, decide_eq_true_eq, beq_iff_eq,
    copyRanges] at h
  obtain ⟨⟨⟨⟨⟨⟨h1, h2⟩, h3⟩, h4⟩, h5⟩, h6⟩, h7⟩ := h
  refine ⟨h1.1, h1.2, h2, h3.1, h3.2, h4, ?_, ?_, h7⟩
  · intro r; cases r <;> tauto
  · intro r; cases r <;> tauto

/-- A valid configuration has at least eight symbols, so the root is internal. -/
theorem Cfg.valid_maxChar {c : Cfg} (h : c.valid = true) : 7 ≤ c.maxChar := by
  obtain ⟨h1, -, h3, -, -, h6, -⟩ := Cfg.valid_bounds h
  have : 1 ≤ c.codesPerRange := by simp [Cfg.codesPerRange]
  omega

@[simp] theorem CopyRange.ofIndex_index (r : CopyRange) : CopyRange.ofIndex? r.index = some r := by cases r <;> rfl

theorem CopyRange.index_le (r : CopyRange) : r.index ≤ 5 := by cases r <;> decide

namespace Machine

/-- An extra-bits field of `n` bits denotes at most `2^n − 1` (R94 (c)). -/
theorem extraOf_le (bits : List Bool) : extraOf bits ≤ 2 ^ bits.length - 1 := by
  cases bits with
  | nil => simp [extraOf]
  | cons b bits =>
    cases b with
    | false => simp [extraOf]
    | true =>
      have h : (true :: bits).count true ≤ (true :: bits).length := List.count_le_length
      have := Nat.pow_le_pow_right (show 0 < 2 by omega) h
      simp only [extraOf]
      omega

end Machine

end Sys2Proof
end

