-- ==== Sys2Proof/Laws/Instances.lean ====
section
/-!
SUPPORT. An instance of the open parameters other than the default, which meets the requirements of R103: the comb, whose
links never change. It shows that the statements over every lawful instance speak of more than one machine.
-/

namespace Sys2Proof.Machine

/-- The comb: the left child of internal node `n` is leaf `maxChar + n`, the right child is the next internal node, or the
last leaf; every weight is 1. -/
def combArena (cfg : Cfg) : Arena where
  left := Cells.upTo cfg.maxChar fun n => cfg.maxChar + n
  right := Cells.upTo cfg.maxChar fun n => if n = cfg.maxChar then cfg.twiceMax else n + 1
  up := Cells.upTo cfg.twiceMax fun n =>
    if n ≤ cfg.maxChar then n - 1 else if n = cfg.twiceMax then cfg.maxChar else n - cfg.maxChar
  weight := Cells.upTo cfg.twiceMax fun _ => 1

/-- The comb as an instance: `UPDATE` counts the leaf and leaves the tree as it is. -/
def combParams : HuffParams where
  init := combArena
  update _ a m := some (m.setWeight a (m.weightOf a + 1))

/-- The arenas that the comb keeps: its links, under any weights. -/
structure CombTree (cfg : Cfg) (m : HuffmanModel) : Prop where
  left : m.left = (combArena cfg).left
  right : m.right = (combArena cfg).right
  up : m.up = (combArena cfg).up

namespace CombTree

variable {cfg : Cfg} {m : HuffmanModel}

theorem leftOf (h : CombTree cfg m) {n : Nat} (h1 : 1 ≤ n) (h2 : n ≤ cfg.maxChar) : m.leftOf n = cfg.maxChar + n := by
  simp [HuffmanModel.leftOf, h.left, combArena, Cells.get_upTo, h1, h2]

theorem rightOf (h : CombTree cfg m) {n : Nat} (h1 : 1 ≤ n) (h2 : n ≤ cfg.maxChar) :
    m.rightOf n = if n = cfg.maxChar then cfg.twiceMax else n + 1 := by
  simp only [HuffmanModel.rightOf, h.right, combArena, Cells.get_upTo, h1, h2, and_self, if_true, Option.getD_some]

theorem upOf (h : CombTree cfg m) {n : Nat} (h1 : 1 ≤ n) (h2 : n ≤ cfg.twiceMax) :
    m.upOf n
      = if n ≤ cfg.maxChar then n - 1 else if n = cfg.twiceMax then cfg.maxChar else n - cfg.maxChar := by
  simp only [HuffmanModel.upOf, h.up, combArena, Cells.get_upTo, h1, h2, and_self, if_true, Option.getD_some]

/-- An internal node is `n − 1` steps below the root. -/
theorem reaches_internal (h : CombTree cfg m) (k : Nat) (hk : k < cfg.maxChar) : m.upOf^[k] (k + 1) = ROOT := by
  induction k with
  | zero => rfl
  | succ k ih =>
    rw [Function.iterate_succ_apply, h.upOf (by omega) (by simp only [Cfg.twiceMax]; omega), if_pos (by omega)]
    exact ih (by omega)

/-- `k` branches to the right lead to internal node `k + 1`. -/
theorem descend_right (h : CombTree cfg m) (k : Nat) (hk : k < cfg.maxChar) :
    m.descend cfg (List.replicate k true) ROOT = k + 1 := by
  induction k with
  | zero => rfl
  | succ k ih =>
    rw [List.replicate_succ', descend_snoc, ih (by omega), if_pos (by omega), childOf_true,
      h.rightOf (by omega) (by omega), if_neg (by omega)]

theorem wellFormed (h : CombTree cfg m) (hv : cfg.valid = true) : WellFormedTree cfg m where
  root := by
    have := Cfg.valid_maxChar hv
    rw [h.upOf (Nat.le_refl 1) (by simp only [Cfg.twiceMax]; omega), if_pos (by omega)]
  children n h2 h1 bit _ := by
    cases bit with
    | false =>
      rw [childOf_false, h.leftOf h1 h2]
      have ht : cfg.maxChar + n ≤ cfg.twiceMax := by simp only [Cfg.twiceMax]; omega
      refine ⟨ht, ?_⟩
      rw [h.upOf (by omega) ht, if_neg (by omega), if_neg (by simp only [Cfg.twiceMax]; omega)]
      omega
    | true =>
      rw [childOf_true, h.rightOf h1 h2]
      split
      · next e =>
        refine ⟨Nat.le_refl _, ?_⟩
        rw [h.upOf (by simp only [Cfg.twiceMax]; omega) (Nat.le_refl _), if_neg (by simp only [Cfg.twiceMax]; omega),
          if_pos rfl]
        exact e.symm
      · next e =>
        have ht : n + 1 ≤ cfg.twiceMax := by simp only [Cfg.twiceMax]; omega
        refine ⟨ht, ?_⟩
        rw [h.upOf (by omega) ht, if_pos (by omega)]
        rfl
  reaches c h2 h1 := by
    by_cases hc : c ≤ cfg.maxChar
    · exact ⟨c - 1, by
        have := h.reaches_internal (c - 1) (by omega)
        rwa [Nat.sub_add_cancel h1] at this⟩
    · obtain ⟨p, hp1, hp2, hup⟩ : ∃ p, 1 ≤ p ∧ p ≤ cfg.maxChar ∧ m.upOf c = p := by
        have := Cfg.valid_maxChar hv
        rw [h.upOf h1 h2, if_neg hc]
        split
        · exact ⟨_, by omega, Nat.le_refl _, rfl⟩
        · next e => exact ⟨_, by omega, by simp only [Cfg.twiceMax] at e h2; omega, rfl⟩
      refine ⟨p - 1 + 1, ?_⟩
      have := h.reaches_internal (p - 1) (by omega)
      rw [Function.iterate_succ_apply, hup]
      rwa [Nat.sub_add_cancel hp1] at this
  leaves l hl := by
    have hM := Cfg.valid_maxChar hv
    obtain ⟨h1, h2⟩ := hl
    simp only [Cfg.successMax] at h1
    have step : ∀ k < cfg.maxChar, ∀ bit, m.descend cfg (List.replicate k true ++ [bit]) ROOT = m.childOf bit (k + 1) := by
      intro k hk bit
      rw [descend_snoc, h.descend_right k hk, if_pos (by omega)]
    by_cases e : l = cfg.twiceMax
    · refine ⟨List.replicate (cfg.maxChar - 1) true ++ [true], ?_⟩
      rw [step _ (by omega), childOf_true, Nat.sub_add_cancel (by omega), h.rightOf (by omega) (Nat.le_refl _),
        if_pos rfl, e]
    · refine ⟨List.replicate (l - cfg.maxChar - 1) true ++ [false], ?_⟩
      simp only [Cfg.twiceMax] at h2 e
      rw [step _ (by omega), childOf_false, h.leftOf (by omega) (by omega)]
      omega

end CombTree

/-- The comb meets the requirements of R103. -/
theorem combParams_lawful : combParams.Lawful CombTree where
  arenaOnly cfg a m1 m2 h := by
    show some (m1.setWeight a (m1.weightOf a + 1)).toArena = some (m2.setWeight a (m2.weightOf a + 1)).toArena
    simp only [HuffmanModel.setWeight, weightOf_arena h, h]
  goodArena cfg m1 m2 h hg := ⟨by rw [← h]; exact hg.left, by rw [← h]; exact hg.right, by rw [← h]; exact hg.up⟩
  wellFormed cfg m hv hg := hg.wellFormed hv
  init cfg m _ := ⟨rfl, rfl, rfl⟩
  update cfg a m _ hg _ := ⟨_, rfl, hg.left, hg.right, hg.up⟩
  counts cfg a m m' hv _ hl h := by
    left
    cases h
    have : 1 ≤ a := by have := hl.1; simp only [Cfg.successMax] at this; omega
    rw [weightOf_setWeight, if_pos ⟨rfl, by omega⟩]

end Sys2Proof.Machine
end

