-- ==== Sys2Proof/Laws/PerInstr.lean ====
section
/-!
SUPPORT. Statements for every instruction, one lemma for each constructor of Instr.
-/

namespace Sys2Proof.Laws

/-- The symbol of an instruction under the default configuration is a number of the 10-bit alphabet 0..628 (R72, R79). -/
def SymbolInAlphabet.Statement (i : Instr) : Prop := encode Cfg.default i ≤ Cfg.default.maxChar

theorem SymbolInAlphabet.lit (byte : Byte) : SymbolInAlphabet.Statement (.lit byte) := by
  have := byte.isLt
  show byte.toNat ≤ 628
  omega

theorem SymbolInAlphabet.term : SymbolInAlphabet.Statement .term := by unfold SymbolInAlphabet.Statement; decide

theorem SymbolInAlphabet.copy0_3 : SymbolInAlphabet.Statement .copy0_3 := by unfold SymbolInAlphabet.Statement; decide
theorem SymbolInAlphabet.copy0_4 : SymbolInAlphabet.Statement .copy0_4 := by unfold SymbolInAlphabet.Statement; decide
theorem SymbolInAlphabet.copy0_5 : SymbolInAlphabet.Statement .copy0_5 := by unfold SymbolInAlphabet.Statement; decide
theorem SymbolInAlphabet.copy0_6 : SymbolInAlphabet.Statement .copy0_6 := by unfold SymbolInAlphabet.Statement; decide
theorem SymbolInAlphabet.copy0_7 : SymbolInAlphabet.Statement .copy0_7 := by unfold SymbolInAlphabet.Statement; decide
theorem SymbolInAlphabet.copy0_8 : SymbolInAlphabet.Statement .copy0_8 := by unfold SymbolInAlphabet.Statement; decide
theorem SymbolInAlphabet.copy0_9 : SymbolInAlphabet.Statement .copy0_9 := by unfold SymbolInAlphabet.Statement; decide
theorem SymbolInAlphabet.copy0_10 : SymbolInAlphabet.Statement .copy0_10 := by unfold SymbolInAlphabet.Statement; decide
theorem SymbolInAlphabet.copy0_11 : SymbolInAlphabet.Statement .copy0_11 := by unfold SymbolInAlphabet.Statement; decide
theorem SymbolInAlphabet.copy0_12 : SymbolInAlphabet.Statement .copy0_12 := by unfold SymbolInAlphabet.Statement; decide
theorem SymbolInAlphabet.copy0_13 : SymbolInAlphabet.Statement .copy0_13 := by unfold SymbolInAlphabet.Statement; decide
theorem SymbolInAlphabet.copy0_14 : SymbolInAlphabet.Statement .copy0_14 := by unfold SymbolInAlphabet.Statement; decide
theorem SymbolInAlphabet.copy0_15 : SymbolInAlphabet.Statement .copy0_15 := by unfold SymbolInAlphabet.Statement; decide
theorem SymbolInAlphabet.copy0_16 : SymbolInAlphabet.Statement .copy0_16 := by unfold SymbolInAlphabet.Statement; decide
theorem SymbolInAlphabet.copy0_17 : SymbolInAlphabet.Statement .copy0_17 := by unfold SymbolInAlphabet.Statement; decide
theorem SymbolInAlphabet.copy0_18 : SymbolInAlphabet.Statement .copy0_18 := by unfold SymbolInAlphabet.Statement; decide
theorem SymbolInAlphabet.copy0_19 : SymbolInAlphabet.Statement .copy0_19 := by unfold SymbolInAlphabet.Statement; decide
theorem SymbolInAlphabet.copy0_20 : SymbolInAlphabet.Statement .copy0_20 := by unfold SymbolInAlphabet.Statement; decide
theorem SymbolInAlphabet.copy0_21 : SymbolInAlphabet.Statement .copy0_21 := by unfold SymbolInAlphabet.Statement; decide
theorem SymbolInAlphabet.copy0_22 : SymbolInAlphabet.Statement .copy0_22 := by unfold SymbolInAlphabet.Statement; decide
theorem SymbolInAlphabet.copy0_23 : SymbolInAlphabet.Statement .copy0_23 := by unfold SymbolInAlphabet.Statement; decide
theorem SymbolInAlphabet.copy0_24 : SymbolInAlphabet.Statement .copy0_24 := by unfold SymbolInAlphabet.Statement; decide
theorem SymbolInAlphabet.copy0_25 : SymbolInAlphabet.Statement .copy0_25 := by unfold SymbolInAlphabet.Statement; decide
theorem SymbolInAlphabet.copy0_26 : SymbolInAlphabet.Statement .copy0_26 := by unfold SymbolInAlphabet.Statement; decide
theorem SymbolInAlphabet.copy0_27 : SymbolInAlphabet.Statement .copy0_27 := by unfold SymbolInAlphabet.Statement; decide
theorem SymbolInAlphabet.copy0_28 : SymbolInAlphabet.Statement .copy0_28 := by unfold SymbolInAlphabet.Statement; decide
theorem SymbolInAlphabet.copy0_29 : SymbolInAlphabet.Statement .copy0_29 := by unfold SymbolInAlphabet.Statement; decide
theorem SymbolInAlphabet.copy0_30 : SymbolInAlphabet.Statement .copy0_30 := by unfold SymbolInAlphabet.Statement; decide
theorem SymbolInAlphabet.copy0_31 : SymbolInAlphabet.Statement .copy0_31 := by unfold SymbolInAlphabet.Statement; decide
theorem SymbolInAlphabet.copy0_32 : SymbolInAlphabet.Statement .copy0_32 := by unfold SymbolInAlphabet.Statement; decide
theorem SymbolInAlphabet.copy0_33 : SymbolInAlphabet.Statement .copy0_33 := by unfold SymbolInAlphabet.Statement; decide
theorem SymbolInAlphabet.copy0_34 : SymbolInAlphabet.Statement .copy0_34 := by unfold SymbolInAlphabet.Statement; decide
theorem SymbolInAlphabet.copy0_35 : SymbolInAlphabet.Statement .copy0_35 := by unfold SymbolInAlphabet.Statement; decide
theorem SymbolInAlphabet.copy0_36 : SymbolInAlphabet.Statement .copy0_36 := by unfold SymbolInAlphabet.Statement; decide
theorem SymbolInAlphabet.copy0_37 : SymbolInAlphabet.Statement .copy0_37 := by unfold SymbolInAlphabet.Statement; decide
theorem SymbolInAlphabet.copy0_38 : SymbolInAlphabet.Statement .copy0_38 := by unfold SymbolInAlphabet.Statement; decide
theorem SymbolInAlphabet.copy0_39 : SymbolInAlphabet.Statement .copy0_39 := by unfold SymbolInAlphabet.Statement; decide
theorem SymbolInAlphabet.copy0_40 : SymbolInAlphabet.Statement .copy0_40 := by unfold SymbolInAlphabet.Statement; decide
theorem SymbolInAlphabet.copy0_41 : SymbolInAlphabet.Statement .copy0_41 := by unfold SymbolInAlphabet.Statement; decide
theorem SymbolInAlphabet.copy0_42 : SymbolInAlphabet.Statement .copy0_42 := by unfold SymbolInAlphabet.Statement; decide
theorem SymbolInAlphabet.copy0_43 : SymbolInAlphabet.Statement .copy0_43 := by unfold SymbolInAlphabet.Statement; decide
theorem SymbolInAlphabet.copy0_44 : SymbolInAlphabet.Statement .copy0_44 := by unfold SymbolInAlphabet.Statement; decide
theorem SymbolInAlphabet.copy0_45 : SymbolInAlphabet.Statement .copy0_45 := by unfold SymbolInAlphabet.Statement; decide
theorem SymbolInAlphabet.copy0_46 : SymbolInAlphabet.Statement .copy0_46 := by unfold SymbolInAlphabet.Statement; decide
theorem SymbolInAlphabet.copy0_47 : SymbolInAlphabet.Statement .copy0_47 := by unfold SymbolInAlphabet.Statement; decide
theorem SymbolInAlphabet.copy0_48 : SymbolInAlphabet.Statement .copy0_48 := by unfold SymbolInAlphabet.Statement; decide
theorem SymbolInAlphabet.copy0_49 : SymbolInAlphabet.Statement .copy0_49 := by unfold SymbolInAlphabet.Statement; decide
theorem SymbolInAlphabet.copy0_50 : SymbolInAlphabet.Statement .copy0_50 := by unfold SymbolInAlphabet.Statement; decide
theorem SymbolInAlphabet.copy0_51 : SymbolInAlphabet.Statement .copy0_51 := by unfold SymbolInAlphabet.Statement; decide
theorem SymbolInAlphabet.copy0_52 : SymbolInAlphabet.Statement .copy0_52 := by unfold SymbolInAlphabet.Statement; decide
theorem SymbolInAlphabet.copy0_53 : SymbolInAlphabet.Statement .copy0_53 := by unfold SymbolInAlphabet.Statement; decide
theorem SymbolInAlphabet.copy0_54 : SymbolInAlphabet.Statement .copy0_54 := by unfold SymbolInAlphabet.Statement; decide
theorem SymbolInAlphabet.copy0_55 : SymbolInAlphabet.Statement .copy0_55 := by unfold SymbolInAlphabet.Statement; decide
theorem SymbolInAlphabet.copy0_56 : SymbolInAlphabet.Statement .copy0_56 := by unfold SymbolInAlphabet.Statement; decide
theorem SymbolInAlphabet.copy0_57 : SymbolInAlphabet.Statement .copy0_57 := by unfold SymbolInAlphabet.Statement; decide
theorem SymbolInAlphabet.copy0_58 : SymbolInAlphabet.Statement .copy0_58 := by unfold SymbolInAlphabet.Statement; decide
theorem SymbolInAlphabet.copy0_59 : SymbolInAlphabet.Statement .copy0_59 := by unfold SymbolInAlphabet.Statement; decide
theorem SymbolInAlphabet.copy0_60 : SymbolInAlphabet.Statement .copy0_60 := by unfold SymbolInAlphabet.Statement; decide
theorem SymbolInAlphabet.copy0_61 : SymbolInAlphabet.Statement .copy0_61 := by unfold SymbolInAlphabet.Statement; decide
theorem SymbolInAlphabet.copy0_62 : SymbolInAlphabet.Statement .copy0_62 := by unfold SymbolInAlphabet.Statement; decide
theorem SymbolInAlphabet.copy0_63 : SymbolInAlphabet.Statement .copy0_63 := by unfold SymbolInAlphabet.Statement; decide
theorem SymbolInAlphabet.copy0_64 : SymbolInAlphabet.Statement .copy0_64 := by unfold SymbolInAlphabet.Statement; decide
theorem SymbolInAlphabet.copy1_3 : SymbolInAlphabet.Statement .copy1_3 := by unfold SymbolInAlphabet.Statement; decide
theorem SymbolInAlphabet.copy1_4 : SymbolInAlphabet.Statement .copy1_4 := by unfold SymbolInAlphabet.Statement; decide
theorem SymbolInAlphabet.copy1_5 : SymbolInAlphabet.Statement .copy1_5 := by unfold SymbolInAlphabet.Statement; decide
theorem SymbolInAlphabet.copy1_6 : SymbolInAlphabet.Statement .copy1_6 := by unfold SymbolInAlphabet.Statement; decide
theorem SymbolInAlphabet.copy1_7 : SymbolInAlphabet.Statement .copy1_7 := by unfold SymbolInAlphabet.Statement; decide
theorem SymbolInAlphabet.copy1_8 : SymbolInAlphabet.Statement .copy1_8 := by unfold SymbolInAlphabet.Statement; decide
theorem SymbolInAlphabet.copy1_9 : SymbolInAlphabet.Statement .copy1_9 := by unfold SymbolInAlphabet.Statement; decide
theorem SymbolInAlphabet.copy1_10 : SymbolInAlphabet.Statement .copy1_10 := by unfold SymbolInAlphabet.Statement; decide
theorem SymbolInAlphabet.copy1_11 : SymbolInAlphabet.Statement .copy1_11 := by unfold SymbolInAlphabet.Statement; decide
theorem SymbolInAlphabet.copy1_12 : SymbolInAlphabet.Statement .copy1_12 := by unfold SymbolInAlphabet.Statement; decide
theorem SymbolInAlphabet.copy1_13 : SymbolInAlphabet.Statement .copy1_13 := by unfold SymbolInAlphabet.Statement; decide
theorem SymbolInAlphabet.copy1_14 : SymbolInAlphabet.Statement .copy1_14 := by unfold SymbolInAlphabet.Statement; decide
theorem SymbolInAlphabet.copy1_15 : SymbolInAlphabet.Statement .copy1_15 := by unfold SymbolInAlphabet.Statement; decide
theorem SymbolInAlphabet.copy1_16 : SymbolInAlphabet.Statement .copy1_16 := by unfold SymbolInAlphabet.Statement; decide
theorem SymbolInAlphabet.copy1_17 : SymbolInAlphabet.Statement .copy1_17 := by unfold SymbolInAlphabet.Statement; decide
theorem SymbolInAlphabet.copy1_18 : SymbolInAlphabet.Statement .copy1_18 := by unfold SymbolInAlphabet.Statement; decide
theorem SymbolInAlphabet.copy1_19 : SymbolInAlphabet.Statement .copy1_19 := by unfold SymbolInAlphabet.Statement; decide
theorem SymbolInAlphabet.copy1_20 : SymbolInAlphabet.Statement .copy1_20 := by unfold SymbolInAlphabet.Statement; decide
theorem SymbolInAlphabet.copy1_21 : SymbolInAlphabet.Statement .copy1_21 := by unfold SymbolInAlphabet.Statement; decide
theorem SymbolInAlphabet.copy1_22 : SymbolInAlphabet.Statement .copy1_22 := by unfold SymbolInAlphabet.Statement; decide
theorem SymbolInAlphabet.copy1_23 : SymbolInAlphabet.Statement .copy1_23 := by unfold SymbolInAlphabet.Statement; decide
theorem SymbolInAlphabet.copy1_24 : SymbolInAlphabet.Statement .copy1_24 := by unfold SymbolInAlphabet.Statement; decide
theorem SymbolInAlphabet.copy1_25 : SymbolInAlphabet.Statement .copy1_25 := by unfold SymbolInAlphabet.Statement; decide
theorem SymbolInAlphabet.copy1_26 : SymbolInAlphabet.Statement .copy1_26 := by unfold SymbolInAlphabet.Statement; decide
theorem SymbolInAlphabet.copy1_27 : SymbolInAlphabet.Statement .copy1_27 := by unfold SymbolInAlphabet.Statement; decide
theorem SymbolInAlphabet.copy1_28 : SymbolInAlphabet.Statement .copy1_28 := by unfold SymbolInAlphabet.Statement; decide
theorem SymbolInAlphabet.copy1_29 : SymbolInAlphabet.Statement .copy1_29 := by unfold SymbolInAlphabet.Statement; decide
theorem SymbolInAlphabet.copy1_30 : SymbolInAlphabet.Statement .copy1_30 := by unfold SymbolInAlphabet.Statement; decide
theorem SymbolInAlphabet.copy1_31 : SymbolInAlphabet.Statement .copy1_31 := by unfold SymbolInAlphabet.Statement; decide
theorem SymbolInAlphabet.copy1_32 : SymbolInAlphabet.Statement .copy1_32 := by unfold SymbolInAlphabet.Statement; decide
theorem SymbolInAlphabet.copy1_33 : SymbolInAlphabet.Statement .copy1_33 := by unfold SymbolInAlphabet.Statement; decide
theorem SymbolInAlphabet.copy1_34 : SymbolInAlphabet.Statement .copy1_34 := by unfold SymbolInAlphabet.Statement; decide
theorem SymbolInAlphabet.copy1_35 : SymbolInAlphabet.Statement .copy1_35 := by unfold SymbolInAlphabet.Statement; decide
theorem SymbolInAlphabet.copy1_36 : SymbolInAlphabet.Statement .copy1_36 := by unfold SymbolInAlphabet.Statement; decide
theorem SymbolInAlphabet.copy1_37 : SymbolInAlphabet.Statement .copy1_37 := by unfold SymbolInAlphabet.Statement; decide
theorem SymbolInAlphabet.copy1_38 : SymbolInAlphabet.Statement .copy1_38 := by unfold SymbolInAlphabet.Statement; decide
theorem SymbolInAlphabet.copy1_39 : SymbolInAlphabet.Statement .copy1_39 := by unfold SymbolInAlphabet.Statement; decide
theorem SymbolInAlphabet.copy1_40 : SymbolInAlphabet.Statement .copy1_40 := by unfold SymbolInAlphabet.Statement; decide
theorem SymbolInAlphabet.copy1_41 : SymbolInAlphabet.Statement .copy1_41 := by unfold SymbolInAlphabet.Statement; decide
theorem SymbolInAlphabet.copy1_42 : SymbolInAlphabet.Statement .copy1_42 := by unfold SymbolInAlphabet.Statement; decide
theorem SymbolInAlphabet.copy1_43 : SymbolInAlphabet.Statement .copy1_43 := by unfold SymbolInAlphabet.Statement; decide
theorem SymbolInAlphabet.copy1_44 : SymbolInAlphabet.Statement .copy1_44 := by unfold SymbolInAlphabet.Statement; decide
theorem SymbolInAlphabet.copy1_45 : SymbolInAlphabet.Statement .copy1_45 := by unfold SymbolInAlphabet.Statement; decide
theorem SymbolInAlphabet.copy1_46 : SymbolInAlphabet.Statement .copy1_46 := by unfold SymbolInAlphabet.Statement; decide
theorem SymbolInAlphabet.copy1_47 : SymbolInAlphabet.Statement .copy1_47 := by unfold SymbolInAlphabet.Statement; decide
theorem SymbolInAlphabet.copy1_48 : SymbolInAlphabet.Statement .copy1_48 := by unfold SymbolInAlphabet.Statement; decide
theorem SymbolInAlphabet.copy1_49 : SymbolInAlphabet.Statement .copy1_49 := by unfold SymbolInAlphabet.Statement; decide
theorem SymbolInAlphabet.copy1_50 : SymbolInAlphabet.Statement .copy1_50 := by unfold SymbolInAlphabet.Statement; decide
theorem SymbolInAlphabet.copy1_51 : SymbolInAlphabet.Statement .copy1_51 := by unfold SymbolInAlphabet.Statement; decide
theorem SymbolInAlphabet.copy1_52 : SymbolInAlphabet.Statement .copy1_52 := by unfold SymbolInAlphabet.Statement; decide
theorem SymbolInAlphabet.copy1_53 : SymbolInAlphabet.Statement .copy1_53 := by unfold SymbolInAlphabet.Statement; decide
theorem SymbolInAlphabet.copy1_54 : SymbolInAlphabet.Statement .copy1_54 := by unfold SymbolInAlphabet.Statement; decide
theorem SymbolInAlphabet.copy1_55 : SymbolInAlphabet.Statement .copy1_55 := by unfold SymbolInAlphabet.Statement; decide
theorem SymbolInAlphabet.copy1_56 : SymbolInAlphabet.Statement .copy1_56 := by unfold SymbolInAlphabet.Statement; decide
theorem SymbolInAlphabet.copy1_57 : SymbolInAlphabet.Statement .copy1_57 := by unfold SymbolInAlphabet.Statement; decide
theorem SymbolInAlphabet.copy1_58 : SymbolInAlphabet.Statement .copy1_58 := by unfold SymbolInAlphabet.Statement; decide
theorem SymbolInAlphabet.copy1_59 : SymbolInAlphabet.Statement .copy1_59 := by unfold SymbolInAlphabet.Statement; decide
theorem SymbolInAlphabet.copy1_60 : SymbolInAlphabet.Statement .copy1_60 := by unfold SymbolInAlphabet.Statement; decide
theorem SymbolInAlphabet.copy1_61 : SymbolInAlphabet.Statement .copy1_61 := by unfold SymbolInAlphabet.Statement; decide
theorem SymbolInAlphabet.copy1_62 : SymbolInAlphabet.Statement .copy1_62 := by unfold SymbolInAlphabet.Statement; decide
theorem SymbolInAlphabet.copy1_63 : SymbolInAlphabet.Statement .copy1_63 := by unfold SymbolInAlphabet.Statement; decide
theorem SymbolInAlphabet.copy1_64 : SymbolInAlphabet.Statement .copy1_64 := by unfold SymbolInAlphabet.Statement; decide
theorem SymbolInAlphabet.copy2_3 : SymbolInAlphabet.Statement .copy2_3 := by unfold SymbolInAlphabet.Statement; decide
theorem SymbolInAlphabet.copy2_4 : SymbolInAlphabet.Statement .copy2_4 := by unfold SymbolInAlphabet.Statement; decide
theorem SymbolInAlphabet.copy2_5 : SymbolInAlphabet.Statement .copy2_5 := by unfold SymbolInAlphabet.Statement; decide
theorem SymbolInAlphabet.copy2_6 : SymbolInAlphabet.Statement .copy2_6 := by unfold SymbolInAlphabet.Statement; decide
theorem SymbolInAlphabet.copy2_7 : SymbolInAlphabet.Statement .copy2_7 := by unfold SymbolInAlphabet.Statement; decide
theorem SymbolInAlphabet.copy2_8 : SymbolInAlphabet.Statement .copy2_8 := by unfold SymbolInAlphabet.Statement; decide
theorem SymbolInAlphabet.copy2_9 : SymbolInAlphabet.Statement .copy2_9 := by unfold SymbolInAlphabet.Statement; decide
theorem SymbolInAlphabet.copy2_10 : SymbolInAlphabet.Statement .copy2_10 := by unfold SymbolInAlphabet.Statement; decide
theorem SymbolInAlphabet.copy2_11 : SymbolInAlphabet.Statement .copy2_11 := by unfold SymbolInAlphabet.Statement; decide
theorem SymbolInAlphabet.copy2_12 : SymbolInAlphabet.Statement .copy2_12 := by unfold SymbolInAlphabet.Statement; decide
theorem SymbolInAlphabet.copy2_13 : SymbolInAlphabet.Statement .copy2_13 := by unfold SymbolInAlphabet.Statement; decide
theorem SymbolInAlphabet.copy2_14 : SymbolInAlphabet.Statement .copy2_14 := by unfold SymbolInAlphabet.Statement; decide
theorem SymbolInAlphabet.copy2_15 : SymbolInAlphabet.Statement .copy2_15 := by unfold SymbolInAlphabet.Statement; decide
theorem SymbolInAlphabet.copy2_16 : SymbolInAlphabet.Statement .copy2_16 := by unfold SymbolInAlphabet.Statement; decide
theorem SymbolInAlphabet.copy2_17 : SymbolInAlphabet.Statement .copy2_17 := by unfold SymbolInAlphabet.Statement; decide
theorem SymbolInAlphabet.copy2_18 : SymbolInAlphabet.Statement .copy2_18 := by unfold SymbolInAlphabet.Statement; decide
theorem SymbolInAlphabet.copy2_19 : SymbolInAlphabet.Statement .copy2_19 := by unfold SymbolInAlphabet.Statement; decide
theorem SymbolInAlphabet.copy2_20 : SymbolInAlphabet.Statement .copy2_20 := by unfold SymbolInAlphabet.Statement; decide
theorem SymbolInAlphabet.copy2_21 : SymbolInAlphabet.Statement .copy2_21 := by unfold SymbolInAlphabet.Statement; decide
theorem SymbolInAlphabet.copy2_22 : SymbolInAlphabet.Statement .copy2_22 := by unfold SymbolInAlphabet.Statement; decide
theorem SymbolInAlphabet.copy2_23 : SymbolInAlphabet.Statement .copy2_23 := by unfold SymbolInAlphabet.Statement; decide
theorem SymbolInAlphabet.copy2_24 : SymbolInAlphabet.Statement .copy2_24 := by unfold SymbolInAlphabet.Statement; decide
theorem SymbolInAlphabet.copy2_25 : SymbolInAlphabet.Statement .copy2_25 := by unfold SymbolInAlphabet.Statement; decide
theorem SymbolInAlphabet.copy2_26 : SymbolInAlphabet.Statement .copy2_26 := by unfold SymbolInAlphabet.Statement; decide
theorem SymbolInAlphabet.copy2_27 : SymbolInAlphabet.Statement .copy2_27 := by unfold SymbolInAlphabet.Statement; decide
theorem SymbolInAlphabet.copy2_28 : SymbolInAlphabet.Statement .copy2_28 := by unfold SymbolInAlphabet.Statement; decide
theorem SymbolInAlphabet.copy2_29 : SymbolInAlphabet.Statement .copy2_29 := by unfold SymbolInAlphabet.Statement; decide
theorem SymbolInAlphabet.copy2_30 : SymbolInAlphabet.Statement .copy2_30 := by unfold SymbolInAlphabet.Statement; decide
theorem SymbolInAlphabet.copy2_31 : SymbolInAlphabet.Statement .copy2_31 := by unfold SymbolInAlphabet.Statement; decide
theorem SymbolInAlphabet.copy2_32 : SymbolInAlphabet.Statement .copy2_32 := by unfold SymbolInAlphabet.Statement; decide
theorem SymbolInAlphabet.copy2_33 : SymbolInAlphabet.Statement .copy2_33 := by unfold SymbolInAlphabet.Statement; decide
theorem SymbolInAlphabet.copy2_34 : SymbolInAlphabet.Statement .copy2_34 := by unfold SymbolInAlphabet.Statement; decide
theorem SymbolInAlphabet.copy2_35 : SymbolInAlphabet.Statement .copy2_35 := by unfold SymbolInAlphabet.Statement; decide
theorem SymbolInAlphabet.copy2_36 : SymbolInAlphabet.Statement .copy2_36 := by unfold SymbolInAlphabet.Statement; decide
theorem SymbolInAlphabet.copy2_37 : SymbolInAlphabet.Statement .copy2_37 := by unfold SymbolInAlphabet.Statement; decide
theorem SymbolInAlphabet.copy2_38 : SymbolInAlphabet.Statement .copy2_38 := by unfold SymbolInAlphabet.Statement; decide
theorem SymbolInAlphabet.copy2_39 : SymbolInAlphabet.Statement .copy2_39 := by unfold SymbolInAlphabet.Statement; decide
theorem SymbolInAlphabet.copy2_40 : SymbolInAlphabet.Statement .copy2_40 := by unfold SymbolInAlphabet.Statement; decide
theorem SymbolInAlphabet.copy2_41 : SymbolInAlphabet.Statement .copy2_41 := by unfold SymbolInAlphabet.Statement; decide
theorem SymbolInAlphabet.copy2_42 : SymbolInAlphabet.Statement .copy2_42 := by unfold SymbolInAlphabet.Statement; decide
theorem SymbolInAlphabet.copy2_43 : SymbolInAlphabet.Statement .copy2_43 := by unfold SymbolInAlphabet.Statement; decide
theorem SymbolInAlphabet.copy2_44 : SymbolInAlphabet.Statement .copy2_44 := by unfold SymbolInAlphabet.Statement; decide
theorem SymbolInAlphabet.copy2_45 : SymbolInAlphabet.Statement .copy2_45 := by unfold SymbolInAlphabet.Statement; decide
theorem SymbolInAlphabet.copy2_46 : SymbolInAlphabet.Statement .copy2_46 := by unfold SymbolInAlphabet.Statement; decide
theorem SymbolInAlphabet.copy2_47 : SymbolInAlphabet.Statement .copy2_47 := by unfold SymbolInAlphabet.Statement; decide
theorem SymbolInAlphabet.copy2_48 : SymbolInAlphabet.Statement .copy2_48 := by unfold SymbolInAlphabet.Statement; decide
theorem SymbolInAlphabet.copy2_49 : SymbolInAlphabet.Statement .copy2_49 := by unfold SymbolInAlphabet.Statement; decide
theorem SymbolInAlphabet.copy2_50 : SymbolInAlphabet.Statement .copy2_50 := by unfold SymbolInAlphabet.Statement; decide
theorem SymbolInAlphabet.copy2_51 : SymbolInAlphabet.Statement .copy2_51 := by unfold SymbolInAlphabet.Statement; decide
theorem SymbolInAlphabet.copy2_52 : SymbolInAlphabet.Statement .copy2_52 := by unfold SymbolInAlphabet.Statement; decide
theorem SymbolInAlphabet.copy2_53 : SymbolInAlphabet.Statement .copy2_53 := by unfold SymbolInAlphabet.Statement; decide
theorem SymbolInAlphabet.copy2_54 : SymbolInAlphabet.Statement .copy2_54 := by unfold SymbolInAlphabet.Statement; decide
theorem SymbolInAlphabet.copy2_55 : SymbolInAlphabet.Statement .copy2_55 := by unfold SymbolInAlphabet.Statement; decide
theorem SymbolInAlphabet.copy2_56 : SymbolInAlphabet.Statement .copy2_56 := by unfold SymbolInAlphabet.Statement; decide
theorem SymbolInAlphabet.copy2_57 : SymbolInAlphabet.Statement .copy2_57 := by unfold SymbolInAlphabet.Statement; decide
theorem SymbolInAlphabet.copy2_58 : SymbolInAlphabet.Statement .copy2_58 := by unfold SymbolInAlphabet.Statement; decide
theorem SymbolInAlphabet.copy2_59 : SymbolInAlphabet.Statement .copy2_59 := by unfold SymbolInAlphabet.Statement; decide
theorem SymbolInAlphabet.copy2_60 : SymbolInAlphabet.Statement .copy2_60 := by unfold SymbolInAlphabet.Statement; decide
theorem SymbolInAlphabet.copy2_61 : SymbolInAlphabet.Statement .copy2_61 := by unfold SymbolInAlphabet.Statement; decide
theorem SymbolInAlphabet.copy2_62 : SymbolInAlphabet.Statement .copy2_62 := by unfold SymbolInAlphabet.Statement; decide
theorem SymbolInAlphabet.copy2_63 : SymbolInAlphabet.Statement .copy2_63 := by unfold SymbolInAlphabet.Statement; decide
theorem SymbolInAlphabet.copy2_64 : SymbolInAlphabet.Statement .copy2_64 := by unfold SymbolInAlphabet.Statement; decide
theorem SymbolInAlphabet.copy3_3 : SymbolInAlphabet.Statement .copy3_3 := by unfold SymbolInAlphabet.Statement; decide
theorem SymbolInAlphabet.copy3_4 : SymbolInAlphabet.Statement .copy3_4 := by unfold SymbolInAlphabet.Statement; decide
theorem SymbolInAlphabet.copy3_5 : SymbolInAlphabet.Statement .copy3_5 := by unfold SymbolInAlphabet.Statement; decide
theorem SymbolInAlphabet.copy3_6 : SymbolInAlphabet.Statement .copy3_6 := by unfold SymbolInAlphabet.Statement; decide
theorem SymbolInAlphabet.copy3_7 : SymbolInAlphabet.Statement .copy3_7 := by unfold SymbolInAlphabet.Statement; decide
theorem SymbolInAlphabet.copy3_8 : SymbolInAlphabet.Statement .copy3_8 := by unfold SymbolInAlphabet.Statement; decide
theorem SymbolInAlphabet.copy3_9 : SymbolInAlphabet.Statement .copy3_9 := by unfold SymbolInAlphabet.Statement; decide
theorem SymbolInAlphabet.copy3_10 : SymbolInAlphabet.Statement .copy3_10 := by unfold SymbolInAlphabet.Statement; decide
theorem SymbolInAlphabet.copy3_11 : SymbolInAlphabet.Statement .copy3_11 := by unfold SymbolInAlphabet.Statement; decide
theorem SymbolInAlphabet.copy3_12 : SymbolInAlphabet.Statement .copy3_12 := by unfold SymbolInAlphabet.Statement; decide
theorem SymbolInAlphabet.copy3_13 : SymbolInAlphabet.Statement .copy3_13 := by unfold SymbolInAlphabet.Statement; decide
theorem SymbolInAlphabet.copy3_14 : SymbolInAlphabet.Statement .copy3_14 := by unfold SymbolInAlphabet.Statement; decide
theorem SymbolInAlphabet.copy3_15 : SymbolInAlphabet.Statement .copy3_15 := by unfold SymbolInAlphabet.Statement; decide
theorem SymbolInAlphabet.copy3_16 : SymbolInAlphabet.Statement .copy3_16 := by unfold SymbolInAlphabet.Statement; decide
theorem SymbolInAlphabet.copy3_17 : SymbolInAlphabet.Statement .copy3_17 := by unfold SymbolInAlphabet.Statement; decide
theorem SymbolInAlphabet.copy3_18 : SymbolInAlphabet.Statement .copy3_18 := by unfold SymbolInAlphabet.Statement; decide
theorem SymbolInAlphabet.copy3_19 : SymbolInAlphabet.Statement .copy3_19 := by unfold SymbolInAlphabet.Statement; decide
theorem SymbolInAlphabet.copy3_20 : SymbolInAlphabet.Statement .copy3_20 := by unfold SymbolInAlphabet.Statement; decide
theorem SymbolInAlphabet.copy3_21 : SymbolInAlphabet.Statement .copy3_21 := by unfold SymbolInAlphabet.Statement; decide
theorem SymbolInAlphabet.copy3_22 : SymbolInAlphabet.Statement .copy3_22 := by unfold SymbolInAlphabet.Statement; decide
theorem SymbolInAlphabet.copy3_23 : SymbolInAlphabet.Statement .copy3_23 := by unfold SymbolInAlphabet.Statement; decide
theorem SymbolInAlphabet.copy3_24 : SymbolInAlphabet.Statement .copy3_24 := by unfold SymbolInAlphabet.Statement; decide
theorem SymbolInAlphabet.copy3_25 : SymbolInAlphabet.Statement .copy3_25 := by unfold SymbolInAlphabet.Statement; decide
theorem SymbolInAlphabet.copy3_26 : SymbolInAlphabet.Statement .copy3_26 := by unfold SymbolInAlphabet.Statement; decide
theorem SymbolInAlphabet.copy3_27 : SymbolInAlphabet.Statement .copy3_27 := by unfold SymbolInAlphabet.Statement; decide
theorem SymbolInAlphabet.copy3_28 : SymbolInAlphabet.Statement .copy3_28 := by unfold SymbolInAlphabet.Statement; decide
theorem SymbolInAlphabet.copy3_29 : SymbolInAlphabet.Statement .copy3_29 := by unfold SymbolInAlphabet.Statement; decide
theorem SymbolInAlphabet.copy3_30 : SymbolInAlphabet.Statement .copy3_30 := by unfold SymbolInAlphabet.Statement; decide
theorem SymbolInAlphabet.copy3_31 : SymbolInAlphabet.Statement .copy3_31 := by unfold SymbolInAlphabet.Statement; decide
theorem SymbolInAlphabet.copy3_32 : SymbolInAlphabet.Statement .copy3_32 := by unfold SymbolInAlphabet.Statement; decide
theorem SymbolInAlphabet.copy3_33 : SymbolInAlphabet.Statement .copy3_33 := by unfold SymbolInAlphabet.Statement; decide
theorem SymbolInAlphabet.copy3_34 : SymbolInAlphabet.Statement .copy3_34 := by unfold SymbolInAlphabet.Statement; decide
theorem SymbolInAlphabet.copy3_35 : SymbolInAlphabet.Statement .copy3_35 := by unfold SymbolInAlphabet.Statement; decide
theorem SymbolInAlphabet.copy3_36 : SymbolInAlphabet.Statement .copy3_36 := by unfold SymbolInAlphabet.Statement; decide
theorem SymbolInAlphabet.copy3_37 : SymbolInAlphabet.Statement .copy3_37 := by unfold SymbolInAlphabet.Statement; decide
theorem SymbolInAlphabet.copy3_38 : SymbolInAlphabet.Statement .copy3_38 := by unfold SymbolInAlphabet.Statement; decide
theorem SymbolInAlphabet.copy3_39 : SymbolInAlphabet.Statement .copy3_39 := by unfold SymbolInAlphabet.Statement; decide
theorem SymbolInAlphabet.copy3_40 : SymbolInAlphabet.Statement .copy3_40 := by unfold SymbolInAlphabet.Statement; decide
theorem SymbolInAlphabet.copy3_41 : SymbolInAlphabet.Statement .copy3_41 := by unfold SymbolInAlphabet.Statement; decide
theorem SymbolInAlphabet.copy3_42 : SymbolInAlphabet.Statement .copy3_42 := by unfold SymbolInAlphabet.Statement; decide
theorem SymbolInAlphabet.copy3_43 : SymbolInAlphabet.Statement .copy3_43 := by unfold SymbolInAlphabet.Statement; decide
theorem SymbolInAlphabet.copy3_44 : SymbolInAlphabet.Statement .copy3_44 := by unfold SymbolInAlphabet.Statement; decide
theorem SymbolInAlphabet.copy3_45 : SymbolInAlphabet.Statement .copy3_45 := by unfold SymbolInAlphabet.Statement; decide
theorem SymbolInAlphabet.copy3_46 : SymbolInAlphabet.Statement .copy3_46 := by unfold SymbolInAlphabet.Statement; decide
theorem SymbolInAlphabet.copy3_47 : SymbolInAlphabet.Statement .copy3_47 := by unfold SymbolInAlphabet.Statement; decide
theorem SymbolInAlphabet.copy3_48 : SymbolInAlphabet.Statement .copy3_48 := by unfold SymbolInAlphabet.Statement; decide
theorem SymbolInAlphabet.copy3_49 : SymbolInAlphabet.Statement .copy3_49 := by unfold SymbolInAlphabet.Statement; decide
theorem SymbolInAlphabet.copy3_50 : SymbolInAlphabet.Statement .copy3_50 := by unfold SymbolInAlphabet.Statement; decide
theorem SymbolInAlphabet.copy3_51 : SymbolInAlphabet.Statement .copy3_51 := by unfold SymbolInAlphabet.Statement; decide
theorem SymbolInAlphabet.copy3_52 : SymbolInAlphabet.Statement .copy3_52 := by unfold SymbolInAlphabet.Statement; decide
theorem SymbolInAlphabet.copy3_53 : SymbolInAlphabet.Statement .copy3_53 := by unfold SymbolInAlphabet.Statement; decide
theorem SymbolInAlphabet.copy3_54 : SymbolInAlphabet.Statement .copy3_54 := by unfold SymbolInAlphabet.Statement; decide
theorem SymbolInAlphabet.copy3_55 : SymbolInAlphabet.Statement .copy3_55 := by unfold SymbolInAlphabet.Statement; decide
theorem SymbolInAlphabet.copy3_56 : SymbolInAlphabet.Statement .copy3_56 := by unfold SymbolInAlphabet.Statement; decide
theorem SymbolInAlphabet.copy3_57 : SymbolInAlphabet.Statement .copy3_57 := by unfold SymbolInAlphabet.Statement; decide
theorem SymbolInAlphabet.copy3_58 : SymbolInAlphabet.Statement .copy3_58 := by unfold SymbolInAlphabet.Statement; decide
theorem SymbolInAlphabet.copy3_59 : SymbolInAlphabet.Statement .copy3_59 := by unfold SymbolInAlphabet.Statement; decide
theorem SymbolInAlphabet.copy3_60 : SymbolInAlphabet.Statement .copy3_60 := by unfold SymbolInAlphabet.Statement; decide
theorem SymbolInAlphabet.copy3_61 : SymbolInAlphabet.Statement .copy3_61 := by unfold SymbolInAlphabet.Statement; decide
theorem SymbolInAlphabet.copy3_62 : SymbolInAlphabet.Statement .copy3_62 := by unfold SymbolInAlphabet.Statement; decide
theorem SymbolInAlphabet.copy3_63 : SymbolInAlphabet.Statement .copy3_63 := by unfold SymbolInAlphabet.Statement; decide
theorem SymbolInAlphabet.copy3_64 : SymbolInAlphabet.Statement .copy3_64 := by unfold SymbolInAlphabet.Statement; decide
theorem SymbolInAlphabet.copy4_3 : SymbolInAlphabet.Statement .copy4_3 := by unfold SymbolInAlphabet.Statement; decide
theorem SymbolInAlphabet.copy4_4 : SymbolInAlphabet.Statement .copy4_4 := by unfold SymbolInAlphabet.Statement; decide
theorem SymbolInAlphabet.copy4_5 : SymbolInAlphabet.Statement .copy4_5 := by unfold SymbolInAlphabet.Statement; decide
theorem SymbolInAlphabet.copy4_6 : SymbolInAlphabet.Statement .copy4_6 := by unfold SymbolInAlphabet.Statement; decide
theorem SymbolInAlphabet.copy4_7 : SymbolInAlphabet.Statement .copy4_7 := by unfold SymbolInAlphabet.Statement; decide
theorem SymbolInAlphabet.copy4_8 : SymbolInAlphabet.Statement .copy4_8 := by unfold SymbolInAlphabet.Statement; decide
theorem SymbolInAlphabet.copy4_9 : SymbolInAlphabet.Statement .copy4_9 := by unfold SymbolInAlphabet.Statement; decide
theorem SymbolInAlphabet.copy4_10 : SymbolInAlphabet.Statement .copy4_10 := by unfold SymbolInAlphabet.Statement; decide
theorem SymbolInAlphabet.copy4_11 : SymbolInAlphabet.Statement .copy4_11 := by unfold SymbolInAlphabet.Statement; decide
theorem SymbolInAlphabet.copy4_12 : SymbolInAlphabet.Statement .copy4_12 := by unfold SymbolInAlphabet.Statement; decide
theorem SymbolInAlphabet.copy4_13 : SymbolInAlphabet.Statement .copy4_13 := by unfold SymbolInAlphabet.Statement; decide
theorem SymbolInAlphabet.copy4_14 : SymbolInAlphabet.Statement .copy4_14 := by unfold SymbolInAlphabet.Statement; decide
theorem SymbolInAlphabet.copy4_15 : SymbolInAlphabet.Statement .copy4_15 := by unfold SymbolInAlphabet.Statement; decide
theorem SymbolInAlphabet.copy4_16 : SymbolInAlphabet.Statement .copy4_16 := by unfold SymbolInAlphabet.Statement; decide
theorem SymbolInAlphabet.copy4_17 : SymbolInAlphabet.Statement .copy4_17 := by unfold SymbolInAlphabet.Statement; decide
theorem SymbolInAlphabet.copy4_18 : SymbolInAlphabet.Statement .copy4_18 := by unfold SymbolInAlphabet.Statement; decide
theorem SymbolInAlphabet.copy4_19 : SymbolInAlphabet.Statement .copy4_19 := by unfold SymbolInAlphabet.Statement; decide
theorem SymbolInAlphabet.copy4_20 : SymbolInAlphabet.Statement .copy4_20 := by unfold SymbolInAlphabet.Statement; decide
theorem SymbolInAlphabet.copy4_21 : SymbolInAlphabet.Statement .copy4_21 := by unfold SymbolInAlphabet.Statement; decide
theorem SymbolInAlphabet.copy4_22 : SymbolInAlphabet.Statement .copy4_22 := by unfold SymbolInAlphabet.Statement; decide
theorem SymbolInAlphabet.copy4_23 : SymbolInAlphabet.Statement .copy4_23 := by unfold SymbolInAlphabet.Statement; decide
theorem SymbolInAlphabet.copy4_24 : SymbolInAlphabet.Statement .copy4_24 := by unfold SymbolInAlphabet.Statement; decide
theorem SymbolInAlphabet.copy4_25 : SymbolInAlphabet.Statement .copy4_25 := by unfold SymbolInAlphabet.Statement; decide
theorem SymbolInAlphabet.copy4_26 : SymbolInAlphabet.Statement .copy4_26 := by unfold SymbolInAlphabet.Statement; decide
theorem SymbolInAlphabet.copy4_27 : SymbolInAlphabet.Statement .copy4_27 := by unfold SymbolInAlphabet.Statement; decide
theorem SymbolInAlphabet.copy4_28 : SymbolInAlphabet.Statement .copy4_28 := by unfold SymbolInAlphabet.Statement; decide
theorem SymbolInAlphabet.copy4_29 : SymbolInAlphabet.Statement .copy4_29 := by unfold SymbolInAlphabet.Statement; decide
theorem SymbolInAlphabet.copy4_30 : SymbolInAlphabet.Statement .copy4_30 := by unfold SymbolInAlphabet.Statement; decide
theorem SymbolInAlphabet.copy4_31 : SymbolInAlphabet.Statement .copy4_31 := by unfold SymbolInAlphabet.Statement; decide
theorem SymbolInAlphabet.copy4_32 : SymbolInAlphabet.Statement .copy4_32 := by unfold SymbolInAlphabet.Statement; decide
theorem SymbolInAlphabet.copy4_33 : SymbolInAlphabet.Statement .copy4_33 := by unfold SymbolInAlphabet.Statement; decide
theorem SymbolInAlphabet.copy4_34 : SymbolInAlphabet.Statement .copy4_34 := by unfold SymbolInAlphabet.Statement; decide
theorem SymbolInAlphabet.copy4_35 : SymbolInAlphabet.Statement .copy4_35 := by unfold SymbolInAlphabet.Statement; decide
theorem SymbolInAlphabet.copy4_36 : SymbolInAlphabet.Statement .copy4_36 := by unfold SymbolInAlphabet.Statement; decide
theorem SymbolInAlphabet.copy4_37 : SymbolInAlphabet.Statement .copy4_37 := by unfold SymbolInAlphabet.Statement; decide
theorem SymbolInAlphabet.copy4_38 : SymbolInAlphabet.Statement .copy4_38 := by unfold SymbolInAlphabet.Statement; decide
theorem SymbolInAlphabet.copy4_39 : SymbolInAlphabet.Statement .copy4_39 := by unfold SymbolInAlphabet.Statement; decide
theorem SymbolInAlphabet.copy4_40 : SymbolInAlphabet.Statement .copy4_40 := by unfold SymbolInAlphabet.Statement; decide
theorem SymbolInAlphabet.copy4_41 : SymbolInAlphabet.Statement .copy4_41 := by unfold SymbolInAlphabet.Statement; decide
theorem SymbolInAlphabet.copy4_42 : SymbolInAlphabet.Statement .copy4_42 := by unfold SymbolInAlphabet.Statement; decide
theorem SymbolInAlphabet.copy4_43 : SymbolInAlphabet.Statement .copy4_43 := by unfold SymbolInAlphabet.Statement; decide
theorem SymbolInAlphabet.copy4_44 : SymbolInAlphabet.Statement .copy4_44 := by unfold SymbolInAlphabet.Statement; decide
theorem SymbolInAlphabet.copy4_45 : SymbolInAlphabet.Statement .copy4_45 := by unfold SymbolInAlphabet.Statement; decide
theorem SymbolInAlphabet.copy4_46 : SymbolInAlphabet.Statement .copy4_46 := by unfold SymbolInAlphabet.Statement; decide
theorem SymbolInAlphabet.copy4_47 : SymbolInAlphabet.Statement .copy4_47 := by unfold SymbolInAlphabet.Statement; decide
theorem SymbolInAlphabet.copy4_48 : SymbolInAlphabet.Statement .copy4_48 := by unfold SymbolInAlphabet.Statement; decide
theorem SymbolInAlphabet.copy4_49 : SymbolInAlphabet.Statement .copy4_49 := by unfold SymbolInAlphabet.Statement; decide
theorem SymbolInAlphabet.copy4_50 : SymbolInAlphabet.Statement .copy4_50 := by unfold SymbolInAlphabet.Statement; decide
theorem SymbolInAlphabet.copy4_51 : SymbolInAlphabet.Statement .copy4_51 := by unfold SymbolInAlphabet.Statement; decide
theorem SymbolInAlphabet.copy4_52 : SymbolInAlphabet.Statement .copy4_52 := by unfold SymbolInAlphabet.Statement; decide
theorem SymbolInAlphabet.copy4_53 : SymbolInAlphabet.Statement .copy4_53 := by unfold SymbolInAlphabet.Statement; decide
theorem SymbolInAlphabet.copy4_54 : SymbolInAlphabet.Statement .copy4_54 := by unfold SymbolInAlphabet.Statement; decide
theorem SymbolInAlphabet.copy4_55 : SymbolInAlphabet.Statement .copy4_55 := by unfold SymbolInAlphabet.Statement; decide
theorem SymbolInAlphabet.copy4_56 : SymbolInAlphabet.Statement .copy4_56 := by unfold SymbolInAlphabet.Statement; decide
theorem SymbolInAlphabet.copy4_57 : SymbolInAlphabet.Statement .copy4_57 := by unfold SymbolInAlphabet.Statement; decide
theorem SymbolInAlphabet.copy4_58 : SymbolInAlphabet.Statement .copy4_58 := by unfold SymbolInAlphabet.Statement; decide
theorem SymbolInAlphabet.copy4_59 : SymbolInAlphabet.Statement .copy4_59 := by unfold SymbolInAlphabet.Statement; decide
theorem SymbolInAlphabet.copy4_60 : SymbolInAlphabet.Statement .copy4_60 := by unfold SymbolInAlphabet.Statement; decide
theorem SymbolInAlphabet.copy4_61 : SymbolInAlphabet.Statement .copy4_61 := by unfold SymbolInAlphabet.Statement; decide
theorem SymbolInAlphabet.copy4_62 : SymbolInAlphabet.Statement .copy4_62 := by unfold SymbolInAlphabet.Statement; decide
theorem SymbolInAlphabet.copy4_63 : SymbolInAlphabet.Statement .copy4_63 := by unfold SymbolInAlphabet.Statement; decide
theorem SymbolInAlphabet.copy4_64 : SymbolInAlphabet.Statement .copy4_64 := by unfold SymbolInAlphabet.Statement; decide
theorem SymbolInAlphabet.copy5_3 : SymbolInAlphabet.Statement .copy5_3 := by unfold SymbolInAlphabet.Statement; decide
theorem SymbolInAlphabet.copy5_4 : SymbolInAlphabet.Statement .copy5_4 := by unfold SymbolInAlphabet.Statement; decide
theorem SymbolInAlphabet.copy5_5 : SymbolInAlphabet.Statement .copy5_5 := by unfold SymbolInAlphabet.Statement; decide
theorem SymbolInAlphabet.copy5_6 : SymbolInAlphabet.Statement .copy5_6 := by unfold SymbolInAlphabet.Statement; decide
theorem SymbolInAlphabet.copy5_7 : SymbolInAlphabet.Statement .copy5_7 := by unfold SymbolInAlphabet.Statement; decide
theorem SymbolInAlphabet.copy5_8 : SymbolInAlphabet.Statement .copy5_8 := by unfold SymbolInAlphabet.Statement; decide
theorem SymbolInAlphabet.copy5_9 : SymbolInAlphabet.Statement .copy5_9 := by unfold SymbolInAlphabet.Statement; decide
theorem SymbolInAlphabet.copy5_10 : SymbolInAlphabet.Statement .copy5_10 := by unfold SymbolInAlphabet.Statement; decide
theorem SymbolInAlphabet.copy5_11 : SymbolInAlphabet.Statement .copy5_11 := by unfold SymbolInAlphabet.Statement; decide
theorem SymbolInAlphabet.copy5_12 : SymbolInAlphabet.Statement .copy5_12 := by unfold SymbolInAlphabet.Statement; decide
theorem SymbolInAlphabet.copy5_13 : SymbolInAlphabet.Statement .copy5_13 := by unfold SymbolInAlphabet.Statement; decide
theorem SymbolInAlphabet.copy5_14 : SymbolInAlphabet.Statement .copy5_14 := by unfold SymbolInAlphabet.Statement; decide
theorem SymbolInAlphabet.copy5_15 : SymbolInAlphabet.Statement .copy5_15 := by unfold SymbolInAlphabet.Statement; decide
theorem SymbolInAlphabet.copy5_16 : SymbolInAlphabet.Statement .copy5_16 := by unfold SymbolInAlphabet.Statement; decide
theorem SymbolInAlphabet.copy5_17 : SymbolInAlphabet.Statement .copy5_17 := by unfold SymbolInAlphabet.Statement; decide
theorem SymbolInAlphabet.copy5_18 : SymbolInAlphabet.Statement .copy5_18 := by unfold SymbolInAlphabet.Statement; decide
theorem SymbolInAlphabet.copy5_19 : SymbolInAlphabet.Statement .copy5_19 := by unfold SymbolInAlphabet.Statement; decide
theorem SymbolInAlphabet.copy5_20 : SymbolInAlphabet.Statement .copy5_20 := by unfold SymbolInAlphabet.Statement; decide
theorem SymbolInAlphabet.copy5_21 : SymbolInAlphabet.Statement .copy5_21 := by unfold SymbolInAlphabet.Statement; decide
theorem SymbolInAlphabet.copy5_22 : SymbolInAlphabet.Statement .copy5_22 := by unfold SymbolInAlphabet.Statement; decide
theorem SymbolInAlphabet.copy5_23 : SymbolInAlphabet.Statement .copy5_23 := by unfold SymbolInAlphabet.Statement; decide
theorem SymbolInAlphabet.copy5_24 : SymbolInAlphabet.Statement .copy5_24 := by unfold SymbolInAlphabet.Statement; decide
theorem SymbolInAlphabet.copy5_25 : SymbolInAlphabet.Statement .copy5_25 := by unfold SymbolInAlphabet.Statement; decide
theorem SymbolInAlphabet.copy5_26 : SymbolInAlphabet.Statement .copy5_26 := by unfold SymbolInAlphabet.Statement; decide
theorem SymbolInAlphabet.copy5_27 : SymbolInAlphabet.Statement .copy5_27 := by unfold SymbolInAlphabet.Statement; decide
theorem SymbolInAlphabet.copy5_28 : SymbolInAlphabet.Statement .copy5_28 := by unfold SymbolInAlphabet.Statement; decide
theorem SymbolInAlphabet.copy5_29 : SymbolInAlphabet.Statement .copy5_29 := by unfold SymbolInAlphabet.Statement; decide
theorem SymbolInAlphabet.copy5_30 : SymbolInAlphabet.Statement .copy5_30 := by unfold SymbolInAlphabet.Statement; decide
theorem SymbolInAlphabet.copy5_31 : SymbolInAlphabet.Statement .copy5_31 := by unfold SymbolInAlphabet.Statement; decide
theorem SymbolInAlphabet.copy5_32 : SymbolInAlphabet.Statement .copy5_32 := by unfold SymbolInAlphabet.Statement; decide
theorem SymbolInAlphabet.copy5_33 : SymbolInAlphabet.Statement .copy5_33 := by unfold SymbolInAlphabet.Statement; decide
theorem SymbolInAlphabet.copy5_34 : SymbolInAlphabet.Statement .copy5_34 := by unfold SymbolInAlphabet.Statement; decide
theorem SymbolInAlphabet.copy5_35 : SymbolInAlphabet.Statement .copy5_35 := by unfold SymbolInAlphabet.Statement; decide
theorem SymbolInAlphabet.copy5_36 : SymbolInAlphabet.Statement .copy5_36 := by unfold SymbolInAlphabet.Statement; decide
theorem SymbolInAlphabet.copy5_37 : SymbolInAlphabet.Statement .copy5_37 := by unfold SymbolInAlphabet.Statement; decide
theorem SymbolInAlphabet.copy5_38 : SymbolInAlphabet.Statement .copy5_38 := by unfold SymbolInAlphabet.Statement; decide
theorem SymbolInAlphabet.copy5_39 : SymbolInAlphabet.Statement .copy5_39 := by unfold SymbolInAlphabet.Statement; decide
theorem SymbolInAlphabet.copy5_40 : SymbolInAlphabet.Statement .copy5_40 := by unfold SymbolInAlphabet.Statement; decide
theorem SymbolInAlphabet.copy5_41 : SymbolInAlphabet.Statement .copy5_41 := by unfold SymbolInAlphabet.Statement; decide
theorem SymbolInAlphabet.copy5_42 : SymbolInAlphabet.Statement .copy5_42 := by unfold SymbolInAlphabet.Statement; decide
theorem SymbolInAlphabet.copy5_43 : SymbolInAlphabet.Statement .copy5_43 := by unfold SymbolInAlphabet.Statement; decide
theorem SymbolInAlphabet.copy5_44 : SymbolInAlphabet.Statement .copy5_44 := by unfold SymbolInAlphabet.Statement; decide
theorem SymbolInAlphabet.copy5_45 : SymbolInAlphabet.Statement .copy5_45 := by unfold SymbolInAlphabet.Statement; decide
theorem SymbolInAlphabet.copy5_46 : SymbolInAlphabet.Statement .copy5_46 := by unfold SymbolInAlphabet.Statement; decide
theorem SymbolInAlphabet.copy5_47 : SymbolInAlphabet.Statement .copy5_47 := by unfold SymbolInAlphabet.Statement; decide
theorem SymbolInAlphabet.copy5_48 : SymbolInAlphabet.Statement .copy5_48 := by unfold SymbolInAlphabet.Statement; decide
theorem SymbolInAlphabet.copy5_49 : SymbolInAlphabet.Statement .copy5_49 := by unfold SymbolInAlphabet.Statement; decide
theorem SymbolInAlphabet.copy5_50 : SymbolInAlphabet.Statement .copy5_50 := by unfold SymbolInAlphabet.Statement; decide
theorem SymbolInAlphabet.copy5_51 : SymbolInAlphabet.Statement .copy5_51 := by unfold SymbolInAlphabet.Statement; decide
theorem SymbolInAlphabet.copy5_52 : SymbolInAlphabet.Statement .copy5_52 := by unfold SymbolInAlphabet.Statement; decide
theorem SymbolInAlphabet.copy5_53 : SymbolInAlphabet.Statement .copy5_53 := by unfold SymbolInAlphabet.Statement; decide
theorem SymbolInAlphabet.copy5_54 : SymbolInAlphabet.Statement .copy5_54 := by unfold SymbolInAlphabet.Statement; decide
theorem SymbolInAlphabet.copy5_55 : SymbolInAlphabet.Statement .copy5_55 := by unfold SymbolInAlphabet.Statement; decide
theorem SymbolInAlphabet.copy5_56 : SymbolInAlphabet.Statement .copy5_56 := by unfold SymbolInAlphabet.Statement; decide
theorem SymbolInAlphabet.copy5_57 : SymbolInAlphabet.Statement .copy5_57 := by unfold SymbolInAlphabet.Statement; decide
theorem SymbolInAlphabet.copy5_58 : SymbolInAlphabet.Statement .copy5_58 := by unfold SymbolInAlphabet.Statement; decide
theorem SymbolInAlphabet.copy5_59 : SymbolInAlphabet.Statement .copy5_59 := by unfold SymbolInAlphabet.Statement; decide
theorem SymbolInAlphabet.copy5_60 : SymbolInAlphabet.Statement .copy5_60 := by unfold SymbolInAlphabet.Statement; decide
theorem SymbolInAlphabet.copy5_61 : SymbolInAlphabet.Statement .copy5_61 := by unfold SymbolInAlphabet.Statement; decide
theorem SymbolInAlphabet.copy5_62 : SymbolInAlphabet.Statement .copy5_62 := by unfold SymbolInAlphabet.Statement; decide
theorem SymbolInAlphabet.copy5_63 : SymbolInAlphabet.Statement .copy5_63 := by unfold SymbolInAlphabet.Statement; decide
theorem SymbolInAlphabet.copy5_64 : SymbolInAlphabet.Statement .copy5_64 := by unfold SymbolInAlphabet.Statement; decide

end Sys2Proof.Laws
end

