-- ==== Sys2Proof/Laws/Step.lean ====
section
/-!
SUPPORT. What a host transaction, the engine's move and a step can do, said once.
-/

namespace Sys2Proof.Machine

/-! ### Host transactions -/

/-- `START` begins a run exactly when the configuration is valid (R152, R8). -/
theorem startRun_eq_next {hp : HuffParams} {s t : State} : startRun hp s = .next t ↔ s.cfgRegs.valid = true ∧ t = s.started hp := by
  simp only [startRun]
  split
  · next h => simp [h, eq_comm]
  · next h => simp [h]

/-- A write of `CTRL` starts a run, or does nothing (R41). -/
theorem writeCtrl_eq_next {hp : HuffParams} {v : Nat} {s t : State} :
    writeCtrl hp v s = .next t ↔
      (v.testBit 0 = true ∧ s.status ≠ .busy ∧ s.cfgRegs.valid = true ∧ t = s.started hp) ∨
      (¬ (v.testBit 0 = true ∧ s.status ≠ .busy) ∧ t = s) := by
  simp only [writeCtrl]
  split
  · next h => simp [startRun_eq_next, h]
  · next h =>
    constructor
    · intro e; cases e; exact .inr ⟨h, rfl⟩
    · rintro (⟨h1, h2, -⟩ | ⟨-, rfl⟩)
      · exact absurd ⟨h1, h2⟩ h
      · rfl

/-- Everything a host register write can do. -/
theorem hostWrite_eq_next {hp : HuffParams} {reg : HostReg} {v : Nat} {s t : State} (h : hostWrite hp reg v s = .next t) :
    (reg = .ctrl ∧ writeCtrl hp v s = .next t) ∨ (reg = .inLen ∧ t = { s with inLen := v }) ∨
      t = { s with cfgRegs := writeCfg reg v s.cfgRegs } := by
  cases reg <;> simp only [hostWrite, Host.Outcome.next.injEq] at h <;>
    first
    | exact .inl ⟨rfl, h⟩
    | exact .inr (.inl ⟨rfl, h.symm⟩)
    | exact .inr (.inr h.symm)

/-- A host register read changes nothing but the data it returns (and the counter of free values). -/
theorem hostRead_frame (reg : HostReg) (s : State) :
    ∃ v k, hostRead reg s = { s with hostData := v, freeCount := k } := by
  cases reg <;> simp only [hostRead] <;>
    first
    | exact ⟨_, _, rfl⟩
    | (split <;> exact ⟨_, _, rfl⟩)

/-- A host read of the `OUT` window changes nothing but the data it returns (and the counter of free values). -/
theorem hostReadOut_frame (index : Nat) (s : State) :
    ∃ v k, hostReadOut index s = { s with hostData := v, freeCount := k } := by
  simp only [hostReadOut]
  split <;> exact ⟨_, _, rfl⟩

/-- A host write of the `IN` window completes exactly when no run is in progress (R186 (a)). -/
theorem hostWriteIn_eq_next {index : Nat} {v : Byte} {s t : State} :
    hostWriteIn index v s = .next t ↔
      s.status ≠ .busy ∧ t = { s with inWin := Memory.write s.inWin index v } := by
  simp only [hostWriteIn]
  split
  · next h => simp [h]
  · next h => simp [h, eq_comm]

/-- Everything a host transaction can do. -/
theorem hostAccess_eq_next {hp : HuffParams} {op : HostOp} {s t : State} (h : hostAccess hp op s = .next t) :
    (∃ v, op = .write .ctrl v ∧ v.testBit 0 = true ∧ s.status ≠ .busy ∧ s.cfgRegs.valid = true ∧ t = s.started hp) ∨
    (∃ v, t = { s with inLen := v }) ∨
    (∃ c, t = { s with cfgRegs := c }) ∨
    (∃ v k, t = { s with hostData := v, freeCount := k }) ∨
    (∃ i v, op = .writeIn i v ∧ s.status ≠ .busy ∧ t = { s with inWin := Memory.write s.inWin i v }) := by
  cases op with
  | write reg v =>
    rcases hostWrite_eq_next h with ⟨rfl, hc⟩ | ⟨-, rfl⟩ | rfl
    · rcases writeCtrl_eq_next.mp hc with ⟨h1, h2, h3, rfl⟩ | ⟨-, rfl⟩
      · exact .inl ⟨v, rfl, h1, h2, h3, rfl⟩
      · exact .inr (.inl ⟨t.inLen, rfl⟩)
    · exact .inr (.inl ⟨v, rfl⟩)
    · exact .inr (.inr (.inl ⟨_, rfl⟩))
  | read reg =>
    simp only [hostAccess, Host.Outcome.next.injEq] at h
    obtain ⟨v, k, hv⟩ := hostRead_frame reg s
    exact .inr (.inr (.inr (.inl ⟨v, k, h.symm.trans hv⟩)))
  | writeIn i v =>
    obtain ⟨h1, h2⟩ := hostWriteIn_eq_next.mp h
    exact .inr (.inr (.inr (.inr ⟨i, v, rfl, h1, h2⟩)))
  | readOut i =>
    simp only [hostAccess, Host.Outcome.next.injEq] at h
    obtain ⟨v, k, hv⟩ := hostReadOut_frame i s
    exact .inr (.inr (.inr (.inl ⟨v, k, h.symm.trans hv⟩)))
  | wait =>
    simp only [hostAccess, Host.Outcome.next.injEq] at h
    exact .inr (.inl ⟨s.inLen, h.symm⟩)

/-! ### The engine -/

/-- Everything the running of a decoded instruction can answer, by the instruction's operands. -/
theorem runDecoded_toDecoded (op : Op) (s : State) : runDecoded op.toDecoded s = execOp op s := by
  have hr : ∀ (r : CopyRange) (k : Nat) (i : Instr), (copyRows r)[k]? = some i → i.toOp = .copy r (k + 3) := by
    intro r k i h
    have hk : k < 62 := by
      by_contra hk
      rw [List.getElem?_eq_none (by cases r <;> exact Nat.le_of_not_lt hk)] at h
      cases h
    have : ∀ k < 62, ((copyRows r)[k]?).map Instr.toOp = some (.copy r (k + 3)) := by
      cases r <;> decide
    have := this k hk
    rw [h] at this
    simpa using this
  cases op with
  | lit b => rfl
  | term => rfl
  | copy r len =>
    simp only [Op.toDecoded]
    split
    · next h3 =>
      split
      · next i hi =>
        have := hr r _ i hi
        rw [Nat.sub_add_cancel h3] at this
        exact exec_copy this s
      · rfl
    · rfl

/-- One pass of `RUN` that answers a next state: the fetch raised, or the fetched symbol's instruction ran (R140). -/
theorem runOne_eq_next {hp : HuffParams} {s t : State} :
    runOne hp s = .next t ↔
      (∃ e s1, decodeSym hp s = .raise e s1 ∧ t = abort e s1) ∨
      ∃ sym s1 op, decodeSym hp s = .ok sym s1 ∧ dispatchSymbol s1.cfg sym = .ok op ∧ execOp op s1 = .next t := by
  simp only [runOne]
  constructor
  · intro h
    split at h
    · next sym s1 hd =>
      simp only [decodeSymbol] at h
      split at h
      · next d hdec =>
        split at hdec
        · next op hop =>
          simp only [Except.ok.injEq] at hdec
          subst hdec
          rw [runDecoded_toDecoded] at h
          exact .inr ⟨sym, s1, op, hd, hop, h⟩
        · cases hdec
      · cases h
    · next e s1 hd => cases h; exact .inl ⟨e, s1, hd, rfl⟩
    · cases h
  · rintro (⟨e, s1, hd, rfl⟩ | ⟨sym, s1, op, hd, hop, h⟩)
    · simp only [hd]
    · simp only [hd, decodeSymbol, hop, runDecoded_toDecoded]
      exact h

/-- The outcomes of an instruction by its operands that answer a next state. -/
theorem execOp_eq_next {op : Op} {s t : State} :
    execOp op s = .next t ↔
      (∃ b, op = .lit b ∧ t = s.withHist (appendLit s.cfg.historySize b s.hist)) ∨
      (op = .term ∧ t = { s with status := .done, outLen := s.hist.count }) ∨
      (∃ r len, op = .copy r len ∧ copyInstr r len s = .ok () t) ∨
      ∃ r len e s1, op = .copy r len ∧ copyInstr r len s = .raise e s1 ∧ t = abort e s1 := by
  cases op with
  | lit b =>
    simp only [execOp, Host.Outcome.next.injEq]
    constructor
    · intro h; exact .inl ⟨b, rfl, h.symm⟩
    · rintro (⟨b', hb, rfl⟩ | ⟨h, -⟩ | ⟨r, len, h, -⟩ | ⟨r, len, e, s1, h, -⟩)
      · cases hb; rfl
      all_goals cases h
  | term =>
    simp only [execOp, Host.Outcome.next.injEq]
    constructor
    · intro h; exact .inr (.inl ⟨trivial, h.symm⟩)
    · rintro (⟨b', hb, -⟩ | ⟨-, rfl⟩ | ⟨r, len, h, -⟩ | ⟨r, len, e, s1, h, -⟩)
      · cases hb
      · rfl
      all_goals cases h
  | copy r len =>
    simp only [execOp, runCopy, conclude_eq_next]
    constructor
    · rintro (h | ⟨e, s1, h, rfl⟩)
      · exact .inr (.inr (.inl ⟨r, len, rfl, h⟩))
      · exact .inr (.inr (.inr ⟨r, len, e, s1, rfl, h, rfl⟩))
    · rintro (⟨b', hb, -⟩ | ⟨h, -⟩ | ⟨r', len', h, hc⟩ | ⟨r', len', e, s1, h, hc, rfl⟩)
      · cases hb
      · cases h
      · cases h; exact .inl hc
      · cases h; exact .inr ⟨e, s1, hc, rfl⟩

/-! ### The step -/

/-- The engine while no run is in progress: the state is held (R171). -/
theorem engineStep_idle {hp : HuffParams} {s : State} (h : s.status ≠ .busy) : engineStep hp s = .next s := by
  simp [engineStep, h]

/-- The engine during a run. -/
theorem engineStep_busy {hp : HuffParams} {s : State} (h : s.status = .busy) : engineStep hp s = runOne hp s := by
  simp [engineStep, h]

/-- Every step that answers a next state: the host's next transaction, or the engine's move with the queue as it is or after a
`wait`. -/
theorem stepWith_eq_next {hp : HuffParams} {s t : State} (h : stepWith hp s = .next t) :
    (∃ op q, s.hostQueue = op :: q ∧ op ≠ .wait ∧ hostAccess hp op (s.withQueue q) = .next t) ∨
    ∃ q, (s.hostQueue = q ∨ s.hostQueue = .wait :: q) ∧ engineStep hp (s.withQueue q) = .next t := by
  simp only [stepWith] at h
  split at h
  · next hq =>
    have : s.withQueue [] = s := by rw [← hq]; rfl
    exact .inr ⟨[], .inl hq, by rw [this]; exact h⟩
  · next q hq => exact .inr ⟨q, .inr hq, h⟩
  · next op q hne hq => exact .inl ⟨op, q, hq, fun e => hne (e ▸ rfl), h⟩

end Sys2Proof.Machine
end

