-- ==== Sys2Proof/Laws/Stream.lean ====
section
/-!
SUPPORT. The input as a bit sequence beside the cursor, and the invariants of the cursor and of the ring under the
operations that move them.
-/

namespace Sys2Proof.Machine

/-- The bits read and the bits left make up the whole stream (R22). -/
theorem BitCursor.Wf.bitPos_add_bitsLeft {inp : Memory} {len : Nat} {c : BitCursor} (h : c.Wf inp len) :
    c.bitPos + c.bitsLeft len = 8 * len := by
  have := h.pos_le
  have := h.bitcnt_le
  by_cases hb : c.bitcnt = 0
  · simp only [BitCursor.bitPos, BitCursor.bitsLeft]; omega
  · have := (h.buffered hb).1
    simp only [BitCursor.bitPos, BitCursor.bitsLeft]; omega

/-- The first bit of a stretch of the stream, and the rest. -/
theorem streamBits_succ (inp : Memory) (p n : Nat) :
    streamBits inp p (n + 1) = inputBit inp p :: streamBits inp (p + 1) n := by
  simp only [streamBits, List.range_succ_eq_map, List.map_cons, List.map_map, Nat.add_zero]
  congr 1
  apply List.map_congr_left
  intro k _
  simp only [Function.comp]
  rw [show p + (k + 1) = p + 1 + k by omega]

/-- The working registers of `NEXTCODE` are no part of the invariant of the cursor. -/
theorem BitCursor.Wf.congr {inp : Memory} {len : Nat} {c c' : BitCursor} (h : c.Wf inp len) (h1 : c'.pos = c.pos)
    (h2 : c'.bitbuf = c.bitbuf) (h3 : c'.bitcnt = c.bitcnt) : c'.Wf inp len where
  bitcnt_le := by rw [h3]; exact h.bitcnt_le
  pos_le := by rw [h1]; exact h.pos_le
  empty := by rw [h2, h3]; exact h.empty
  buffered := by rw [h1, h2, h3]; exact h.buffered

/-- `NEXTBIT` keeps the invariant of the cursor (R21). -/
theorem BitCursor.Wf.nextBit {inp : Memory} {len : Nat} {c c' : BitCursor} {bit : Bool} (h : c.Wf inp len)
    (hb : Machine.nextBit inp len c = .ok bit c') : c'.Wf inp len := by
  rcases nextBit_eq_ok hb with ⟨h0, -, rfl⟩ | ⟨h0, hp, -, rfl⟩
  · obtain ⟨h1, hvb⟩ := h.buffered h0
    have := h.bitcnt_le
    refine ⟨by simp; omega, h.pos_le, ?_, ?_⟩
    · intro hc
      simp only at hc
      have : c.bitcnt = 1 := by omega
      rw [this] at hvb
      simp only
      rw [hvb, ← BitVec.shiftLeft_add]
      simp [BitVec.shiftLeft_eq_zero]
    · intro hc
      simp only at hc ⊢
      refine ⟨h1, ?_⟩
      rw [hvb, ← BitVec.shiftLeft_add]
      have : 8 - c.bitcnt + 1 = 8 - (c.bitcnt - 1) := by omega
      simp [this]
  · exact ⟨by simp, by simp; omega, by simp, fun _ => by simp⟩

/-- The loop of `NEXTCODE` keeps the invariant of the cursor. -/
theorem BitCursor.Wf.nextCodeLoop {inp : Memory} {len n : Nat} {c c' : BitCursor} {u : Unit} (h : c.Wf inp len)
    (hl : Machine.nextCodeLoop inp len n c = .ok u c') : c'.Wf inp len := by
  induction n generalizing c with
  | zero => cases hl; exact h
  | succ n ih =>
    rw [nextCodeLoop_succ, Res.andThen_eq_ok] at hl
    obtain ⟨bit, c1, hb, hl⟩ := hl
    exact ih ((h.nextBit hb).congr (c' := foldBit bit c1) rfl rfl rfl) hl

/-- The walk of `DECODESYM` keeps the invariant of the cursor. -/
theorem BitCursor.Wf.walk {cfg : Cfg} {inp : Memory} {len f : Nat} {m m' : HuffmanModel} {c c' : BitCursor} {u : Unit}
    (h : c.Wf inp len) (hw : Machine.walk cfg inp len f m c = .ok u (m', c')) : c'.Wf inp len := by
  induction f generalizing m c with
  | zero => cases hw
  | succ f ih =>
    by_cases hleaf : cfg.successMax ≤ m.a
    · rw [walk_leaf hleaf] at hw; cases hw; exact h
    · rw [Machine.walk, if_pos (by omega)] at hw
      cases hb : Machine.nextBit inp len c with
      | ok bit c1 =>
        rw [hb] at hw
        simp only at hw
        split at hw
        · cases hw
        · exact ih (h.nextBit hb) hw
      | raise e c1 => rw [hb] at hw; cases hw
      | refused r => rw [hb] at hw; cases hw

/-- The working registers of `APPLYCOPY` are no part of the invariant of the ring. -/
theorem HistoryRing.Wf.congr {size : Nat} {h h' : HistoryRing} (hw : h.Wf size) (h1 : h'.ring = h.ring)
    (h2 : h'.count = h.count) (h3 : h'.out = h.out) : h'.Wf size where
  count_eq := by rw [h2, h3]; exact hw.count_eq
  window := by rw [h1, h2, h3]; exact hw.window

/-- `APPENDLIT` keeps the ring and `OUT` two views of one stream (R53, R135). -/
theorem HistoryRing.Wf.appendLit {size : Nat} {h : HistoryRing} (hw : h.Wf size) (v : Byte) :
    (Machine.appendLit size v h).Wf size := by
  refine ⟨by simp [hw.count_eq], ?_⟩
  intro k hk hk2
  rw [appendLit_count] at hk hk2
  rw [appendLit_ring, appendLit_out, Memory.read_write]
  by_cases e : k = h.count
  · subst e; rw [if_pos rfl, hw.count_eq]; simp
  · have hlt : k < h.count := by omega
    rw [if_neg]
    · rw [List.getElem?_append_left (by rw [← hw.count_eq]; exact hlt)]
      exact hw.window k hlt (by omega)
    · intro hm
      obtain ⟨d, hd⟩ : ∃ d, h.count = k + d := ⟨h.count - k, by omega⟩
      have h1 : (k + d) % size = k % size := by rw [← hd, hm]
      have h2 := Nat.ModEq.symm (show (k + d) ≡ k + 0 [MOD size] by simpa [Nat.ModEq] using h1)
      have h3 : 0 ≡ d [MOD size] := Nat.ModEq.add_left_cancel' k h2
      have := Nat.le_of_dvd (by omega) (Nat.modEq_zero_iff_dvd.mp h3.symm)
      omega

end Sys2Proof.Machine
end

