-- ==== Sys2Proof/Tests/Slice0.lean ====
section
/-!
SUPPORT. The author's own tests: ill-formed terms that the checks refuse, words of the encoding written out from the spec,
single steps whose results come from spec/95_test_vectors.md or from a rule's own example, and for every statement with
hypotheses a state that meets them.
-/

namespace Sys2Proof.Tests

open Sys2Proof.Machine

/-! ### Well-formedness: each check refuses an ill-formed term (R8, R72, R73, R80) -/

theorem test_default_valid : Cfg.default.valid = true := by decide
theorem test_terminateOk_refuses :
    ({ Cfg.default with terminateCode := 0 } : Cfg).terminateOk = false
      ∧ ({ Cfg.default with terminateCode := 257 } : Cfg).terminateOk = false := by decide
theorem test_firstOk_refuses : ({ Cfg.default with firstCode := 258 } : Cfg).firstOk = false := by decide
theorem test_lengthsOk_refuses :
    ({ Cfg.default with minCopy := 0 } : Cfg).lengthsOk = false
      ∧ ({ Cfg.default with minCopy := 65 } : Cfg).lengthsOk = false := by decide
theorem test_alphabetOk_refuses : ({ Cfg.default with maxChar := 629 } : Cfg).alphabetOk = false := by decide
theorem test_bitsOk_refuses :
    ({ Cfg.default with copyBits := ⟨4, 6, 8, 10, 12, 15⟩ } : Cfg).bitsOk = false := by decide
theorem test_distancesOk_refuses :
    ({ Cfg.default with copyMin := ⟨0, 16, 80, 336, 1360, 5457⟩ } : Cfg).distancesOk = false := by decide
theorem test_frequencyOk_refuses : ({ Cfg.default with maxFrequency := 1 } : Cfg).frequencyOk = false := by decide
theorem test_literalOk_refuses :
    ({ Cfg.default with terminateCode := 65 } : Cfg).literalOk 65 = false ∧ Cfg.default.literalOk 255 = true := by decide
theorem test_copyLengthOk_refuses :
    Cfg.default.copyLengthOk 2 = false ∧ Cfg.default.copyLengthOk 65 = false ∧ Cfg.default.copyLengthOk 64 = true := by
  decide
theorem test_xbitsOk_refuses :
    Cfg.default.xbitsOk .r0 [true, false, true] = false ∧ Cfg.default.xbitsOk .r0 [true, false, true, true] = true := by
  decide

/-! ### Decoding: every row's word, as spec/opcode_table.json has it (R72, R79) -/

theorem test_decode_lit :
    decodeTableWord 16 0b0000000000 = some (.lit 0x00) ∧ decodeTableWord 16 0b0001000001 = some (.lit 0x41)
      ∧ decodeTableWord 16 0b0010000000 = some (.lit 0x80) ∧ decodeTableWord 16 0b0011111111 = some (.lit 0xFF) := by
  decide
theorem test_decode_term : decodeTableWord 16 0b0100000000 = some .term := by decide
theorem test_decode_rejects :
    decodeTableWord 16 629 = none ∧ decodeTableWord 16 1023 = none ∧ decodeTableWord 16 0x8041 = none
      ∧ decodeTableWord 8 0x141 = none := by decide

/-- The rows of one range, with their words. -/
def rowsAgree (rows : List (Nat × Instr)) : Bool := rows.all fun p => decodeTableWord 16 p.1 == some p.2

theorem test_decode_copy0 :
    rowsAgree
    [(0x101, .copy0_3), (0x102, .copy0_4), (0x103, .copy0_5), (0x104, .copy0_6), (0x105, .copy0_7), (0x106, .copy0_8),
     (0x107, .copy0_9), (0x108, .copy0_10), (0x109, .copy0_11), (0x10A, .copy0_12), (0x10B, .copy0_13), (0x10C, .copy0_14),
     (0x10D, .copy0_15), (0x10E, .copy0_16), (0x10F, .copy0_17), (0x110, .copy0_18), (0x111, .copy0_19), (0x112, .copy0_20),
     (0x113, .copy0_21), (0x114, .copy0_22), (0x115, .copy0_23), (0x116, .copy0_24), (0x117, .copy0_25), (0x118, .copy0_26),
     (0x119, .copy0_27), (0x11A, .copy0_28), (0x11B, .copy0_29), (0x11C, .copy0_30), (0x11D, .copy0_31), (0x11E, .copy0_32),
     (0x11F, .copy0_33), (0x120, .copy0_34), (0x121, .copy0_35), (0x122, .copy0_36), (0x123, .copy0_37), (0x124, .copy0_38),
     (0x125, .copy0_39), (0x126, .copy0_40), (0x127, .copy0_41), (0x128, .copy0_42), (0x129, .copy0_43), (0x12A, .copy0_44),
     (0x12B, .copy0_45), (0x12C, .copy0_46), (0x12D, .copy0_47), (0x12E, .copy0_48), (0x12F, .copy0_49), (0x130, .copy0_50),
     (0x131, .copy0_51), (0x132, .copy0_52), (0x133, .copy0_53), (0x134, .copy0_54), (0x135, .copy0_55), (0x136, .copy0_56),
     (0x137, .copy0_57), (0x138, .copy0_58), (0x139, .copy0_59), (0x13A, .copy0_60), (0x13B, .copy0_61), (0x13C, .copy0_62),
     (0x13D, .copy0_63), (0x13E, .copy0_64)] = true := by decide

theorem test_decode_copy1 :
    rowsAgree
    [(0x13F, .copy1_3), (0x140, .copy1_4), (0x141, .copy1_5), (0x142, .copy1_6), (0x143, .copy1_7), (0x144, .copy1_8),
     (0x145, .copy1_9), (0x146, .copy1_10), (0x147, .copy1_11), (0x148, .copy1_12), (0x149, .copy1_13), (0x14A, .copy1_14),
     (0x14B, .copy1_15), (0x14C, .copy1_16), (0x14D, .copy1_17), (0x14E, .copy1_18), (0x14F, .copy1_19), (0x150, .copy1_20),
     (0x151, .copy1_21), (0x152, .copy1_22), (0x153, .copy1_23), (0x154, .copy1_24), (0x155, .copy1_25), (0x156, .copy1_26),
     (0x157, .copy1_27), (0x158, .copy1_28), (0x159, .copy1_29), (0x15A, .copy1_30), (0x15B, .copy1_31), (0x15C, .copy1_32),
     (0x15D, .copy1_33), (0x15E, .copy1_34), (0x15F, .copy1_35), (0x160, .copy1_36), (0x161, .copy1_37), (0x162, .copy1_38),
     (0x163, .copy1_39), (0x164, .copy1_40), (0x165, .copy1_41), (0x166, .copy1_42), (0x167, .copy1_43), (0x168, .copy1_44),
     (0x169, .copy1_45), (0x16A, .copy1_46), (0x16B, .copy1_47), (0x16C, .copy1_48), (0x16D, .copy1_49), (0x16E, .copy1_50),
     (0x16F, .copy1_51), (0x170, .copy1_52), (0x171, .copy1_53), (0x172, .copy1_54), (0x173, .copy1_55), (0x174, .copy1_56),
     (0x175, .copy1_57), (0x176, .copy1_58), (0x177, .copy1_59), (0x178, .copy1_60), (0x179, .copy1_61), (0x17A, .copy1_62),
     (0x17B, .copy1_63), (0x17C, .copy1_64)] = true := by decide

theorem test_decode_copy2 :
    rowsAgree
    [(0x17D, .copy2_3), (0x17E, .copy2_4), (0x17F, .copy2_5), (0x180, .copy2_6), (0x181, .copy2_7), (0x182, .copy2_8),
     (0x183, .copy2_9), (0x184, .copy2_10), (0x185, .copy2_11), (0x186, .copy2_12), (0x187, .copy2_13), (0x188, .copy2_14),
     (0x189, .copy2_15), (0x18A, .copy2_16), (0x18B, .copy2_17), (0x18C, .copy2_18), (0x18D, .copy2_19), (0x18E, .copy2_20),
     (0x18F, .copy2_21), (0x190, .copy2_22), (0x191, .copy2_23), (0x192, .copy2_24), (0x193, .copy2_25), (0x194, .copy2_26),
     (0x195, .copy2_27), (0x196, .copy2_28), (0x197, .copy2_29), (0x198, .copy2_30), (0x199, .copy2_31), (0x19A, .copy2_32),
     (0x19B, .copy2_33), (0x19C, .copy2_34), (0x19D, .copy2_35), (0x19E, .copy2_36), (0x19F, .copy2_37), (0x1A0, .copy2_38),
     (0x1A1, .copy2_39), (0x1A2, .copy2_40), (0x1A3, .copy2_41), (0x1A4, .copy2_42), (0x1A5, .copy2_43), (0x1A6, .copy2_44),
     (0x1A7, .copy2_45), (0x1A8, .copy2_46), (0x1A9, .copy2_47), (0x1AA, .copy2_48), (0x1AB, .copy2_49), (0x1AC, .copy2_50),
     (0x1AD, .copy2_51), (0x1AE, .copy2_52), (0x1AF, .copy2_53), (0x1B0, .copy2_54), (0x1B1, .copy2_55), (0x1B2, .copy2_56),
     (0x1B3, .copy2_57), (0x1B4, .copy2_58), (0x1B5, .copy2_59), (0x1B6, .copy2_60), (0x1B7, .copy2_61), (0x1B8, .copy2_62),
     (0x1B9, .copy2_63), (0x1BA, .copy2_64)] = true := by decide

theorem test_decode_copy3 :
    rowsAgree
    [(0x1BB, .copy3_3), (0x1BC, .copy3_4), (0x1BD, .copy3_5), (0x1BE, .copy3_6), (0x1BF, .copy3_7), (0x1C0, .copy3_8),
     (0x1C1, .copy3_9), (0x1C2, .copy3_10), (0x1C3, .copy3_11), (0x1C4, .copy3_12), (0x1C5, .copy3_13), (0x1C6, .copy3_14),
     (0x1C7, .copy3_15), (0x1C8, .copy3_16), (0x1C9, .copy3_17), (0x1CA, .copy3_18), (0x1CB, .copy3_19), (0x1CC, .copy3_20),
     (0x1CD, .copy3_21), (0x1CE, .copy3_22), (0x1CF, .copy3_23), (0x1D0, .copy3_24), (0x1D1, .copy3_25), (0x1D2, .copy3_26),
     (0x1D3, .copy3_27), (0x1D4, .copy3_28), (0x1D5, .copy3_29), (0x1D6, .copy3_30), (0x1D7, .copy3_31), (0x1D8, .copy3_32),
     (0x1D9, .copy3_33), (0x1DA, .copy3_34), (0x1DB, .copy3_35), (0x1DC, .copy3_36), (0x1DD, .copy3_37), (0x1DE, .copy3_38),
     (0x1DF, .copy3_39), (0x1E0, .copy3_40), (0x1E1, .copy3_41), (0x1E2, .copy3_42), (0x1E3, .copy3_43), (0x1E4, .copy3_44),
     (0x1E5, .copy3_45), (0x1E6, .copy3_46), (0x1E7, .copy3_47), (0x1E8, .copy3_48), (0x1E9, .copy3_49), (0x1EA, .copy3_50),
     (0x1EB, .copy3_51), (0x1EC, .copy3_52), (0x1ED, .copy3_53), (0x1EE, .copy3_54), (0x1EF, .copy3_55), (0x1F0, .copy3_56),
     (0x1F1, .copy3_57), (0x1F2, .copy3_58), (0x1F3, .copy3_59), (0x1F4, .copy3_60), (0x1F5, .copy3_61), (0x1F6, .copy3_62),
     (0x1F7, .copy3_63), (0x1F8, .copy3_64)] = true := by decide

theorem test_decode_copy4 :
    rowsAgree
    [(0x1F9, .copy4_3), (0x1FA, .copy4_4), (0x1FB, .copy4_5), (0x1FC, .copy4_6), (0x1FD, .copy4_7), (0x1FE, .copy4_8),
     (0x1FF, .copy4_9), (0x200, .copy4_10), (0x201, .copy4_11), (0x202, .copy4_12), (0x203, .copy4_13), (0x204, .copy4_14),
     (0x205, .copy4_15), (0x206, .copy4_16), (0x207, .copy4_17), (0x208, .copy4_18), (0x209, .copy4_19), (0x20A, .copy4_20),
     (0x20B, .copy4_21), (0x20C, .copy4_22), (0x20D, .copy4_23), (0x20E, .copy4_24), (0x20F, .copy4_25), (0x210, .copy4_26),
     (0x211, .copy4_27), (0x212, .copy4_28), (0x213, .copy4_29), (0x214, .copy4_30), (0x215, .copy4_31), (0x216, .copy4_32),
     (0x217, .copy4_33), (0x218, .copy4_34), (0x219, .copy4_35), (0x21A, .copy4_36), (0x21B, .copy4_37), (0x21C, .copy4_38),
     (0x21D, .copy4_39), (0x21E, .copy4_40), (0x21F, .copy4_41), (0x220, .copy4_42), (0x221, .copy4_43), (0x222, .copy4_44),
     (0x223, .copy4_45), (0x224, .copy4_46), (0x225, .copy4_47), (0x226, .copy4_48), (0x227, .copy4_49), (0x228, .copy4_50),
     (0x229, .copy4_51), (0x22A, .copy4_52), (0x22B, .copy4_53), (0x22C, .copy4_54), (0x22D, .copy4_55), (0x22E, .copy4_56),
     (0x22F, .copy4_57), (0x230, .copy4_58), (0x231, .copy4_59), (0x232, .copy4_60), (0x233, .copy4_61), (0x234, .copy4_62),
     (0x235, .copy4_63), (0x236, .copy4_64)] = true := by decide

theorem test_decode_copy5 :
    rowsAgree
    [(0x237, .copy5_3), (0x238, .copy5_4), (0x239, .copy5_5), (0x23A, .copy5_6), (0x23B, .copy5_7), (0x23C, .copy5_8),
     (0x23D, .copy5_9), (0x23E, .copy5_10), (0x23F, .copy5_11), (0x240, .copy5_12), (0x241, .copy5_13), (0x242, .copy5_14),
     (0x243, .copy5_15), (0x244, .copy5_16), (0x245, .copy5_17), (0x246, .copy5_18), (0x247, .copy5_19), (0x248, .copy5_20),
     (0x249, .copy5_21), (0x24A, .copy5_22), (0x24B, .copy5_23), (0x24C, .copy5_24), (0x24D, .copy5_25), (0x24E, .copy5_26),
     (0x24F, .copy5_27), (0x250, .copy5_28), (0x251, .copy5_29), (0x252, .copy5_30), (0x253, .copy5_31), (0x254, .copy5_32),
     (0x255, .copy5_33), (0x256, .copy5_34), (0x257, .copy5_35), (0x258, .copy5_36), (0x259, .copy5_37), (0x25A, .copy5_38),
     (0x25B, .copy5_39), (0x25C, .copy5_40), (0x25D, .copy5_41), (0x25E, .copy5_42), (0x25F, .copy5_43), (0x260, .copy5_44),
     (0x261, .copy5_45), (0x262, .copy5_46), (0x263, .copy5_47), (0x264, .copy5_48), (0x265, .copy5_49), (0x266, .copy5_50),
     (0x267, .copy5_51), (0x268, .copy5_52), (0x269, .copy5_53), (0x26A, .copy5_54), (0x26B, .copy5_55), (0x26C, .copy5_56),
     (0x26D, .copy5_57), (0x26E, .copy5_58), (0x26F, .copy5_59), (0x270, .copy5_60), (0x271, .copy5_61), (0x272, .copy5_62),
     (0x273, .copy5_63), (0x274, .copy5_64)] = true := by decide


/-! ### Values of the spec's vectors -/

/-- The cursor at the start of a run (R48). -/
def cursor0 : BitCursor := { pos := 0, bitbuf := 0, bitcnt := 0, code := 0, mask := 0 }

/-- The value of an operation that completed, and the state it left. -/
def okOf {σ α : Type} (x : Res σ α) : Option (α × σ) :=
  match x with
  | .ok v s => some (v, s)
  | .raise _ _ => none
  | .refused _ => none

/-- The error of an operation that raised, and the state it left. -/
def raisedBy {σ α : Type} (x : Res σ α) : Option (ErrKind × σ) :=
  match x with
  | .ok _ _ => none
  | .raise e s => some (e, s)
  | .refused _ => none

/-- The next state of an outcome. -/
def nextOf (x : Host.Outcome State Fault Refusal) : Option State :=
  match x with
  | .next s => some s
  | .fault _ => none
  | .refused _ => none

/-- V13, R90: the first bit of 0x80. -/
theorem test_nextBit_first :
    okOf (nextBit [(0, 0x80)] 1 cursor0) = some (true, { cursor0 with pos := 1, bitcnt := 7 }) := by decide
/-- V11. -/
theorem test_nextBit_empty : raisedBy (nextBit [] 0 cursor0) = some (.unexpectedEndOfStream, cursor0) := by decide
/-- V18: `1011` gives 7, with (code, mask) = (7, 14). -/
theorem test_nextCode_1011 :
    okOf (nextCode [(0, 0xB0)] 1 4 cursor0) = some (7, { pos := 1, bitbuf := 0, bitcnt := 4, code := 7, mask := 14 }) := by
  decide
/-- V20, V21: `101010` gives 7 and `011111` gives 0. -/
theorem test_nextCode_six :
    (okOf (nextCode [(0, 0xA8)] 1 6 cursor0)).map Prod.fst = some 7
      ∧ (okOf (nextCode [(0, 0x7C)] 1 6 cursor0)).map Prod.fst = some 0 := by decide
/-- V22: fourteen 1 bits give 16383, and `mask` reaches 32766. -/
theorem test_nextCode_fourteen :
    (okOf (nextCode [(0, 0xFF), (1, 0xFC)] 2 14 cursor0)).map (fun p => (p.1, p.2.mask, p.2.bitcnt))
      = some (16383, 32766, 2) := by decide
/-- V24: the second read runs out of bits after four of six. -/
theorem test_nextCode_short :
    (raisedBy (nextCode [(0, 0xF0)] 1 6 { cursor0 with pos := 1, bitcnt := 4 })).map
      (fun p => (p.1, p.2.pos, p.2.bitcnt)) = some (.unexpectedEndOfStream, 1, 0) := by decide

/-- A history part with the given output, in a ring that has not wrapped. -/
def histOf (out : List Byte) : HistoryRing :=
  { ring := memoryFrom 0 out, count := out.length, out := out, rd := 0, i := 0 }

/-- V38. -/
theorem test_appendLit_first :
    appendLit 21903 0x41 (histOf []) = { ring := [(0, 0x41)], count := 1, out := [0x41], rd := 0, i := 0 } := by decide
/-- V40: distance 1 repeats one byte. -/
theorem test_applyCopy_run :
    (okOf (applyCopy 21903 5 1 (histOf [0x41]))).map (fun p => p.2.out) = some [0x41, 0x41, 0x41, 0x41, 0x41, 0x41] := by
  decide
/-- V42: distance 2 below length 5 repeats with period 2. -/
theorem test_applyCopy_period :
    (okOf (applyCopy 21903 5 2 (histOf [0x61, 0x62]))).map (fun p => p.2.out)
      = some [0x61, 0x62, 0x61, 0x62, 0x61, 0x62, 0x61] := by decide
/-- V43, V44: a distance equal to `count` is legal, one more is not. -/
theorem test_applyCopy_boundary :
    (okOf (applyCopy 21903 3 4 (histOf [1, 2, 3, 4]))).map (fun p => p.2.out) = some [1, 2, 3, 4, 1, 2, 3]
      ∧ raisedBy (applyCopy 21903 3 4 (histOf [1, 2, 3])) = some (.invalidDistance, histOf [1, 2, 3]) := by decide
/-- V46: the store index wraps and the load index does not yet. -/
theorem test_applyCopy_wrap :
    (okOf (applyCopy 21903 3 3
      { ring := [(21900, 7), (21901, 8), (21902, 9)], count := 21903, out := [], rd := 0, i := 0 })).map
        (fun p => (p.2.ring, p.2.count))
      = some ([(0, 7), (1, 8), (2, 9), (21900, 7), (21901, 8), (21902, 9)], 21906) := by decide

/-! ### One step on the default configuration -/

/-- A run just started on the given input (R48, R180). -/
def startedOn (bytes : List Byte) : State :=
  ({ State.reset with inWin := memoryFrom 0 bytes, inLen := bytes.length } : State).started .default

/-- P1, first instruction: `010110110` is symbol 65, `LIT 'A'`; nine bits are consumed. -/
theorem test_step_lit :
    (nextOf (step (startedOn [0x5B, 0x65, 0x75]))).map (fun t => (t.hist.out, t.cursor.pos, t.cursor.bitcnt, t.dec.sym))
      = some ([0x41], 2, 7, 65) := by decide +kernel
/-- V61: `101110101` is `TERM`; the output is empty. -/
theorem test_step_term :
    (nextOf (step (startedOn [0xBA, 0x80]))).map (fun t => (t.status, t.outLen, t.cursor.pos, t.cursor.bitcnt))
      = some (.done, 0, 2, 7) := by decide +kernel
/-- V64, P5: `101110110 0000` is `COPY0` with distance 3 and nothing to copy from. -/
theorem test_step_copy_too_far :
    (nextOf (step (startedOn [0xBB, 0x00]))).map (fun t => (t.status, t.errcode, t.outLen))
      = some (.error, some .invalidDistance, 0) := by decide +kernel
/-- V66: `111111111` is symbol 394, `COPY2` with 8 extra bits, of which 7 remain: the end of the stream comes first. -/
theorem test_step_copy_cut :
    (nextOf (step (startedOn [0xFF, 0xFF]))).map (fun t => (t.status, t.errcode))
      = some (.error, some .unexpectedEndOfStream) := by decide +kernel
/-- V60. -/
theorem test_step_empty :
    (nextOf (step (startedOn []))).map (fun t => (t.status, t.errcode))
      = some (.error, some .unexpectedEndOfStream) := by decide +kernel
/-- V37, first row: after `UPDATE` of symbol 65 the root weighs 11. -/
theorem test_update_root :
    (update Cfg.default 694 (startedOn []).model).map (fun m => m.weightOf ROOT) = some 11 := by decide +kernel
/-- V37: the codes of symbols 65 and 256 after that update. -/
theorem test_update_codes :
    (update Cfg.default 694 (startedOn []).model).map (fun m => (symbolCode Cfg.default m 65, symbolCode Cfg.default m 256))
      = some ([false, false, false, true, false], [false, true, false, true, true, true, false, true, false, true]) := by
  decide +kernel

/-- A state at a copy's extra bits: `count` bytes produced, the given cells in the ring, the given input. -/
def atCopy (count : Nat) (ring : Memory) (bytes : List Byte) : State :=
  { State.reset with
    status := .busy
    inWin := memoryFrom 0 bytes
    runLen := bytes.length
    hist := { ring := ring, count := count, out := [], rd := 0, i := 0 } }

/-- What a copy row did: the bytes it appended, its distance, and its extra bits. -/
def copied (i : Instr) (s : State) : Option (List Byte × Nat × Nat) :=
  (nextOf (exec i s)).map fun t => (t.hist.out, t.dec.distance, t.dec.extra)

/-- R145, first example; P3: `COPY0 3, 1000` has extra 1 and distance 4. -/
theorem test_copy0 :
    copied .copy0_3 (atCopy 3 [(0, 0x61), (1, 0x62), (2, 0x63)] [0x00]) = some ([0x61, 0x62, 0x63], 3, 0)
      ∧ copied .copy0_3 (atCopy 4 [(0, 0x41), (1, 0x42), (2, 0x43), (3, 0x44)] [0x80]) = some ([0x41, 0x42, 0x43], 4, 1) := by
  decide
/-- R146; P4: distance 19 equals `count`, so the first bytes are copied. -/
theorem test_copy1 :
    copied .copy1_3 (atCopy 19 [(0, 0x30), (1, 0x31), (2, 0x32)] [0x00]) = some ([0x30, 0x31, 0x32], 19, 0) := by decide
/-- R147: `xbits = 10000000` gives extra 1 and distance 84. -/
theorem test_copy2 :
    copied .copy2_3 (atCopy 84 [(0, 1), (1, 2), (2, 3)] [0x80]) = some ([1, 2, 3], 84, 1) := by decide
/-- R148: `xbits = 1111111111` at length 64 gives distance 1423. -/
theorem test_copy3 :
    (nextOf (exec .copy3_64 (atCopy 1423 (memoryFrom 0 (List.replicate 64 7)) [0xFF, 0xC0]))).map
      (fun t => (t.dec.distance, t.dec.length, t.hist.count)) = some (1423, 64, 1487) := by decide +kernel
/-- R149: `xbits = 110000000000` gives extra 3 and distance 1366. -/
theorem test_copy4 :
    copied .copy4_3 (atCopy 1366 [(0, 1), (1, 2), (2, 3)] [0xC0, 0x00]) = some ([1, 2, 3], 1366, 3) := by decide
/-- R150: fourteen 1 bits at length 64 give distance 21903, the largest of the format. -/
theorem test_copy5 :
    (nextOf (exec .copy5_64 (atCopy 21903 (memoryFrom 0 (List.replicate 64 7)) [0xFF, 0xFC]))).map
      (fun t => (t.dec.distance, t.dec.length, t.hist.count)) = some (21903, 64, 21967) := by decide +kernel

/-- A table word placed by `withFetchWord` is run by the next step. -/
theorem test_fetchWord_runs :
    (nextOf (step (State.reset.withFetchWord 16 0x041))).map (fun t => t.hist.out) = some [0x41]
      ∧ (nextOf (step (State.reset.withFetchWord 16 0x100))).map (fun t => t.status) = some .done
      ∧ (nextOf (step (State.reset.withFetchWord 16 0x101))).map (fun t => t.errcode) = some (some .invalidDistance) := by
  decide +kernel

/-! ### A small machine, on which the hypotheses of the statements can be evaluated -/

/-- A valid configuration with eight symbols: symbol 0 is the one literal, 1 is `TERM`, and 2 to 7 are the copies of length 3 of
the six ranges, each with one extra bit. The ring has 4 cells, so the largest distance equals its size. -/
def smallCfg : Cfg where
  maxChar := 7
  maxFrequency := 6
  terminateCode := 1
  firstCode := 2
  minCopy := 3
  maxCopy := 3
  copyMin := ⟨0, 0, 0, 0, 0, 0⟩
  copyMax := ⟨1, 1, 1, 1, 1, 1⟩
  copyBits := ⟨1, 1, 1, 1, 1, 1⟩

/-- The small configuration with copies of length 2, which have no row in the opcode table. -/
def shortCfg : Cfg := { smallCfg with minCopy := 2, maxCopy := 2, copyMax := ⟨2, 2, 2, 2, 2, 2⟩ }

/-- The initial tree of the small machine: 15 nodes, every leaf at depth 3. -/
def smallTree : HuffmanModel := huffInit smallCfg State.reset.model

theorem test_smallCfg : smallCfg.valid = true ∧ smallCfg.twiceMax = 15 ∧ smallCfg.historySize = 4 := by decide

/-- A full tree over the small configuration, from checks that can be evaluated. -/
theorem smallCfg_full {m : HuffmanModel}
    (h1 : ∀ n < 16, 1 ≤ n → (m.weight.get n).isSome)
    (h2 : m.upOf 1 = 0)
    (h3 : ∀ n < 8, 1 ≤ n → ∀ bit : Bool, 1 < m.childOf bit n ∧ m.childOf bit n < 16 ∧ m.upOf (m.childOf bit n) = n)
    (h4 : ∀ n < 8, 1 ≤ n → m.leftOf n ≠ m.rightOf n)
    (h5 : ∀ c < 16, 1 < c →
      1 ≤ m.upOf c ∧ m.upOf c < 8 ∧ (m.leftOf (m.upOf c) = c ∨ m.rightOf (m.upOf c) = c))
    (h6 : ∀ c < 16, 1 ≤ c → ∃ k < 8, m.upOf^[k] c = 1) : FullTree smallCfg m where
  weights n hn h := h1 n (Nat.lt_succ_of_le hn) h
  root := h2
  children n hn h bit :=
    have := h3 n (Nat.lt_succ_of_le hn) h bit
    ⟨this.1, Nat.le_of_lt_succ this.2.1, this.2.2⟩
  distinct n hn h := h4 n (Nat.lt_succ_of_le hn) h
  parents c hc h :=
    have := h5 c (Nat.lt_succ_of_le hc) h
    ⟨this.1, Nat.le_of_lt_succ this.2.1, this.2.2⟩
  reaches c hc h :=
    have ⟨k, _, hk⟩ := h6 c (Nat.lt_succ_of_le hc) h
    ⟨k, hk⟩

theorem smallTree_full : FullTree smallCfg smallTree :=
  smallCfg_full (by decide) (by decide) (by decide) (by decide) (by decide) (by decide)

theorem smallTree_positive : PositiveWeights smallCfg smallTree := by
  intro n h1 h2
  have h : ∀ n < 16, 1 ≤ n → 1 ≤ smallTree.weightOf n := by decide
  exact h n (Nat.lt_succ_of_le h1) h2

theorem smallTree_below : LeavesBelowCeiling smallCfg smallTree := by
  intro n h1 h2
  have h : ∀ n < 16, 8 ≤ n → smallTree.weightOf n < 6 := by decide
  exact h n (Nat.lt_succ_of_le h1) h2

/-- A run of the small machine in progress, at the first bit of the given input, with the given output behind it. -/
def smallRun (bytes out : List Byte) : State :=
  { State.reset with
    status := .busy
    cfg := smallCfg
    model := smallTree
    hist := histOf out
    inWin := memoryFrom 0 bytes
    runLen := bytes.length }

/-- The same machine with copies of length 2. -/
def shortRun (bytes out : List Byte) : State := { smallRun bytes out with cfg := shortCfg }

theorem cursor0_wf (inp : Memory) (len : Nat) : cursor0.Wf inp len :=
  ⟨by decide, Nat.zero_le _, fun _ => rfl, fun h => absurd rfl h⟩

/-- A ring that has not wrapped is well formed. -/
theorem histOf_wf {size : Nat} {out : List Byte} (hs : out.length ≤ size)
    (h : ∀ k < out.length, Memory.read (memoryFrom 0 out) k = out[k]?) : (histOf out).Wf size where
  count_eq := rfl
  window k hk _ := by
    have e : k % size = k := Nat.mod_eq_of_lt (Nat.lt_of_lt_of_le hk hs)
    show Memory.read (memoryFrom 0 out) (k % size) = out[k]?
    rw [e]; exact h k hk

/-- A ring of four cells that has wrapped: the fifth byte overwrote the first. -/
def wrappedHist : HistoryRing :=
  { ring := [(0, 5), (1, 2), (2, 3), (3, 4)], count := 5, out := [1, 2, 3, 4, 5], rd := 0, i := 0 }

theorem wrappedHist_wf : wrappedHist.Wf 4 where
  count_eq := rfl
  window k hk hk2 := by
    have h : ∀ k < 5, 5 ≤ k + 4 → Memory.read wrappedHist.ring (k % 4) = wrappedHist.out[k]? := by decide
    exact h k hk hk2

theorem smallTree_default : DefaultTree smallCfg smallTree := ⟨smallTree_full, smallTree_positive, smallTree_below⟩

theorem smallRun_inv (bytes : List Byte) {out : List Byte} (hs : out.length ≤ 4)
    (h : ∀ k < out.length, Memory.read (memoryFrom 0 out) k = out[k]?) : RunInv DefaultTree (smallRun bytes out) where
  cfg_valid := by show smallCfg.valid = true; decide
  cursor := cursor0_wf _ _
  tree := smallTree_default
  ring := histOf_wf hs h

/-- The comb under the small configuration, as an arena of a lawful instance (Laws/Instances.lean). -/
def smallComb : HuffmanModel := State.reset.model.withArena (combArena smallCfg)

theorem smallComb_tree : CombTree smallCfg smallComb := ⟨rfl, rfl, rfl⟩

/-- A run of the small machine with the comb in progress. -/
def combRun (bytes out : List Byte) : State := { smallRun bytes out with model := smallComb }

/-! ### The hypotheses of every statement can be met, each clause at a boundary -/

theorem test_witness_DecodeOfEncodeIsTheRow :
    Cfg.default.valid = true ∧ Instr.wf Cfg.default (.lit 255) = true ∧ Instr.wf Cfg.default .term = true
      ∧ Instr.wf Cfg.default .copy0_3 = true ∧ Instr.wf Cfg.default .copy5_64 = true := by decide
theorem test_witness_EverySymbolIsAnInstruction :
    Cfg.default.valid = true ∧ 628 ≤ Cfg.default.maxChar
      ∧ (dispatchSymbol Cfg.default 255).toOption = some (.lit 255) ∧ (dispatchSymbol Cfg.default 256).toOption = some .term
      ∧ (dispatchSymbol Cfg.default 257).toOption = some (.copy .r0 3)
      ∧ (dispatchSymbol Cfg.default 628).toOption = some (.copy .r5 64) := by decide
theorem test_witness_DefaultOpcodeMap :
    (dispatchSymbol Cfg.default 318).toOption = some (.copy .r0 64)
      ∧ (dispatchSymbol Cfg.default 319).toOption = some (.copy .r1 3)
      ∧ (dispatchSymbol Cfg.default 380).toOption = some (.copy .r1 64)
      ∧ (dispatchSymbol Cfg.default 381).toOption = some (.copy .r2 3)
      ∧ (dispatchSymbol Cfg.default 442).toOption = some (.copy .r2 64)
      ∧ (dispatchSymbol Cfg.default 443).toOption = some (.copy .r3 3)
      ∧ (dispatchSymbol Cfg.default 504).toOption = some (.copy .r3 64)
      ∧ (dispatchSymbol Cfg.default 505).toOption = some (.copy .r4 3)
      ∧ (dispatchSymbol Cfg.default 566).toOption = some (.copy .r4 64)
      ∧ (dispatchSymbol Cfg.default 567).toOption = some (.copy .r5 3) := by decide
theorem test_witness_SymbolsAboveAlphabetAreRejected : Cfg.default.valid = true ∧ Cfg.default.maxChar < 629 := by decide
/-- V25 and V32: symbol 0 has the nine-bit code of leaf 629, symbol 395 the ten-bit code of leaf 1024. -/
theorem test_witness_InitialCodesAreNumerals :
    Cfg.default.valid = true ∧ 395 ≤ Cfg.default.maxChar
      ∧ symbolCode Cfg.default (startedOn []).model 0 = [false, false, true, true, true, false, true, false, true]
      ∧ symbolCode Cfg.default (startedOn []).model 395 = List.replicate 10 false := by decide +kernel
theorem test_witness_FetchReadsTheAssembledSymbol :
    combParams.Lawful CombTree ∧ (combRun [0x80] []).cfg.valid = true ∧ CombTree (combRun [0x80] []).cfg (combRun [0x80] []).model
      ∧ (combRun [0x80] []).cursor.Wf (combRun [0x80] []).inWin (combRun [0x80] []).runLen
      ∧ 1 ≤ (combRun [0x80] []).cfg.maxChar ∧ symbolCode smallCfg smallComb 1 = [true, false]
      ∧ (symbolCode smallCfg smallComb 1).length ≤ (combRun [0x80] []).cursor.bitsLeft (combRun [0x80] []).runLen
      ∧ streamBits (combRun [0x80] []).inWin (combRun [0x80] []).cursor.bitPos (symbolCode smallCfg smallComb 1).length
          = symbolCode smallCfg smallComb 1 :=
  ⟨combParams_lawful, by decide, smallComb_tree, cursor0_wf _ _, by decide, by decide, by decide, by decide⟩
theorem test_witness_StepRunsTheAssembledInstruction :
    combParams.Lawful CombTree ∧ (combRun [0xFE] []).status = .busy ∧ (combRun [0xFE] []).hostQueue = []
      ∧ (combRun [0xFE] []).cfg.valid = true ∧ Instr.wf (combRun [0xFE] []).cfg .copy5_3 = true
      ∧ CombTree (combRun [0xFE] []).cfg (combRun [0xFE] []).model
      ∧ (combRun [0xFE] []).cursor.Wf (combRun [0xFE] []).inWin (combRun [0xFE] []).runLen
      ∧ assemble smallCfg smallComb .copy5_3 [] = List.replicate 7 true
      ∧ (assemble smallCfg smallComb .copy5_3 []).length ≤ (combRun [0xFE] []).cursor.bitsLeft (combRun [0xFE] []).runLen
      ∧ streamBits (combRun [0xFE] []).inWin (combRun [0xFE] []).cursor.bitPos
          (assemble smallCfg smallComb .copy5_3 []).length = assemble smallCfg smallComb .copy5_3 [] :=
  ⟨combParams_lawful, by decide, by decide, by decide, by decide, smallComb_tree, cursor0_wf _ _, by decide,
    by decide, by decide⟩
/-- The cursor before the last bit of a one-byte input 0xA5. -/
def cursorLast : BitCursor := { pos := 1, bitbuf := 0x80, bitcnt := 1, code := 0, mask := 0 }
/-- The cursor behind the last bit of a one-byte input. -/
def cursorEnd : BitCursor := { pos := 1, bitbuf := 0, bitcnt := 0, code := 0, mask := 0 }

theorem cursorLast_wf : cursorLast.Wf [(0, 0xA5)] 1 :=
  ⟨by decide, by decide, fun h => absurd h (by decide), fun _ => by decide⟩
theorem cursorEnd_wf : cursorEnd.Wf [(0, 0xA5)] 1 := ⟨by decide, by decide, fun _ => rfl, fun h => absurd rfl h⟩

theorem test_witness_NextBitDeliversStreamBit :
    (cursorLast.Wf [(0, 0xA5)] 1 ∧ cursorLast.bitPos = 7 ∧ cursorLast.bitPos < 8 * 1)
      ∧ cursorEnd.Wf [(0, 0xA5)] 1 ∧ 8 * 1 ≤ cursorEnd.bitPos ∧ (cursor0.Wf [] 1 ∧ cursor0.bitPos < 8 * 1) :=
  ⟨⟨cursorLast_wf, by decide, by decide⟩, cursorEnd_wf, by decide, cursor0_wf _ _, by decide⟩
theorem test_witness_NextCodeClosedForm :
    cursor0.Wf [(0, 0xFF), (1, 0xFC)] 2 ∧ 14 ≤ codeW ∧ 14 ≤ cursor0.bitsLeft 2
      ∧ inputBit [(0, 0xFF), (1, 0xFC)] cursor0.bitPos = true ∧ 0 ≤ cursor0.bitsLeft 2
      ∧ inputBit [(0, 0x7F), (1, 0xFC)] cursor0.bitPos = false :=
  ⟨cursor0_wf _ _, by decide, by decide, by decide, by decide, by decide⟩
theorem test_witness_NextCodeRegisters :
    okOf (nextCode [(0, 0xFF), (1, 0xFC)] 2 14 cursor0)
        = some (16383, { pos := 2, bitbuf := 0, bitcnt := 2, code := 16383, mask := 32766 })
      ∧ okOf (nextCode [] 0 0 cursor0) = some (0, { cursor0 with mask := 1 }) := by decide
theorem test_witness_NextCodeEndOfStream :
    cursorLast.Wf [(0, 0xA5)] 1 ∧ 2 ≤ codeW ∧ cursorLast.bitsLeft 1 < 2 := ⟨cursorLast_wf, by decide, by decide⟩
theorem test_witness_InitialTreeCells :
    smallTree.leftOf 1 = 2 ∧ smallTree.rightOf 7 = 15 ∧ smallTree.upOf 2 = 1 ∧ smallTree.upOf 15 = 7
      ∧ smallTree.weight.get 15 = some 1 := by decide
theorem test_witness_InitialTreeIsFull : smallCfg.valid = true ∧ Cfg.default.valid = true := by decide
theorem test_witness_PropagateSumsTheAncestors :
    smallCfg.valid = true ∧ FullTree smallCfg smallTree ∧ 1 ≤ 15 ∧ 15 ≤ smallCfg.twiceMax
      ∧ ROOT < smallTree.upOf^[0] 15 ∧ ROOT < smallTree.upOf^[2] 15 ∧ ∀ k, smallTree.upOf^[k + 1] 15 ≠ 14 := by
  refine ⟨by decide, smallTree_full, by decide, by decide, by decide, by decide, ?_⟩
  intro k
  have h : ∀ k < 4, smallTree.upOf^[k + 1] 15 ≠ 14 := by decide
  by_cases hk : k < 4
  · exact h k hk
  · obtain ⟨j, rfl⟩ : ∃ j, k = j + 4 := ⟨k - 4, by omega⟩
    have h4 : smallTree.upOf^[5] 15 = 0 := by decide
    rw [show j + 4 + 1 = j + 5 by omega, Function.iterate_add_apply, h4, iterate_upOf_zero]
    decide

/-- The small tree with leaf 8 in hand and its uncle 5 found, leaf 8 of the given weight. -/
def atExchange (w : Nat) : HuffmanModel :=
  { smallTree.setWeight 8 w with a := 8, ua := 4, uua := 2, b := 5 }

theorem atExchange_full : FullTree smallCfg (atExchange 1) ∧ FullTree smallCfg (atExchange 2) :=
  ⟨smallCfg_full (by decide) (by decide) (by decide) (by decide) (by decide) (by decide),
    smallCfg_full (by decide) (by decide) (by decide) (by decide) (by decide) (by decide)⟩

theorem test_witness_ExchangeSwapsNodeAndUncle :
    smallCfg.valid = true ∧ (FullTree smallCfg (atExchange 1) ∧ FullTree smallCfg (atExchange 2))
      ∧ (ROOT < (atExchange 1).a ∧ (atExchange 1).a ≤ smallCfg.twiceMax
        ∧ (atExchange 1).ua = (atExchange 1).upOf (atExchange 1).a ∧ (atExchange 1).ua ≠ ROOT
        ∧ (atExchange 1).uua = (atExchange 1).upOf (atExchange 1).ua ∧ (atExchange 1).b = (atExchange 1).uncle
        ∧ (atExchange 1).weightOf (atExchange 1).a ≤ (atExchange 1).weightOf (atExchange 1).b)
      ∧ (ROOT < (atExchange 2).a ∧ (atExchange 2).a ≤ smallCfg.twiceMax
        ∧ (atExchange 2).ua = (atExchange 2).upOf (atExchange 2).a ∧ (atExchange 2).ua ≠ ROOT
        ∧ (atExchange 2).uua = (atExchange 2).upOf (atExchange 2).ua ∧ (atExchange 2).b = (atExchange 2).uncle
        ∧ (atExchange 2).weightOf (atExchange 2).b < (atExchange 2).weightOf (atExchange 2).a)
      ∧ smallTree.upOf 3 = ROOT :=
  ⟨by decide, atExchange_full, by decide, by decide, by decide⟩
/-- By hand from R112: leaf 8, of weight 2, goes up beside 4, and 5 goes down beside 9; then 4 weighs 1 + 1, 2 weighs 2 + 2,
the root 4 + 1. -/
theorem test_exchange_propagates :
    (exchangeIfHeavier smallCfg (atExchange 2)).map
        (fun m => (m.leftOf 4, m.rightOf 2, [m.weightOf 4, m.weightOf 2, m.weightOf 1, m.weightOf 8, m.weightOf 5]))
      = some (5, 8, [2, 4, 5, 2, 1]) := by decide
theorem test_witness_RescaleHalvesEveryWeight :
    (smallCfg.maxFrequency ≤ (smallTree.setWeight 1 6).weightOf ROOT ∧ (smallTree.setWeight 1 6).weight.get 15 = some 1)
      ∧ (smallTree.setWeight 1 5).weightOf ROOT < smallCfg.maxFrequency := by decide

/-- The tree after one update of leaf 8: the root weighs 5, one below the ceiling, so nothing was halved. -/
def updatedTree : HuffmanModel := (update smallCfg 8 smallTree).getD smallTree

theorem updatedTree_full : FullTree smallCfg updatedTree :=
  smallCfg_full (by decide) (by decide) (by decide) (by decide) (by decide) (by decide)

theorem test_witness_UpdateKeepsTheTreeFull :
    smallCfg.valid = true ∧ FullTree smallCfg smallTree ∧ FullTree smallCfg updatedTree ∧ smallCfg.IsLeaf 8
      ∧ smallCfg.IsLeaf 15 :=
  ⟨by decide, smallTree_full, updatedTree_full, ⟨by decide, by decide⟩, ⟨by decide, by decide⟩⟩
/-- Both outcomes: the first update halves nothing, the second halves every weight. -/
theorem test_witness_UpdateCountsItsLeaf :
    smallCfg.valid = true ∧ FullTree smallCfg smallTree ∧ FullTree smallCfg updatedTree ∧ smallCfg.IsLeaf 8
      ∧ update smallCfg 8 smallTree = some updatedTree ∧ updatedTree.weightOf 8 = 2
      ∧ (update smallCfg 8 updatedTree).isSome ∧ (update smallCfg 8 updatedTree).map (fun m => m.weightOf 8) = some 1 :=
  ⟨by decide, smallTree_full, updatedTree_full, ⟨by decide, by decide⟩, by decide, by decide, by decide, by decide⟩
theorem test_witness_UpdateKeepsWeightsPositive :
    smallCfg.valid = true ∧ FullTree smallCfg smallTree ∧ PositiveWeights smallCfg smallTree ∧ smallCfg.IsLeaf 8
      ∧ update smallCfg 8 smallTree = some updatedTree :=
  ⟨by decide, smallTree_full, smallTree_positive, ⟨by decide, by decide⟩, by decide⟩
theorem test_witness_UpdateKeepsLeavesBelowCeiling :
    smallCfg.valid = true ∧ FullTree smallCfg smallTree ∧ LeavesBelowCeiling smallCfg smallTree ∧ smallCfg.IsLeaf 8
      ∧ update smallCfg 8 smallTree = some updatedTree :=
  ⟨by decide, smallTree_full, smallTree_below, ⟨by decide, by decide⟩, by decide⟩
theorem test_witness_FullTreeHasNoInvalidCode :
    (smallRun [0x20] []).cfg.valid = true ∧ FullTree (smallRun [0x20] []).cfg (smallRun [0x20] []).model :=
  ⟨by decide, smallTree_full⟩

/-- A run on an arena without any link. -/
def linkless (bytes : List Byte) : State := { smallRun bytes [] with model := State.reset.model }

theorem test_witness_MissingChildRaises :
    ({ smallTree.setRight 7 NIL with a := 7 } : HuffmanModel).a < smallCfg.successMax
      ∧ okOf (nextBit [(0, 0x80)] 1 cursor0) = some (true, { cursor0 with pos := 1, bitcnt := 7 })
      ∧ ({ smallTree.setRight 7 NIL with a := 7 } : HuffmanModel).childOf true 7 = NIL ∧ cursor0.bitsLeft 0 = 0
      ∧ (linkless [0x80]).cfg.valid = true
      ∧ okOf (nextBit (linkless [0x80]).inWin (linkless [0x80]).runLen (linkless [0x80]).cursor)
          = some (true, { cursor0 with pos := 1, bitcnt := 7 })
      ∧ (linkless [0x80]).model.childOf true ROOT = NIL ∧ (linkless []).cfg.valid = true
      ∧ (linkless []).cursor.bitsLeft (linkless []).runLen = 0 := by decide
/-- Both outcomes: a symbol on one byte of input, the end of the stream on none. -/
theorem test_witness_FetchOnAFullTree :
    ((smallRun [0x20] []).cfg.valid = true ∧ FullTree (smallRun [0x20] []).cfg (smallRun [0x20] []).model
      ∧ (smallRun [0x20] []).cursor.Wf (smallRun [0x20] []).inWin (smallRun [0x20] []).runLen
      ∧ (okOf (decodeSym .default (smallRun [0x20] []))).map Prod.fst = some 1)
      ∧ (raisedBy (decodeSym .default (smallRun [] []))).map Prod.fst = some .unexpectedEndOfStream :=
  ⟨⟨by decide, smallTree_full, cursor0_wf _ _, by decide⟩, by decide⟩
theorem test_witness_AppendLitWritesBothViews : (0 : Nat) ≠ (histOf [1]).count % 4 := by decide
/-- Distance 1 to 4 on four cells: legal at `count`, illegal one above it, legal at the size on a wrapped ring. -/
theorem test_witness_InvalidDistanceExactly :
    ((1 : Nat) ≤ 4 ∧ 4 ≤ 4 ∧ (histOf [1, 2, 3]).Wf 4 ∧ (histOf [1, 2, 3]).count < 4)
      ∧ (3 ≤ (histOf [1, 2, 3]).count) ∧ wrappedHist.Wf 4 ∧ 4 ≤ wrappedHist.count :=
  ⟨⟨by decide, by decide, histOf_wf (by decide) (by decide), by decide⟩, by decide, wrappedHist_wf, by decide⟩
theorem test_witness_CopyRepeatsTheHistory :
    ((1 : Nat) ≤ 4 ∧ 4 ≤ 4 ∧ 4 ≤ wrappedHist.count ∧ wrappedHist.Wf 4)
      ∧ (1 ≤ (histOf [1]).count ∧ (histOf [1]).Wf 4) ∧ ∀ k < 1, (0 : Nat) ≠ ((histOf [1]).count + k) % 4 :=
  ⟨⟨by decide, by decide, by decide, wrappedHist_wf⟩, ⟨by decide, histOf_wf (by decide) (by decide)⟩, by decide⟩
theorem test_witness_DistanceOneRepeatsLastByte :
    (1 : Nat) ≤ 4 ∧ wrappedHist.Wf 4 ∧ wrappedHist.out.getLast? = some 5 := ⟨by decide, wrappedHist_wf, by decide⟩
theorem test_witness_CopyOutsideItsDomainIsRefused :
    applyCopy 4 1 0 wrappedHist = .refused (.copyOutsideDomain 0) ∧ applyCopy 4 1 5 wrappedHist = .refused (.copyOutsideDomain 5) := by
  decide
theorem test_witness_LitAppendsItsByte : (1 : Nat) ≠ (smallRun [] []).hist.count % (smallRun [] []).cfg.historySize := by
  decide

/-- A copy row at its one extra bit: distance 3 = `count` on `0`, distance 4 = the ring's size on `1`. -/
theorem test_witness_CopyRowsComplete :
    (Instr.toOp .copy0_3 = .copy .r0 3 ∧ Instr.toOp .copy5_3 = .copy .r5 3)
      ∧ ((smallRun [0x00] [1, 2, 3]).cfg.valid = true ∧ Instr.wf (smallRun [0x00] [1, 2, 3]).cfg .copy0_3 = true
        ∧ (smallRun [0x00] [1, 2, 3]).cursor.Wf (smallRun [0x00] [1, 2, 3]).inWin (smallRun [0x00] [1, 2, 3]).runLen
        ∧ (smallRun [0x00] [1, 2, 3]).hist.Wf (smallRun [0x00] [1, 2, 3]).cfg.historySize
        ∧ (smallRun [0x00] [1, 2, 3]).cfg.copyBits.get .r0
            ≤ (smallRun [0x00] [1, 2, 3]).cursor.bitsLeft (smallRun [0x00] [1, 2, 3]).runLen
        ∧ (smallRun [0x00] [1, 2, 3]).distanceAt .r0 3 = 3
        ∧ (smallRun [0x00] [1, 2, 3]).distanceAt .r0 3 ≤ (smallRun [0x00] [1, 2, 3]).hist.count)
      ∧ ((smallRun [0x80] [1, 2, 3, 4]).hist.Wf (smallRun [0x80] [1, 2, 3, 4]).cfg.historySize
        ∧ (smallRun [0x80] [1, 2, 3, 4]).distanceAt .r5 3 = 4
        ∧ (smallRun [0x80] [1, 2, 3, 4]).distanceAt .r5 3 ≤ (smallRun [0x80] [1, 2, 3, 4]).hist.count
        ∧ ∀ k < 3, (3 : Nat) ≠ ((smallRun [0x80] [1, 2, 3, 4]).hist.count + k) % 4) :=
  ⟨by decide,
    ⟨by decide, by decide, cursor0_wf _ _, histOf_wf (by decide) (by decide), by decide, by decide, by decide⟩,
    histOf_wf (by decide) (by decide), by decide, by decide, by decide⟩
/-- The largest row under the default configuration: `COPY5.64` at `count` = 21903, its largest distance. -/
theorem test_witness_CopyRowsComplete_default :
    Instr.wf Cfg.default .copy5_64 = true ∧ (atCopy 21903 [] [0xFF, 0xFC]).cfg = Cfg.default
      ∧ (atCopy 21903 [] [0xFF, 0xFC]).cfg.copyBits.get .r5
          ≤ (atCopy 21903 [] [0xFF, 0xFC]).cursor.bitsLeft (atCopy 21903 [] [0xFF, 0xFC]).runLen
      ∧ (atCopy 21903 [] [0xFF, 0xFC]).distanceAt .r5 64 ≤ (atCopy 21903 [] [0xFF, 0xFC]).hist.count := by decide
theorem test_witness_CopyTooFarTakesInvalidDistance :
    Instr.toOp .copy5_3 = .copy .r5 3 ∧ (smallRun [0x80] [1, 2, 3]).cfg.valid = true
      ∧ Instr.wf (smallRun [0x80] [1, 2, 3]).cfg .copy5_3 = true
      ∧ (smallRun [0x80] [1, 2, 3]).cursor.Wf (smallRun [0x80] [1, 2, 3]).inWin (smallRun [0x80] [1, 2, 3]).runLen
      ∧ (smallRun [0x80] [1, 2, 3]).cfg.copyBits.get .r5
          ≤ (smallRun [0x80] [1, 2, 3]).cursor.bitsLeft (smallRun [0x80] [1, 2, 3]).runLen
      ∧ (smallRun [0x80] [1, 2, 3]).hist.count < (smallRun [0x80] [1, 2, 3]).distanceAt .r5 3 :=
  ⟨by decide, by decide, by decide, cursor0_wf _ _, by decide, by decide⟩
theorem test_witness_CopyCutShortTakesEndOfStream :
    Instr.toOp .copy0_3 = .copy .r0 3 ∧ (smallRun [] [1, 2, 3]).cfg.valid = true
      ∧ (smallRun [] [1, 2, 3]).cursor.Wf (smallRun [] [1, 2, 3]).inWin (smallRun [] [1, 2, 3]).runLen
      ∧ (smallRun [] [1, 2, 3]).cursor.bitsLeft (smallRun [] [1, 2, 3]).runLen
          < (smallRun [] [1, 2, 3]).cfg.copyBits.get .r0 :=
  ⟨by decide, by decide, cursor0_wf _ _, by decide⟩
theorem test_witness_FailedCopyMovesNothing :
    (raisedBy (copyInstr .r0 3 (smallRun [0x80] [1, 2, 3]))).map Prod.fst = some .invalidDistance
      ∧ (raisedBy (copyInstr .r0 3 (smallRun [] [1, 2, 3]))).map Prod.fst = some .unexpectedEndOfStream := by decide
theorem test_witness_DefaultDistanceRanges :
    ([false, false, false, false].length = Cfg.default.copyBits.get .r0
      ∧ distanceOf Cfg.default .r0 3 (extraOf [false, false, false, false]) = 3)
      ∧ ((List.replicate 14 true).length = Cfg.default.copyBits.get .r5
        ∧ distanceOf Cfg.default .r5 64 (extraOf (List.replicate 14 true)) = 21903) := by decide

/-- A run that is over, with the given output. -/
def smallDone (out : List Byte) : State := { smallRun [] out with status := .done, outLen := out.length }

theorem test_witness_StatusAndErrcodeNumbers :
    State.reset.status ≠ .busy ∧ ({ State.reset with status := .error, errcode := some .invalidDistance } : State).status ≠ .busy := by
  decide
theorem test_witness_DoneShowsTheOutput :
    (smallDone [1, 2]).status = .done ∧ (smallDone [1, 2]).hist.out[0]? = some 1 ∧ (smallDone [1, 2]).hist.out[1]? = some 2 := by
  decide
theorem test_witness_HostRegistersReadBack :
    (HostReg.inLen ≠ .ctrl ∧ HostReg.inLen ≠ .status ∧ HostReg.inLen ≠ .errcode ∧ HostReg.inLen ≠ .outLen)
      ∧ HostReg.cfgCopymin .r0 ≠ .cfgCopymin .r5 ∧ HostReg.errcode ≠ .inLen := by decide
theorem test_witness_ReadOnlyRegistersIgnoreWrites : (2 : Nat).testBit 0 = false := by decide
theorem test_witness_HostWritesOneInputByte : State.reset.status ≠ .busy ∧ (1 : Nat) ≠ 0 := by decide
theorem test_witness_StartBeginsAFreshRun :
    (1 : Nat).testBit 0 = true ∧ State.reset.status ≠ .busy ∧ State.reset.cfgRegs.valid = true
      ∧ (smallDone [1]).status ≠ .busy ∧ (smallDone [1]).cfgRegs.valid = true := by decide

/-- Outside a run, with an invalid configuration in the registers. -/
def invalidCfg : State := { State.reset with cfgRegs := { Cfg.default with maxChar := 629 } }

theorem test_witness_StartRefusesInvalidConfiguration :
    (3 : Nat).testBit 0 = true ∧ invalidCfg.status ≠ .busy ∧ invalidCfg.cfgRegs.valid = false := by decide
/-- Both clauses: a write of `IN` is refused, a `START` and a write of `IN_LEN` answer next states. -/
theorem test_witness_HostCannotReachARun :
    (smallRun [] []).status = .busy ∧ hostAccess .default (.writeIn 0 1) (smallRun [] []) = .refused .inputWrittenDuringRun
      ∧ hostAccess .default (.write .ctrl 1) (smallRun [] []) = .next (smallRun [] [])
      ∧ (nextOf (hostAccess .default (.write .inLen 9) (smallRun [] []))).map (fun t => (t.inLen, t.runLen)) = some (9, 0) :=
  ⟨by decide, rfl, rfl, by decide⟩
theorem test_witness_StepRunsTheDecodedInstruction :
    (smallRun [0x00] []).status = .busy ∧ (smallRun [0x00] []).hostQueue = []
      ∧ (∃ t, decodeSym .default (smallRun [0x00] []) = .ok 0 t ∧ decodeSymbol t.cfg 0 = .ok (.row (.lit 0)))
      ∧ (∃ t, decodeSym .default (smallRun [0x20] []) = .ok 1 t ∧ decodeSymbol t.cfg 1 = .ok (.row .term))
      ∧ (∃ t, decodeSym .default (shortRun [0x40] []) = .ok 2 t ∧ decodeSymbol t.cfg 2 = .ok (.offTable .r0 2)) :=
  ⟨by decide, by decide, ⟨_, rfl, rfl⟩, ⟨_, rfl, rfl⟩, ⟨_, rfl, rfl⟩⟩
theorem test_witness_StepTakesTheFetchError :
    (smallRun [] []).status = .busy ∧ (smallRun [] []).hostQueue = []
      ∧ (∃ t, decodeSym .default (smallRun [] []) = .raise .unexpectedEndOfStream t)
      ∧ ∃ t, decodeSym .default (linkless [0x80]) = .raise .invalidHuffmanCode t :=
  ⟨by decide, by decide, ⟨_, rfl⟩, ⟨_, rfl⟩⟩
theorem test_witness_StepTakesTheHostTransaction :
    (State.reset.withQueue [.write .ctrl 1]).hostQueue = [.write .ctrl 1] ∧ HostOp.write .ctrl 1 ≠ .wait
      ∧ (State.reset.withQueue [.wait]).hostQueue = [.wait] := by decide
theorem test_witness_IdleBlockHoldsItsState :
    State.reset.status ≠ .busy ∧ State.reset.hostQueue = [] ∧ (smallDone [1]).status ≠ .busy := by decide
/-- A `START` out of `IDLE`, and a literal that leaves the run in progress. -/
theorem test_witness_StatusTransitions :
    (step (State.reset.withQueue [.write .ctrl 1]) = .next ((State.reset.withQueue []).started .default)
      ∧ State.reset.status ≠ .busy ∧ ((State.reset.withQueue []).started .default).status ≠ State.reset.status)
      ∧ ∃ t, step (smallRun [0x00] []) = .next t ∧ (smallRun [0x00] []).status = .busy :=
  ⟨⟨rfl, by decide, by decide⟩, ⟨_, rfl, by decide⟩⟩
theorem test_witness_EngineNeverWritesItsInput : ∃ t, engineStep .default (smallRun [0x00] []) = .next t := ⟨_, rfl⟩

theorem smallRun_machineInv : MachineInv (smallRun [0x00] [1]) where
  inWin_wf := by decide
  ring_wf := by decide
  run _ := smallRun_inv _ (by decide) (by decide)
  errcode := by decide
  outLen_done h := by cases h
  outLen_zero h := by rcases h with h | h <;> cases h

theorem test_witness_StepKeepsTheInvariant :
    MachineInv (smallRun [0x00] [1]) ∧ ∃ t, step (smallRun [0x00] [1]) = .next t :=
  ⟨smallRun_machineInv, ⟨_, rfl⟩⟩

/-- Outside a run, ready for `START` on the small configuration. -/
def smallReady (bytes : List Byte) (k : Nat) : State :=
  { State.reset with cfgRegs := smallCfg, inWin := memoryFrom 0 bytes, inLen := bytes.length, freeCount := k }

theorem test_witness_EveryRunFinishes :
    combParams.Lawful CombTree ∧ (smallReady [0x00] 0).cfgRegs.valid = true ∧ (smallReady [0x00] 0).hostQueue = [] :=
  ⟨combParams_lawful, by decide, by decide⟩
theorem test_witness_RunsAreIsolated :
    combParams.Lawful CombTree ∧ (smallReady [0x00] 0).cfgRegs.valid = true
      ∧ (smallReady [0x00] 0).cfgRegs = (smallReady [0x00] 9).cfgRegs
      ∧ (smallReady [0x00] 0).inLen = (smallReady [0x00] 9).inLen ∧ (smallReady [0x00] 0).inWin = (smallReady [0x00] 9).inWin
      ∧ (smallReady [0x00] 0).hostQueue = [] ∧ (smallReady [0x00] 9).hostQueue = []
      ∧ smallReady [0x00] 0 ≠ smallReady [0x00] 9 :=
  ⟨combParams_lawful, by decide, by decide, by decide, by decide, by decide, by decide, by decide⟩

/-- A run on the small tree with the last node's right child taken away. -/
def cutRun (bytes : List Byte) : State := { smallRun bytes [] with model := smallTree.setRight 7 NIL }

/-- Two 1 bits lead to node 7, whose right child is missing; and a stream of eight 1 bits that ends at internal node 9 of the
comb under the default configuration. -/
theorem test_witness_MissingChildRaisesAtAnyDepth :
    ((cutRun [0xE0]).cfg.valid = true ∧ (cutRun [0xE0]).model.descend (cutRun [0xE0]).cfg [true, true] ROOT = 7
      ∧ (7 : Nat) ≠ NIL ∧ 7 ≤ (cutRun [0xE0]).cfg.maxChar ∧ 2 < (cutRun [0xE0]).cursor.bitsLeft (cutRun [0xE0]).runLen
      ∧ streamBits (cutRun [0xE0]).inWin (cutRun [0xE0]).cursor.bitPos 2 = [true, true]
      ∧ (cutRun [0xE0]).model.childOf (inputBit (cutRun [0xE0]).inWin ((cutRun [0xE0]).cursor.bitPos + 2)) 7 = NIL)
      ∧ (cutRun [0xE0]).cursor.Wf (cutRun [0xE0]).inWin (cutRun [0xE0]).runLen
      ∧ (startedOn [0xFF]).cursor.Wf (startedOn [0xFF]).inWin (startedOn [0xFF]).runLen
      ∧ (startedOn [0xFF]).model.descend (startedOn [0xFF]).cfg (List.replicate 8 true) ROOT = 511
      ∧ 511 ≤ (startedOn [0xFF]).cfg.maxChar
      ∧ streamBits (startedOn [0xFF]).inWin (startedOn [0xFF]).cursor.bitPos 8 = List.replicate 8 true
      ∧ 8 = (startedOn [0xFF]).cursor.bitsLeft (startedOn [0xFF]).runLen :=
  ⟨by decide, cursor0_wf _ _, cursor0_wf _ _, by decide +kernel, by decide, by decide, by decide⟩
theorem test_witness_FetchUnderAnyInstance :
    combParams.Lawful CombTree ∧ (combRun [0x00] []).cfg.valid = true ∧ CombTree (combRun [0x00] []).cfg (combRun [0x00] []).model
      ∧ (combRun [0x00] []).cursor.Wf (combRun [0x00] []).inWin (combRun [0x00] []).runLen
      ∧ (okOf (decodeSym combParams (combRun [0x00] []))).map Prod.fst = some 0
      ∧ (raisedBy (decodeSym combParams (combRun [] []))).map Prod.fst = some .unexpectedEndOfStream :=
  ⟨combParams_lawful, by decide, smallComb_tree, cursor0_wf _ _, by decide, by decide⟩

theorem combRun_machineInv : MachineInvFor CombTree (combRun [0x00] [1]) where
  inWin_wf := by decide
  ring_wf := by decide
  run _ := ⟨by show smallCfg.valid = true; decide, cursor0_wf _ _, smallComb_tree, histOf_wf (by decide) (by decide)⟩
  errcode := by decide
  outLen_done h := by cases h
  outLen_zero h := by rcases h with h | h <;> cases h

theorem test_witness_StepKeepsTheInvariantOfAnyInstance :
    combParams.Lawful CombTree ∧ MachineInvFor CombTree (combRun [0x00] [1])
      ∧ ∃ t, stepWith combParams (combRun [0x00] [1]) = .next t ∧ t.status = .busy :=
  ⟨combParams_lawful, combRun_machineInv, ⟨_, rfl, by decide⟩⟩
/-- Length 2 has no row; distance 2 = `count` is legal, 3 is not, and without input the extra bit is missing. -/
theorem test_witness_OffTableCopyFollowsTheCommonRule :
    (shortRun [0x00] [1, 2]).cfg.valid = true ∧ (shortRun [0x00] [1, 2]).cfg.copyLengthOk 2 = true
      ∧ (shortRun [0x00] [1, 2]).cursor.Wf (shortRun [0x00] [1, 2]).inWin (shortRun [0x00] [1, 2]).runLen
      ∧ (shortRun [0x00] [1, 2]).hist.Wf (shortRun [0x00] [1, 2]).cfg.historySize
      ∧ (shortRun [0x00] [1, 2]).cfg.copyBits.get .r0
          ≤ (shortRun [0x00] [1, 2]).cursor.bitsLeft (shortRun [0x00] [1, 2]).runLen
      ∧ (shortRun [0x00] [1, 2]).distanceAt .r0 2 = (shortRun [0x00] [1, 2]).hist.count
      ∧ (shortRun [0x80] [1, 2]).hist.count < (shortRun [0x80] [1, 2]).distanceAt .r0 2
      ∧ (shortRun [] [1, 2]).cursor.bitsLeft (shortRun [] [1, 2]).runLen < (shortRun [] [1, 2]).cfg.copyBits.get .r0 :=
  ⟨by decide, by decide, cursor0_wf _ _, histOf_wf (by decide) (by decide), by decide, by decide, by decide, by decide⟩

/-! ### Other instances, and input that the host never wrote -/

/-- The comb is another machine: `10` is `TERM` there, where the default tree needs `001`. -/
theorem test_comb_term :
    (nextOf (stepWith combParams (combRun [0x80] []))).map (fun t => (t.status, t.cursor.bitcnt)) = some (.done, 6)
      ∧ (nextOf (stepWith .default (smallRun [0x20] []))).map (fun t => (t.status, t.cursor.bitcnt)) = some (.done, 5) := by
  decide
/-- A byte below `IN_LEN` that the host never wrote has a free value, and `NEXTBIT` delivers its bit 7. -/
theorem test_nextBit_unwritten :
    okOf (nextBit [] 1 cursor0)
      = some ((Config.unwrittenInput 0).getLsbD 7,
          { cursor0 with pos := 1, bitbuf := Config.unwrittenInput 0 <<< 1, bitcnt := 7 }) := rfl

end Sys2Proof.Tests
end

