-- ==== Sys2Proof/Proofs/BitCursor.lean ====
section
/-!
PROOFS. `NEXTBIT` of R90 read by the absolute position of R91: the bit it delivers, how the position moves, and when it
raises.
-/

namespace Sys2Proof.Machine

/-- With no bit buffered, the stream's next bit is bit 7 of the byte that `NEXTBIT` pulls (R22). -/
theorem inputBit_bitPos_of_empty (inp : Memory) {c : BitCursor} (h0 : c.bitcnt = 0) :
    inputBit inp c.bitPos = (inputByte inp c.pos).getLsbD 7 := by
  have hbyte : (8 * c.pos - 0) / 8 = c.pos := by omega
  have hbit : 7 - (8 * c.pos - 0) % 8 = 7 := by omega
  rw [inputBit, BitCursor.bitPos, h0, hbyte, hbit]

/-- With bits buffered, the stream's next bit is bit 7 of the buffer: the last byte pulled, shifted by the bits of it
already consumed (R21, R22). -/
theorem BitCursor.Wf.inputBit_bitPos_of_buffered {inp : Memory} {len : Nat} {c : BitCursor} (h : c.Wf inp len)
    (h0 : c.bitcnt ≠ 0) : inputBit inp c.bitPos = c.bitbuf.getLsbD 7 := by
  obtain ⟨hpos, hbuf⟩ := h.buffered h0
  have hcnt := h.bitcnt_le
  have hbyte : (8 * c.pos - c.bitcnt) / 8 = c.pos - 1 := by omega
  have hbit : 7 - (8 * c.pos - c.bitcnt) % 8 = 7 - (8 - c.bitcnt) := by omega
  have hshift : ¬ 7 < 8 - c.bitcnt := by omega
  rw [inputBit, BitCursor.bitPos, hbyte, hbit, hbuf, BitVec.getLsbD_shiftLeft]
  simp only [hshift, Nat.reduceLT, decide_true, decide_false, Bool.not_false, Bool.true_and]

/-- The bit that a completed `NEXTBIT` delivers is bit `P` of the stream (R91). -/
theorem BitCursor.Wf.nextBit_bit {inp : Memory} {len : Nat} {c c' : BitCursor} {bit : Bool} (h : c.Wf inp len)
    (hb : Machine.nextBit inp len c = .ok bit c') : bit = inputBit inp c.bitPos := by
  obtain ⟨h0, hbit, -⟩ | ⟨h0, -, hbit, -⟩ := nextBit_eq_ok hb
  · rw [hbit, h.inputBit_bitPos_of_buffered h0]
  · rw [hbit, inputBit_bitPos_of_empty inp h0]

/-- A completed `NEXTBIT` moves the position by one (R91): it leaves one bit fewer of the same stream. -/
theorem BitCursor.Wf.nextBit_bitPos {inp : Memory} {len : Nat} {c c' : BitCursor} {bit : Bool} (h : c.Wf inp len)
    (hb : Machine.nextBit inp len c = .ok bit c') : c'.bitPos = c.bitPos + 1 := by
  have hbefore := h.bitPos_add_bitsLeft
  have hafter := (h.nextBit hb).bitPos_add_bitsLeft
  have hleft := nextBit_bitsLeft hb
  omega

/-- `NEXTBIT` completes whenever a bit is left. -/
theorem nextBit_completes {inp : Memory} {len : Nat} {c : BitCursor} (h : 0 < c.bitsLeft len) :
    ∃ bit c', nextBit inp len c = .ok bit c' := by
  cases hb : nextBit inp len c with
  | ok bit c' => exact ⟨bit, c', rfl⟩
  | raise e c' => exact absurd (nextBit_raise_bitsLeft hb) h.ne'
  | refused r => exact absurd hb nextBit_ne_refused

/-- `NEXTBIT` raises whenever no bit is left, and leaves the cursor as it was (R90). -/
theorem nextBit_raises {inp : Memory} {len : Nat} {c : BitCursor} (h : c.bitsLeft len = 0) :
    nextBit inp len c = .raise .unexpectedEndOfStream c := by
  rw [BitCursor.bitsLeft] at h
  exact nextBit_eq_raise.mpr ⟨by omega, by omega, rfl, rfl⟩

/-- Settles O9: before the end a bit is left, so `NEXTBIT` completes, and a completed `NEXTBIT` is that of R91; at the end
no bit is left, so it raises. -/
theorem nextBitDeliversStreamBit : Obligations.NextBitDeliversStreamBit := by
  intro inp len c h
  have hsum := h.bitPos_add_bitsLeft
  refine ⟨fun hlt => ?_, fun hend => nextBit_raises (by omega)⟩
  obtain ⟨bit, c', hb⟩ := nextBit_completes (inp := inp) (show 0 < c.bitsLeft len by omega)
  obtain ⟨hcode, hmask⟩ := nextBit_code_mask hb
  exact ⟨c', h.nextBit_bit hb ▸ hb, h.nextBit_bitPos hb, h.nextBit hb, hcode, hmask⟩

end Sys2Proof.Machine
end

