-- ==== Sys2Proof/Proofs/History.lean ====
section
/-!
PROOFS. `APPENDLIT` and `APPLYCOPY` on a well-formed ring: the cells that a legal copy loads hold the trailing bytes of
`OUT` (R37, R53), so the bytes it appends repeat those `distance` before them (R132), and it stores nowhere else.
-/

namespace Sys2Proof.Machine

/-! ### Loads -/

/-- A cell within the window has been written (R133). -/
theorem HistoryRing.Wf.read_isSome {size k : Nat} {h : HistoryRing} (hw : h.Wf size) (hk : k < h.count)
    (hwin : h.count ≤ k + size) : (Memory.read h.ring (k % size)).isSome := by
  rw [hw.window k hk hwin, isSome_getElem?, ← hw.count_eq]
  exact hk

/-- A load within the window delivers the byte of `OUT` (R53). -/
theorem HistoryRing.Wf.out_eq_ringByte {size k : Nat} {h : HistoryRing} (hw : h.Wf size) (hk : k < h.count)
    (hwin : h.count ≤ k + size) : h.out[k]? = some (ringByte h.ring (k % size)) := by
  obtain ⟨v, hv⟩ := Option.isSome_iff_exists.mp (hw.read_isSome hk hwin)
  rw [← hw.window k hk hwin, ringByte, hv, Option.getD_some]

/-! ### The loop of `APPLYCOPY` -/

/-- The loop keeps the ring and `OUT` two views of one stream (R135). -/
theorem HistoryRing.Wf.copyLoop {size : Nat} (n i : Nat) {h : HistoryRing} (hw : h.Wf size) :
    (Machine.copyLoop size n i h).Wf size := by
  induction n generalizing i h with
  | zero => exact hw
  | succ n ih => exact ih (i + 1) ((hw.appendLit (ringByte h.ring h.rd)).congr rfl rfl rfl)

/-- The loop stores into the `n` cells from `count mod size` on only. -/
theorem copyLoop_read_frame {size n a : Nat} (i : Nat) {h : HistoryRing}
    (ha : ∀ k < n, a ≠ (h.count + k) % size) :
    Memory.read (copyLoop size n i h).ring a = Memory.read h.ring a := by
  induction n generalizing i h with
  | zero => rfl
  | succ n ih =>
    have hfirst : a ≠ h.count % size := ha 0 n.succ_pos
    have hlater : ∀ k < n, a ≠ (h.count + 1 + k) % size := fun k hk => by
      have := ha (k + 1) (Nat.succ_lt_succ hk)
      rwa [Nat.add_assoc, Nat.add_comm 1]
    rw [copyLoop_succ]
    exact (ih (i + 1) hlater).trans (Memory.read_write_ne _ _ _ _ hfirst)

/-- The byte that an iteration loads stays in `OUT`, at index `count`. -/
theorem copyLoop_out_at_count {size n i : Nat} {h : HistoryRing} (hc : h.count = h.out.length) :
    (copyLoop size (n + 1) i h).out[h.count]? = some (ringByte h.ring h.rd) := by
  rw [copyLoop_succ]
  obtain ⟨rest, hrest⟩ := copyLoop_out_prefix size n (i + 1)
    { appendLit size (ringByte h.ring h.rd) h with i := i, rd := (h.rd + 1) % size }
  rw [← hrest, appendLit_out, hc]
  simp

/-- The loop leaves the bytes already in `OUT`. -/
theorem copyLoop_out_below {size n i k : Nat} {h : HistoryRing} (hk : k < h.out.length) :
    (copyLoop size n i h).out[k]? = h.out[k]? := by
  obtain ⟨rest, hrest⟩ := copyLoop_out_prefix size n i h
  rw [← hrest, List.getElem?_append_left hk]

/-- R132: with the read cursor `d` behind the write cursor, each byte the loop appends equals the byte `d` before it, which
an earlier iteration may have appended. The cursors keep their difference, so that every iteration is a first one. -/
theorem copyLoop_out_repeats {size d n : Nat} (i : Nat) {h : HistoryRing} (hd : 1 ≤ d) (hsize : d ≤ size)
    (hcount : d ≤ h.count) (hw : h.Wf size) (hrd : h.rd = (h.count - d) % size) :
    ∀ k < n, (copyLoop size n i h).out[h.count + k]? = (copyLoop size n i h).out[h.count + k - d]? := by
  induction n generalizing i h with
  | zero => intro k hk; exact absurd hk k.not_lt_zero
  | succ n ih =>
    intro k hk
    cases k with
    | zero =>
      have hlen := hw.count_eq
      simp only [Nat.add_zero]
      rw [copyLoop_out_at_count hlen, copyLoop_out_below (by omega), hrd, hw.out_eq_ringByte (by omega) (by omega)]
    | succ k =>
      have hw1 := (hw.appendLit (ringByte h.ring h.rd)).congr
        (h' := { appendLit size (ringByte h.ring h.rd) h with i := i, rd := (h.rd + 1) % size }) rfl rfl rfl
      have hrd1 : (h.rd + 1) % size = (h.count + 1 - d) % size := by
        rw [hrd, Nat.mod_add_mod, Nat.sub_add_comm hcount]
      have hrest := ih (i + 1) (Nat.le_succ_of_le hcount) hw1 hrd1 k (Nat.lt_of_succ_lt_succ hk)
      rwa [← copyLoop_succ, appendLit_count, Nat.add_assoc, Nat.add_comm 1] at hrest

/-! ### The obligations -/

/-- Settles O25: the store of `APPENDLIT` is one write of the ring (R130), and the rest are its fields. -/
theorem appendLitWritesBothViews : Obligations.AppendLitWritesBothViews := by
  intro size v h
  refine ⟨appendLit_out size v h, appendLit_count size v h, ?_, fun a ha => ?_, appendLit_rd size v h,
    appendLit_i size v h⟩
  · rw [appendLit_ring, Memory.read_write_same]
  · rw [appendLit_ring, Memory.read_write_ne _ _ _ _ ha]

/-- Settles O26: the `distance` cells before the write cursor lie in the window, because `distance` is at most `size`. -/
theorem invalidDistanceExactly : Obligations.InvalidDistanceExactly := by
  intro size length distance h hd hsize hw
  refine ⟨fun hlt => applyCopy_eq_raise.mpr ⟨hd, hsize, hlt, rfl, rfl⟩, fun hle => ⟨?_, fun k hk => ?_⟩⟩
  · exact ⟨_, applyCopy_eq_ok.mpr ⟨hd, hsize, hle, rfl⟩⟩
  · exact hw.read_isSome (by omega) (by omega)

/-- Settles O27: a legal copy is the loop with the read cursor `distance` behind the write cursor (R131). -/
theorem copyRepeatsTheHistory : Obligations.CopyRepeatsTheHistory := by
  intro size length distance h hd hsize hle hw
  have hw0 := hw.congr (h' := { h with rd := (h.count - distance) % size }) rfl rfl rfl
  exact ⟨_, applyCopy_eq_ok.mpr ⟨hd, hsize, hle, rfl⟩, (copyLoop_count size length 0 _).1,
    copyLoop_out_prefix size length 0 { h with rd := (h.count - distance) % size },
    copyLoop_out_repeats 0 hd hsize hle hw0 rfl, hw0.copyLoop length 0, fun a ha => copyLoop_read_frame 0 ha⟩

end Sys2Proof.Machine
end

