-- ==== Sys2Proof/Proofs/Decompressor.lean ====
section
/-!
PROOFS. The dispatch of a decoded symbol (R141), by division with remainder of its offset above `firstCode`, and the
instructions `LIT` (R142) and `TERM` (R143).
-/

namespace Sys2Proof

/-! ### The copy codes (R73) -/

/-- Every index below six is the index of a range (R5). -/
theorem CopyRange.exists_ofIndex {k : Nat} (hk : k < copyRanges) : ∃ r, CopyRange.ofIndex? k = some r ∧ r.index = k :=
  match k, hk with
  | 0, _ => ⟨.r0, rfl, rfl⟩
  | 1, _ => ⟨.r1, rfl, rfl⟩
  | 2, _ => ⟨.r2, rfl, rfl⟩
  | 3, _ => ⟨.r3, rfl, rfl⟩
  | 4, _ => ⟨.r4, rfl, rfl⟩
  | 5, _ => ⟨.r5, rfl, rfl⟩

theorem Cfg.codesPerRange_pos (c : Cfg) : 0 < c.codesPerRange := Nat.succ_pos _

/-- The codes of a valid configuration end with the sixth range (R8 (d)), so that no symbol has a seventh (N20). -/
theorem rangeIndexOf_lt {c : Cfg} {sym : Nat} (hc : c.valid = true) (hsym : sym ≤ c.maxChar) :
    rangeIndexOf c sym < copyRanges := by
  obtain ⟨-, -, hfirst, -, -, halphabet, -⟩ := Cfg.valid_bounds hc
  have hpos := c.codesPerRange_pos
  have hoffset : sym - c.firstCode < c.codesPerRange * 6 := by omega
  exact Nat.div_lt_of_lt_mul hoffset

/-- The length of a copy code is `minCopy` plus what the division by `codesPerRange` leaves. -/
theorem lengthOf_eq_add_mod (c : Cfg) (sym : Nat) :
    lengthOf c sym = c.minCopy + (sym - c.firstCode) % c.codesPerRange := by
  rw [lengthOf, rangeIndexOf, Nat.mod_eq_sub_div_mul]

/-- The length of every copy code is expressible. -/
theorem copyLengthOk_lengthOf {c : Cfg} (hc : c.valid = true) (sym : Nat) : c.copyLengthOk (lengthOf c sym) = true := by
  obtain ⟨-, -, -, -, hlengths, -⟩ := Cfg.valid_bounds hc
  have hmod := Nat.mod_lt (sym - c.firstCode) c.codesPerRange_pos
  have hcodes : c.codesPerRange = c.maxCopy - c.minCopy + 1 := rfl
  rw [Cfg.copyLengthOk, lengthOf_eq_add_mod, Bool.and_eq_true, decide_eq_true_eq, decide_eq_true_eq]
  omega

/-- The last formula of R73 inverts the first two. -/
theorem symbol_copy_lengthOf {c : Cfg} {sym : Nat} {r : CopyRange} (hsym : c.firstCode ≤ sym)
    (hr : r.index = rangeIndexOf c sym) : (Op.copy r (lengthOf c sym)).symbol c = sym := by
  have hdiv := Nat.div_add_mod' (sym - c.firstCode) c.codesPerRange
  rw [Op.symbol, lengthOf_eq_add_mod, hr, rangeIndexOf, Nat.add_sub_cancel_left]
  omega

/-! ### The cases of the dispatch (R141) -/

theorem dispatchSymbol_terminateCode (c : Cfg) : dispatchSymbol c c.terminateCode = .ok .term := if_pos rfl

theorem dispatchSymbol_of_lt {c : Cfg} {sym : Nat} (hlt : sym < c.terminateCode) (hbyte : sym < 256) :
    dispatchSymbol c sym = .ok (.lit (BitVec.ofNat 8 sym)) := by
  rw [dispatchSymbol, if_neg hlt.ne, if_pos hlt, if_pos hbyte]

theorem dispatchSymbol_of_gt {c : Cfg} {sym : Nat} {r : CopyRange} (hgt : c.terminateCode < sym)
    (hsym : sym ≤ c.maxChar) (hr : CopyRange.ofIndex? (rangeIndexOf c sym) = some r) :
    dispatchSymbol c sym = .ok (.copy r (lengthOf c sym)) := by
  rw [dispatchSymbol, if_neg hgt.ne', if_neg hgt.not_gt, if_neg hsym.not_gt, hr]

/-- Settles O2: `terminateCode` splits the alphabet in three, a literal's symbol fits a byte (R8 (a)), and a copy's symbol
lies in one of six ranges. -/
theorem everySymbolIsAnInstruction : Obligations.EverySymbolIsAnInstruction := by
  intro c sym hc hsym
  obtain ⟨-, hterm, hfirst, -⟩ := Cfg.valid_bounds hc
  obtain hlt | rfl | hgt := Nat.lt_trichotomy sym c.terminateCode
  · have hbyte : (BitVec.ofNat 8 sym).toNat = sym := Nat.mod_eq_of_lt (by omega)
    have hwf : (Op.lit (BitVec.ofNat 8 sym)).wf c = true := by
      rw [Op.wf, Cfg.literalOk, hbyte, decide_eq_true_eq]
      exact hlt
    exact ⟨_, dispatchSymbol_of_lt hlt (by omega), hwf, hbyte, hlt, hbyte⟩
  · exact ⟨_, dispatchSymbol_terminateCode c, rfl, rfl, rfl⟩
  · obtain ⟨r, hr, hindex⟩ := CopyRange.exists_ofIndex (rangeIndexOf_lt hc hsym)
    exact ⟨_, dispatchSymbol_of_gt hgt hsym hr, copyLengthOk_lengthOf hc sym, symbol_copy_lengthOf (by omega) hindex,
      hgt, hindex⟩

/-! ### `LIT` and `TERM` -/

namespace Machine

/-- Settles O30: `LIT` is one `APPENDLIT` on the state's ring, whose store is one write. -/
theorem litAppendsItsByte : Obligations.LitAppendsItsByte := by
  intro b s
  refine ⟨rfl, s.withHist (appendLit s.cfg.historySize b s.hist), exec_eq_execOp (.lit b) s, ?_⟩
  rw [State.withHist_hist]
  obtain ⟨hout, hcount, hcell, hframe, hrd, hi⟩ := appendLitWritesBothViews s.cfg.historySize b s.hist
  exact ⟨hout, hcount, hcell, hframe, hrd, hi, rfl⟩

/-- Settles O31: `TERM` leaves `BUSY`, and outside a run the engine holds the state (R171). -/
theorem termEndsTheRun : Obligations.TermEndsTheRun := by
  have hdone : Status.done ≠ .busy := by decide
  exact ⟨rfl, fun hp s => ⟨exec_eq_execOp .term s, _, engineStep_idle hdone, rfl, rfl⟩⟩

end Machine

end Sys2Proof
end

