-- ==== Sys2Proof/Proofs/Dispatch.lean ====
section
/-!
PROOFS. The opcode map (R72, R73, R141) inverts the encoder, from which its rows under the default configuration
follow; the distances of the copy ranges (R75, R93).
-/

namespace Sys2Proof

/-! ### Decoding an encoded instruction -/

/-- The range index of a copy symbol is that of the operands it was formed from (R73). -/
theorem rangeIndexOf_symbol_copy {c : Cfg} {r : CopyRange} {len : Nat} (h : c.copyLengthOk len = true) :
    rangeIndexOf c ((Op.copy r len).symbol c) = r.index := by
  simp only [Cfg.copyLengthOk, Bool.and_eq_true, decide_eq_true_eq] at h
  have hlt : len - c.minCopy < c.codesPerRange := by simp only [Cfg.codesPerRange]; omega
  rw [rangeIndexOf, Op.symbol, Nat.add_assoc, Nat.add_sub_cancel_left, Nat.add_comm,
    Nat.add_mul_div_right _ _ c.codesPerRange_pos, Nat.div_eq_of_lt hlt, Nat.zero_add]

/-- The length of a copy symbol is that of the operands it was formed from (R73). -/
theorem lengthOf_symbol_copy {c : Cfg} {r : CopyRange} {len : Nat} (h : c.copyLengthOk len = true) :
    lengthOf c ((Op.copy r len).symbol c) = len := by
  rw [lengthOf, rangeIndexOf_symbol_copy h, Op.symbol, Nat.add_assoc, Nat.add_sub_cancel_left, Nat.add_sub_cancel_left]
  simp only [Cfg.copyLengthOk, Bool.and_eq_true, decide_eq_true_eq] at h
  omega

/-- A copy symbol lies above `terminateCode` and in the alphabet (R8 (b), (d)). -/
theorem symbol_copy_bounds {c : Cfg} (hc : c.valid = true) {r : CopyRange} {len : Nat} (h : c.copyLengthOk len = true) :
    c.terminateCode < (Op.copy r len).symbol c ∧ (Op.copy r len).symbol c ≤ c.maxChar := by
  obtain ⟨-, -, hfirst, -, -, halphabet, -⟩ := Cfg.valid_bounds hc
  simp only [Cfg.copyLengthOk, Bool.and_eq_true, decide_eq_true_eq] at h
  have hlt : len - c.minCopy < c.codesPerRange := by simp only [Cfg.codesPerRange]; omega
  have hrange : r.index * c.codesPerRange ≤ 5 * c.codesPerRange := Nat.mul_le_mul_right _ r.index_le
  rw [Op.symbol]
  omega

/-- The symbol of well-formed operands dispatches to them: the three cases of R141 are those of the encoder. -/
theorem dispatchSymbol_symbol {c : Cfg} (hc : c.valid = true) {op : Op} (h : op.wf c = true) :
    dispatchSymbol c (op.symbol c) = .ok op := by
  cases op with
  | lit b =>
    have hlt : b.toNat < c.terminateCode := of_decide_eq_true h
    rw [Op.symbol, dispatchSymbol_of_lt hlt b.isLt, BitVec.ofNat_toNat, BitVec.setWidth_eq]
  | term => exact dispatchSymbol_terminateCode c
  | copy r len =>
    obtain ⟨hgt, hle⟩ := symbol_copy_bounds hc (r := r) h
    have hr : CopyRange.ofIndex? (rangeIndexOf c ((Op.copy r len).symbol c)) = some r := by
      rw [rangeIndexOf_symbol_copy h, CopyRange.ofIndex_index]
    rw [dispatchSymbol_of_gt hgt hle hr, lengthOf_symbol_copy h]

/-- Settles O1: the symbol dispatches to the operands of the row, and the row is the table's row for them. -/
theorem decodeOfEncodeIsTheRow : Obligations.DecodeOfEncodeIsTheRow := by
  intro c i hc h
  rw [decodeSymbol, encode, dispatchSymbol_symbol hc h]
  exact congrArg Except.ok (Machine.toDecoded_toOp i)

/-- The symbol of a well-formed instruction lies in the alphabet (R8 (d)). -/
theorem encode_le_maxChar {c : Cfg} (hc : c.valid = true) {i : Instr} (h : i.wf c = true) : encode c i ≤ c.maxChar := by
  obtain ⟨-, -, hfirst, -, -, halphabet, -⟩ := Cfg.valid_bounds hc
  rw [encode]
  rw [Instr.wf] at h
  generalize i.toOp = op at h ⊢
  cases op with
  | lit b =>
    have hlt : b.toNat < c.terminateCode := of_decide_eq_true h
    rw [Op.symbol]
    omega
  | term => rw [Op.symbol]; omega
  | copy r len => exact (symbol_copy_bounds hc h).2

/-! ### The rows of the default configuration -/

/-- Under the default configuration a symbol of range `r` dispatches to the copy whose symbol it is (R72). -/
theorem dispatchSymbol_default_copy {sym len : Nat} (r : CopyRange) (h3 : 3 ≤ len) (h64 : len ≤ 64)
    (hsym : sym = 257 + r.index * 62 + (len - 3)) : dispatchSymbol Cfg.default sym = .ok (.copy r len) := by
  have hwf : (Op.copy r len).wf Cfg.default = true := by
    rw [Op.wf, Cfg.copyLengthOk, Bool.and_eq_true, decide_eq_true_eq, decide_eq_true_eq]
    exact ⟨h3, h64⟩
  rw [hsym]
  exact dispatchSymbol_symbol (by decide) hwf

/-- Settles O3: `terminateCode` is 256, and the six ranges follow it with 62 lengths each. -/
theorem defaultOpcodeMap : Obligations.DefaultOpcodeMap := by
  intro sym hsym
  split_ifs with hlit hterm h0 h1 h2 h3 h4
  · exact dispatchSymbol_of_lt hlit hlit
  · rw [hterm]; exact dispatchSymbol_terminateCode Cfg.default
  · exact dispatchSymbol_default_copy .r0 (by omega) (by omega) (by simp only [CopyRange.index]; omega)
  · exact dispatchSymbol_default_copy .r1 (by omega) (by omega) (by simp only [CopyRange.index]; omega)
  · exact dispatchSymbol_default_copy .r2 (by omega) (by omega) (by simp only [CopyRange.index]; omega)
  · exact dispatchSymbol_default_copy .r3 (by omega) (by omega) (by simp only [CopyRange.index]; omega)
  · exact dispatchSymbol_default_copy .r4 (by omega) (by omega) (by simp only [CopyRange.index]; omega)
  · exact dispatchSymbol_default_copy .r5 (by omega) (by omega) (by simp only [CopyRange.index]; omega)

/-- Settles O4: `terminateCode` lies in the alphabet, so that a number above `maxChar` is neither it nor below it. -/
theorem symbolsAboveAlphabetAreRejected : Obligations.SymbolsAboveAlphabetAreRejected := by
  intro c sym hc hsym
  obtain ⟨-, -, hfirst, -, -, halphabet, -⟩ := Cfg.valid_bounds hc
  rw [dispatchSymbol, if_neg (by omega), if_neg (by omega), if_pos hsym]

/-- Settles O5: each of the words evaluates to its row. -/
theorem tableWordsDecode : Obligations.TableWordsDecode :=
  ⟨rfl, rfl, rfl, rfl, rfl, rfl, rfl, rfl, rfl⟩

/-! ### Distances -/

/-- Settles O36: the field lies between 0 and `2 ^ copyBits[r] - 1`, and the length and `copyMin[r]` are added to it. -/
theorem defaultDistanceRanges : Obligations.DefaultDistanceRanges := by
  intro r len bits hbits h3 h64
  have hextra := Machine.extraOf_le bits
  rw [hbits] at hextra
  cases r <;>
    simp only [Cfg.default, PerRange.get, Nat.reducePow, Nat.reduceSub, Machine.distanceOf] at hextra ⊢ <;>
    omega

end Sys2Proof
end

