-- ==== Sys2Proof/Proofs/NextCode.lean ====
section
/-!
PROOFS. `NEXTCODE` (R92) over the stream's bits: the registers `code` and `mask` after each bit, the closed form of
the value (R93), and the cursor where the input ends (R94 (e)).
-/

namespace Sys2Proof.Machine

/-! ### The registers `code` and `mask` -/

/-- After every bit `mask` is the shifted `code` (R92). -/
theorem foldBit_mask_eq_two_mul (bit : Bool) (c : BitCursor) : (foldBit bit c).mask = 2 * (foldBit bit c).code := by
  rw [foldBit_mask, foldBit_code, Nat.shiftLeft_eq, pow_one, Nat.mul_comm]

/-- A loop that starts with the shifted `code` in `mask` ends so. -/
theorem nextCodeLoop_mask {inp : Memory} {len n : Nat} {c c' : BitCursor} {u : Unit} (hm : c.mask = 2 * c.code)
    (h : nextCodeLoop inp len n c = .ok u c') : c'.mask = 2 * c'.code := by
  induction n generalizing c with
  | zero => cases h; exact hm
  | succ n ih =>
    rw [nextCodeLoop_succ, Res.andThen_eq_ok] at h
    obtain ⟨bit, c1, -, h⟩ := h
    exact ih (foldBit_mask_eq_two_mul bit c1) h

/-- Each bit read lengthens `code` by at most one binary digit. -/
theorem nextCodeLoop_code_lt {inp : Memory} {len n i : Nat} {c c' : BitCursor} {u : Unit} (hcode : c.code < 2 ^ i)
    (hmask : c.mask < 2 ^ (i + 1)) (h : nextCodeLoop inp len n c = .ok u c') : c'.code < 2 ^ (i + n) := by
  induction n generalizing c i with
  | zero => cases h; exact hcode
  | succ n ih =>
    rw [nextCodeLoop_succ, Res.andThen_eq_ok] at h
    obtain ⟨bit, c1, hb, h⟩ := h
    obtain ⟨hcode1, hmask1⟩ := nextBit_code_mask hb
    have hpow : 2 ^ i < 2 ^ (i + 1) := Nat.pow_lt_pow_right (by decide) i.lt_succ_self
    have hfold : (foldBit bit c1).code < 2 ^ (i + 1) := by
      rw [foldBit_code, hcode1, hmask1]
      split
      · exact Nat.or_lt_two_pow (hcode.trans hpow) hmask
      · exact hcode.trans hpow
    have hfold' : (foldBit bit c1).mask < 2 ^ (i + 1 + 1) := by
      rw [foldBit_mask_eq_two_mul, pow_succ]
      omega
    have := ih hfold hfold' h
    rwa [Nat.add_assoc, Nat.add_comm 1] at this

/-- Settles O11: `NEXTCODE` starts with `code = 0` and `mask = 1`, and answers `code`. -/
theorem nextCodeRegisters : Obligations.NextCodeRegisters := by
  intro inp len n v c c' h
  obtain ⟨-, hloop, rfl⟩ := nextCode_eq_ok.mp h
  have hlt := nextCodeLoop_code_lt (i := 0) Nat.zero_lt_one Nat.one_lt_two hloop
  rw [Nat.zero_add] at hlt
  refine ⟨hlt, rfl, fun hn => ?_⟩
  obtain ⟨n, rfl⟩ := Nat.exists_eq_add_of_le' hn
  rw [nextCodeLoop_succ, Res.andThen_eq_ok] at hloop
  obtain ⟨bit, c1, -, hloop⟩ := hloop
  exact nextCodeLoop_mask (foldBit_mask_eq_two_mul bit c1) hloop

/-! ### The closed form (R93) -/

/-- With no bit set in `code` and `mask`, no later bit sets one. -/
theorem nextCodeLoop_code_zero {inp : Memory} {len n : Nat} {c c' : BitCursor} {u : Unit} (hcode : c.code = 0)
    (hmask : c.mask = 0) (h : nextCodeLoop inp len n c = .ok u c') : c'.code = 0 := by
  induction n generalizing c with
  | zero => cases h; exact hcode
  | succ n ih =>
    rw [nextCodeLoop_succ, Res.andThen_eq_ok] at h
    obtain ⟨bit, c1, hb, h⟩ := h
    obtain ⟨hcode1, hmask1⟩ := nextBit_code_mask hb
    have hfold : (foldBit bit c1).code = 0 := by
      rw [foldBit_code, hcode1, hmask1, hcode, hmask, Nat.or_zero, ite_self]
    exact ih hfold (by rw [foldBit_mask_eq_two_mul, hfold]) h

/-- A 1 bit on `2 ^ j - 1` makes it `2 ^ (j + 1) - 1`. -/
theorem two_pow_sub_one_or_double {j : Nat} (hj : 1 ≤ j) : (2 ^ j - 1) ||| (2 * (2 ^ j - 1)) = 2 ^ (j + 1) - 1 := by
  apply Nat.eq_of_testBit_eq
  intro i
  rw [Nat.testBit_or, Nat.testBit_two_pow_sub_one, Nat.testBit_two_pow_sub_one]
  cases i with
  | zero => simp; omega
  | succ i =>
    rw [Nat.testBit_succ, Nat.mul_div_cancel_left _ Nat.two_pos, Nat.testBit_two_pow_sub_one, ← Bool.decide_or]
    congr 1
    rw [eq_iff_iff]
    omega

/-- Once the first bit was 1, `code` is `2 ^ j - 1`, where `j` counts the 1 bits. -/
theorem BitCursor.Wf.nextCodeLoop_code_ones {inp : Memory} {len n j : Nat} {c c' : BitCursor} {u : Unit}
    (hw : c.Wf inp len) (hj : 1 ≤ j) (hcode : c.code = 2 ^ j - 1) (hmask : c.mask = 2 * c.code)
    (h : Machine.nextCodeLoop inp len n c = .ok u c') :
    c'.code = 2 ^ (j + (streamBits inp c.bitPos n).count true) - 1 := by
  induction n generalizing c j with
  | zero => cases h; exact hcode
  | succ n ih =>
    rw [nextCodeLoop_succ, Res.andThen_eq_ok] at h
    obtain ⟨bit, c1, hb, h⟩ := h
    obtain ⟨hcode1, hmask1⟩ := nextBit_code_mask hb
    have hw1 : (foldBit bit c1).Wf inp len := (hw.nextBit hb).congr rfl rfl rfl
    rw [streamBits_succ, ← hw.nextBit_bit hb, ← hw.nextBit_bitPos hb, ← foldBit_bitPos bit]
    cases bit with
    | false =>
      rw [List.count_cons_of_ne (by decide)]
      exact ih hw1 hj (hcode1.trans hcode) (foldBit_mask_eq_two_mul _ _) h
    | true =>
      have hfold : (foldBit true c1).code = 2 ^ (j + 1) - 1 := by
        rw [foldBit_code, if_pos rfl, hcode1, hmask1, hmask, hcode, two_pow_sub_one_or_double hj]
      rw [List.count_cons_self, Nat.add_comm _ 1, ← Nat.add_assoc]
      exact ih hw1 (Nat.le_succ_of_le hj) hfold (foldBit_mask_eq_two_mul _ _) h

/-- `NEXTCODE` denotes what the extra-bits field denotes by R93: the first bit decides. -/
theorem BitCursor.Wf.nextCodeLoop_extraOf {inp : Memory} {len n : Nat} {c c' : BitCursor} {u : Unit}
    (hw : c.Wf inp len) (hcode : c.code = 0) (hmask : c.mask = 1)
    (h : Machine.nextCodeLoop inp len n c = .ok u c') : c'.code = extraOf (streamBits inp c.bitPos n) := by
  cases n with
  | zero => cases h; exact hcode
  | succ n =>
    rw [nextCodeLoop_succ, Res.andThen_eq_ok] at h
    obtain ⟨bit, c1, hb, h⟩ := h
    obtain ⟨hcode1, hmask1⟩ := nextBit_code_mask hb
    have hw1 : (foldBit bit c1).Wf inp len := (hw.nextBit hb).congr rfl rfl rfl
    rw [streamBits_succ, ← hw.nextBit_bit hb, ← hw.nextBit_bitPos hb, ← foldBit_bitPos bit]
    cases bit with
    | false =>
      have hfold : (foldBit false c1).code = 0 := hcode1.trans hcode
      exact nextCodeLoop_code_zero hfold (by rw [foldBit_mask_eq_two_mul, hfold]) h
    | true =>
      have hfold : (foldBit true c1).code = 2 ^ 1 - 1 := by
        rw [foldBit_code, if_pos rfl, hcode1, hmask1, hcode, hmask]
        rfl
      rw [hw1.nextCodeLoop_code_ones Nat.le.refl hfold (foldBit_mask_eq_two_mul _ _) h, extraOf, List.count_cons_self,
        Nat.add_comm]

/-- The loop completes whenever its bits are left. -/
theorem nextCodeLoop_completes {inp : Memory} {len n : Nat} {c : BitCursor} (h : n ≤ c.bitsLeft len) :
    ∃ c', nextCodeLoop inp len n c = .ok () c' := by
  induction n generalizing c with
  | zero => exact ⟨c, rfl⟩
  | succ n ih =>
    obtain ⟨bit, c1, hb⟩ := nextBit_completes (inp := inp) (Nat.lt_of_lt_of_le n.succ_pos h)
    have hleft := nextBit_bitsLeft hb
    obtain ⟨c', h'⟩ := ih (c := foldBit bit c1) (by rw [foldBit_bitsLeft]; omega)
    exact ⟨c', by rw [nextCodeLoop_succ, hb]; exact h'⟩

/-- With its bits left, `NEXTCODE` answers what they denote and stands behind them. -/
theorem BitCursor.Wf.nextCode {inp : Memory} {len n : Nat} {c : BitCursor} (hw : c.Wf inp len) (hn : n ≤ codeW)
    (hleft : n ≤ c.bitsLeft len) :
    ∃ c', Machine.nextCode inp len n c = .ok (extraOf (streamBits inp c.bitPos n)) c' ∧
      c'.code = extraOf (streamBits inp c.bitPos n) ∧ c'.bitPos = c.bitPos + n ∧ c'.Wf inp len := by
  have hw0 : BitCursor.Wf inp len { c with mask := 1, code := 0 } := hw.congr rfl rfl rfl
  obtain ⟨c', hloop⟩ := nextCodeLoop_completes (inp := inp) (c := { c with mask := 1, code := 0 }) hleft
  have hcode := hw0.nextCodeLoop_extraOf rfl rfl hloop
  have hw' := hw0.nextCodeLoop hloop
  have hbefore := hw0.bitPos_add_bitsLeft
  have hafter := hw'.bitPos_add_bitsLeft
  have hcount := nextCodeLoop_bitsLeft hloop
  refine ⟨c', nextCode_eq_ok.mpr ⟨hn, hloop, hcode.symm⟩, hcode, ?_, hw'⟩
  change _ = BitCursor.bitPos { c with mask := 1, code := 0 } + n
  omega

/-- Settles O10: R93 is what the field denotes, read by its first bit. -/
theorem nextCodeClosedForm : Obligations.NextCodeClosedForm := by
  intro inp len n c hw hn hleft
  obtain ⟨c', h, -, hpos, hw'⟩ := hw.nextCode hn hleft
  refine ⟨_, c', h, hpos, hw', fun h0 => by rw [h0]; rfl, fun h1 => ?_⟩
  obtain ⟨n, rfl⟩ := Nat.exists_eq_add_of_le' h1
  rw [streamBits_succ]
  cases inputBit inp c.bitPos <;> rfl

/-! ### Too few bits -/

/-- A cursor with no bit left stands at the end of the input. -/
theorem BitCursor.Wf.at_end {inp : Memory} {len : Nat} {c : BitCursor} (hw : c.Wf inp len) (h : c.bitsLeft len = 0) :
    c.pos = len ∧ c.bitcnt = 0 := by
  have := hw.pos_le
  rw [BitCursor.bitsLeft] at h
  omega

/-- With fewer bits left than the loop needs, it consumes them all and raises. -/
theorem BitCursor.Wf.nextCodeLoop_short {inp : Memory} {len n : Nat} {c : BitCursor} (hw : c.Wf inp len)
    (h : c.bitsLeft len < n) :
    ∃ c', Machine.nextCodeLoop inp len n c = .raise .unexpectedEndOfStream c' ∧ c'.pos = len ∧ c'.bitcnt = 0 ∧
      c'.Wf inp len := by
  induction n generalizing c with
  | zero => exact absurd h (Nat.not_lt_zero _)
  | succ n ih =>
    rw [nextCodeLoop_succ]
    obtain h0 | hpos := Nat.eq_zero_or_pos (c.bitsLeft len)
    · obtain ⟨hp, hb⟩ := hw.at_end h0
      exact ⟨c, by rw [nextBit_raises h0, Res.andThen_raise], hp, hb, hw⟩
    · obtain ⟨bit, c1, hb⟩ := nextBit_completes (inp := inp) hpos
      have hleft := nextBit_bitsLeft hb
      rw [hb, Res.andThen_ok]
      exact ih (c := foldBit bit c1) ((hw.nextBit hb).congr rfl rfl rfl) (by rw [foldBit_bitsLeft]; omega)

/-- Settles O12: `NEXTCODE` raises where its loop does. -/
theorem nextCodeEndOfStream : Obligations.NextCodeEndOfStream := by
  intro inp len n c hw hn hleft
  have hw0 : BitCursor.Wf inp len { c with mask := 1, code := 0 } := hw.congr rfl rfl rfl
  obtain ⟨c', h, hend⟩ := hw0.nextCodeLoop_short hleft
  exact ⟨c', nextCode_eq_raise.mpr ⟨hn, h⟩, hend⟩

end Sys2Proof.Machine
end

