-- ==== Sys2Proof/Proofs/CopyRule.lean ====
section
/-!
PROOFS. The common copy rule (R144), for the rows of the opcode table and for copies without one: the copy completes,
its distance is invalid, or its extra bits are missing. What taking an error leaves (R164).
-/

namespace Sys2Proof.Machine

/-! ### Errors taken -/

/-- An error taken where only the parts of a run have moved shows the error and nothing else (R164, R172). -/
theorem errorTaken_abort {e : ErrKind} {s s1 : State}
    (h : s1 = { s with cursor := s1.cursor, model := s1.model, hist := s1.hist, dec := s1.dec }) :
    ErrorTaken e s (abort e s1) := by
  rw [h]
  constructor <;> rfl

/-- Settles O37: nothing has moved before. -/
theorem abortShowsTheErrorOnly : Obligations.AbortShowsTheErrorOnly := fun _ _ => errorTaken_abort rfl

/-! ### `APPLYCOPY` -/

/-- Settles O29: of the three cases of `APPLYCOPY` the refusal is the one outside the domain. -/
theorem copyOutsideItsDomainIsRefused : Obligations.CopyOutsideItsDomainIsRefused := by
  intro size length distance h
  rcases applyCopy_cases size length distance h with ⟨hd, e⟩ | ⟨h1, h2, -, e⟩ | ⟨h1, h2, -, e⟩
  · exact ⟨fun _ => hd, fun _ => e⟩
  · exact ⟨fun hr => (by rw [e] at hr; cases hr), fun hd => by omega⟩
  · exact ⟨fun hr => (by rw [e] at hr; cases hr), fun hd => by omega⟩

/-- A list that repeats its last element from index `n - 1` on holds it at each index from there. -/
theorem getElem?_of_repeats {α : Type} {l : List α} {v : α} {n length : Nat} (hlast : l[n - 1]? = some v)
    (hrep : ∀ k < length, l[n + k]? = l[n + k - 1]?) : ∀ k < length, l[n + k]? = some v := by
  intro k
  induction k with
  | zero => intro hk; rw [hrep 0 hk]; exact hlast
  | succ k ih => intro hk; rw [hrep (k + 1) hk]; exact ih (by omega)

/-- Settles O28: at distance 1 each byte equals the byte before it (R132), down to the last byte before the copy. -/
theorem distanceOneRepeatsLastByte : Obligations.DistanceOneRepeatsLastByte := by
  intro size length h v hsize hw hlast
  have hcount : 1 ≤ h.count := by
    rw [hw.count_eq]
    exact List.length_pos_of_mem (List.mem_of_getLast? hlast)
  obtain ⟨h', hok, hcount', ⟨rest, hrest⟩, hrep, hw', -⟩ :=
    copyRepeatsTheHistory size length 1 h Nat.le.refl hsize hcount hw
  have hlen : rest.length = length := by
    have := hw'.count_eq
    rw [← hrest, List.length_append, ← hw.count_eq] at this
    omega
  have hprev : h'.out[h.count - 1]? = some v := by
    rw [List.getLast?_eq_getElem?] at hlast
    rw [← hrest, hw.count_eq, List.getElem?_append_left (by rw [← hw.count_eq]; omega), hlast]
  have hall := getElem?_of_repeats hprev hrep
  refine ⟨h', hok, ?_⟩
  rw [← hrest, List.eq_replicate_iff.mpr ⟨hlen, fun b hb => ?_⟩]
  obtain ⟨k, hk, rfl⟩ := List.getElem_of_mem hb
  have := hall k (by omega)
  rw [← hrest, hw.count_eq, List.getElem?_append_right (Nat.le_add_right _ _), Nat.add_sub_cancel_left,
    List.getElem?_eq_getElem hk] at this
  exact Option.some.inj this

/-! ### `COPYr` -/

/-- Settles O35: a raise is that of `NEXTCODE`, before the ring is reached, or that of `APPLYCOPY`, which moves
nothing. -/
theorem failedCopyMovesNothing : Obligations.FailedCopyMovesNothing := by
  intro r len e s t h
  obtain ⟨c, -, rfl⟩ | ⟨extra, c, h', -, hcopy, rfl⟩ := copyInstr_eq_raise.mp h
  · rfl
  · obtain ⟨-, -, -, -, hsame⟩ := applyCopy_eq_raise.mp hcopy
    exact hsame

/-- Every decodable distance lies in the domain of `APPLYCOPY` (R8 (c), (f)). -/
theorem State.distanceAt_domain {s : State} {r : CopyRange} {len : Nat} (hv : s.cfg.valid = true)
    (hlen : s.cfg.copyLengthOk len = true) : 1 ≤ s.distanceAt r len ∧ s.distanceAt r len ≤ s.cfg.historySize := by
  obtain ⟨-, -, -, hmin, -, -, -, hdist, -⟩ := Cfg.valid_bounds hv
  have hfit := hdist r
  have hextra := extraOf_le (streamBits s.inWin s.cursor.bitPos (s.cfg.copyBits.get r))
  rw [streamBits, List.length_map, List.length_range, ← streamBits] at hextra
  simp only [Cfg.copyLengthOk, Bool.and_eq_true, decide_eq_true_eq] at hlen
  rw [State.distanceAt, distanceOf, State.extraAt]
  omega

/-- The whole effect of a copy of range `r` and length `len` that completes (R144): `t` is the state that it leaves. -/
def CopyDone (r : CopyRange) (len : Nat) (s t : State) : Prop :=
  t = { s with cursor := t.cursor, hist := t.hist, dec := t.dec } ∧
  t.cursor.bitPos = s.cursor.bitPos + s.cfg.copyBits.get r ∧ t.cursor.Wf s.inWin s.runLen ∧
  t.cursor.code = s.extraAt r ∧
  t.dec = { sym := s.dec.sym, r := r.index, length := len, extra := s.extraAt r, distance := s.distanceAt r len } ∧
  t.hist.count = s.hist.count + len ∧ s.hist.out <+: t.hist.out ∧
  (∀ k < len, t.hist.out[s.hist.count + k]? = t.hist.out[s.hist.count + k - s.distanceAt r len]?) ∧
  t.hist.Wf s.cfg.historySize ∧
  ∀ a, (∀ k < len, a ≠ (s.hist.count + k) % s.cfg.historySize) →
    Memory.read t.hist.ring a = Memory.read s.hist.ring a

section Copy

variable {s : State} {r : CopyRange} {len : Nat}

/-- `COPYr` with its bits there and a legal distance: `NEXTCODE` answers the field of R93, `APPLYCOPY` completes. -/
theorem copyInstr_completes (hv : s.cfg.valid = true) (hlen : s.cfg.copyLengthOk len = true)
    (hw : s.cursor.Wf s.inWin s.runLen) (hring : s.hist.Wf s.cfg.historySize)
    (hbits : s.cfg.copyBits.get r ≤ s.cursor.bitsLeft s.runLen) (hdist : s.distanceAt r len ≤ s.hist.count) :
    ∃ t, copyInstr r len s = .ok () t ∧ CopyDone r len s t := by
  obtain ⟨-, -, -, -, -, -, hwide, -⟩ := Cfg.valid_bounds hv
  obtain ⟨hd1, hd2⟩ := State.distanceAt_domain (r := r) hv hlen
  obtain ⟨c, hcode, hval, hpos, hw'⟩ := hw.nextCode (hwide r) hbits
  obtain ⟨h, hcopy, hhist⟩ :=
    copyRepeatsTheHistory s.cfg.historySize len (s.distanceAt r len) s.hist hd1 hd2 hdist hring
  exact ⟨_, copyInstr_eq_ok.mpr ⟨_, c, h, hcode, hcopy, rfl⟩, rfl, hpos, hw', hval, rfl, hhist⟩

/-- A copy with its bits there and a legal distance is done. -/
theorem runCopy_completes (hv : s.cfg.valid = true) (hlen : s.cfg.copyLengthOk len = true)
    (hw : s.cursor.Wf s.inWin s.runLen) (hring : s.hist.Wf s.cfg.historySize)
    (hbits : s.cfg.copyBits.get r ≤ s.cursor.bitsLeft s.runLen) (hdist : s.distanceAt r len ≤ s.hist.count) :
    ∃ t, runCopy r len s = .next t ∧ CopyDone r len s t := by
  obtain ⟨t, ht, hdone⟩ := copyInstr_completes hv hlen hw hring hbits hdist
  exact ⟨t, by rw [runCopy, ht, conclude_ok], hdone⟩

/-- A copy with its bits there and a distance above `count` takes `InvalidDistance` (R163). -/
theorem runCopy_tooFar (hv : s.cfg.valid = true) (hlen : s.cfg.copyLengthOk len = true)
    (hw : s.cursor.Wf s.inWin s.runLen) (hbits : s.cfg.copyBits.get r ≤ s.cursor.bitsLeft s.runLen)
    (hdist : s.hist.count < s.distanceAt r len) :
    ∃ t, runCopy r len s = .next t ∧ ErrorTaken .invalidDistance s t := by
  obtain ⟨-, -, -, -, -, -, hwide, -⟩ := Cfg.valid_bounds hv
  obtain ⟨hd1, hd2⟩ := State.distanceAt_domain (r := r) hv hlen
  obtain ⟨c, hcode, -⟩ := hw.nextCode (hwide r) hbits
  have hcopy := applyCopy_eq_raise (length := len).mpr ⟨hd1, hd2, hdist, rfl, rfl⟩
  have h := copyInstr_eq_raise.mpr (.inr ⟨_, c, _, hcode, hcopy, rfl⟩)
  exact ⟨_, by rw [runCopy, h, conclude_raise], errorTaken_abort rfl⟩

/-- A copy whose extra bits are missing takes `UnexpectedEndOfStream` before its distance is formed (R166 (2)). -/
theorem runCopy_cutShort (hv : s.cfg.valid = true) (hw : s.cursor.Wf s.inWin s.runLen)
    (hbits : s.cursor.bitsLeft s.runLen < s.cfg.copyBits.get r) :
    ∃ t, runCopy r len s = .next t ∧ ErrorTaken .unexpectedEndOfStream s t := by
  obtain ⟨-, -, -, -, -, -, hwide, -⟩ := Cfg.valid_bounds hv
  obtain ⟨c, hcode, -⟩ := nextCodeEndOfStream s.inWin s.runLen _ s.cursor hw (hwide r) hbits
  have h := copyInstr_eq_raise (length := len).mpr (.inl ⟨c, hcode, rfl⟩)
  exact ⟨_, by rw [runCopy, h, conclude_raise], errorTaken_abort rfl⟩

end Copy

/-- A copy row is well formed exactly when its length is expressible (R73). -/
theorem copyLengthOk_of_wf {i : Instr} {r : CopyRange} {len : Nat} {c : Cfg} (h : i.toOp = .copy r len)
    (hwf : i.wf c = true) : c.copyLengthOk len = true := by
  rwa [Instr.wf, h] at hwf

/-- Settles O32: a copy row is the common rule at its range and length. -/
theorem copyRowsComplete : Obligations.CopyRowsComplete := by
  intro i r len s hop hv hwf hw hring hbits hdist
  rw [exec_copy hop]
  exact runCopy_completes hv (copyLengthOk_of_wf hop hwf) hw hring hbits hdist

/-- Settles O33: a copy row is the common rule at its range and length. -/
theorem copyTooFarTakesInvalidDistance : Obligations.CopyTooFarTakesInvalidDistance := by
  intro i r len s hop hv hwf hw hbits hdist
  rw [exec_copy hop]
  exact runCopy_tooFar hv (copyLengthOk_of_wf hop hwf) hw hbits hdist

/-- Settles O34: a copy row is the common rule at its range and length. -/
theorem copyCutShortTakesEndOfStream : Obligations.CopyCutShortTakesEndOfStream := by
  intro i r len s hop hv hw hbits
  rw [exec_copy hop]
  exact runCopy_cutShort hv hw hbits

/-- Settles O60: a copy without a row runs by the common rule (log 10). -/
theorem offTableCopyFollowsTheCommonRule : Obligations.OffTableCopyFollowsTheCommonRule := by
  intro r len s hv hlen hw
  exact ⟨fun hring hbits hdist => runCopy_completes hv hlen hw hring hbits hdist, runCopy_tooFar hv hlen hw,
    runCopy_cutShort hv hw⟩

end Sys2Proof.Machine
end

