-- ==== Sys2Proof/Proofs/InitialTree.lean ====
section
/-!
PROOFS. The tree of the default `HUFF_INIT` (R104): its cells, that it is full, and its codes (R105). `RESCALE`
(R113).
-/

namespace Sys2Proof.Machine

/-! ### The initial tree -/

theorem huffInit_children (c : Cfg) (m : HuffmanModel) {n : Nat} (h1 : 1 ≤ n) (h2 : n ≤ c.maxChar) :
    (huffInit c m).leftOf n = 2 * n ∧ (huffInit c m).rightOf n = 2 * n + 1 := by
  rw [leftOf_huffInit, rightOf_huffInit, if_pos ⟨h1, h2⟩, if_pos ⟨h1, h2⟩]
  exact ⟨rfl, rfl⟩

theorem huffInit_root (c : Cfg) (m : HuffmanModel) : (huffInit c m).upOf ROOT = NIL := by
  rw [upOf_huffInit, if_neg (fun h => absurd h.1 (by decide))]

theorem huffInit_parent (c : Cfg) (m : HuffmanModel) {n : Nat} (h1 : 2 ≤ n) (h2 : n ≤ c.twiceMax) :
    (huffInit c m).upOf n = n / 2 := by
  rw [upOf_huffInit, if_pos ⟨h1, h2⟩]

theorem huffInit_weight (c : Cfg) (m : HuffmanModel) {n : Nat} (h1 : 1 ≤ n) (h2 : n ≤ c.twiceMax) :
    (huffInit c m).weight.get n = some 1 := (Cells.get_upTo _ _ _).trans (if_pos ⟨h1, h2⟩)

/-- Settles O13: the four arrays of the heap order. -/
theorem initialTreeCells : Obligations.InitialTreeCells := fun c m =>
  ⟨fun _ h2 h1 => huffInit_children c m h1 h2, huffInit_root c m, fun _ h2 h1 => huffInit_parent c m h1 h2,
    fun _ h2 h1 => huffInit_weight c m h1 h2⟩

/-- In heap order every node reaches the root by halving. -/
theorem huffInit_reaches (c : Cfg) (m : HuffmanModel) (n : Nat) (h1 : 1 ≤ n) (h2 : n ≤ c.twiceMax) :
    ∃ k, (huffInit c m).upOf^[k] n = ROOT := by
  induction n using Nat.strongRecOn with
  | _ n ih =>
    obtain rfl | hn := Nat.eq_or_lt_of_le h1
    · exact ⟨0, rfl⟩
    · obtain ⟨k, hk⟩ := ih (n / 2) (by omega) (by omega) (by omega)
      exact ⟨k + 1, by rw [Function.iterate_succ_apply, huffInit_parent c m hn h2]; exact hk⟩

/-- The initial tree is full under every configuration (R27, R115). -/
theorem huffInit_fullTree (c : Cfg) (m : HuffmanModel) : FullTree c (huffInit c m) where
  weights n h2 h1 := by rw [huffInit_weight c m h1 h2]; rfl
  root := huffInit_root c m
  children n h2 h1 bit := by
    obtain ⟨hl, hr⟩ := huffInit_children c m h1 h2
    have htwice : c.twiceMax = 2 * c.maxChar + 1 := rfl
    have hroot : ROOT = 1 := rfl
    cases bit
    · rw [childOf_false, hl, huffInit_parent c m (by omega) (by omega)]
      omega
    · rw [childOf_true, hr, huffInit_parent c m (by omega) (by omega)]
      omega
  distinct n h2 h1 := by
    obtain ⟨hl, hr⟩ := huffInit_children c m h1 h2
    omega
  parents n h2 h1 := by
    have htwice : c.twiceMax = 2 * c.maxChar + 1 := rfl
    have hroot : ROOT = 1 := rfl
    have hup : (huffInit c m).upOf n = n / 2 := huffInit_parent c m h1 h2
    obtain ⟨hl, hr⟩ := huffInit_children c m (n := n / 2) (by omega) (by omega)
    rw [hup, hl, hr]
    omega
  reaches n h2 h1 := huffInit_reaches c m n h1 h2

/-- Settles O14: every weight is 1, which is below the ceiling (R8 (g)). -/
theorem initialTreeIsFull : Obligations.InitialTreeIsFull := by
  intro c m hc
  obtain ⟨-, -, -, -, -, -, -, -, hfreq⟩ := Cfg.valid_bounds hc
  refine ⟨huffInit_fullTree c m, fun n h2 h1 => ?_, fun n h2 h1 => ?_⟩
  · rw [weightOf_huffInit c m n h1 h2]
  · rw [weightOf_huffInit c m n (Nat.le_trans (Nat.succ_pos _) h1) h2]
    exact hfreq

/-! ### The initial codes -/

/-- The numeral of a number above 1 ends with its parity behind the numeral of its half. -/
theorem bits_eq_cons_half {n : Nat} (h : 1 ≤ n) : Nat.bits n = (n % 2 == 1) :: Nat.bits (n / 2) := by
  obtain hp | hp := Nat.mod_two_eq_zero_or_one n
  · obtain ⟨k, rfl⟩ : ∃ k, n = 2 * k := ⟨n / 2, by omega⟩
    rw [Nat.bit0_bits k (by omega)]
    simp
  · obtain ⟨k, rfl⟩ : ∃ k, n = 2 * k + 1 := ⟨n / 2, by omega⟩
    rw [Nat.bit1_bits k, hp, show (2 * k + 1) / 2 = k by omega]
    rfl

/-- In heap order the climb from a node collects the binary digits of its index, the last one first. -/
theorem codeLoop_huffInit (c : Cfg) (m : HuffmanModel) (f n : Nat) (acc : List Bool) (h1 : 1 ≤ n)
    (h2 : n ≤ c.twiceMax) (hf : n ≤ f) :
    codeLoop (huffInit c m) f n acc = (Nat.bits n).dropLast.reverse ++ acc := by
  induction f generalizing n acc with
  | zero => omega
  | succ f ih =>
    obtain rfl | hn := Nat.eq_or_lt_of_le h1
    · rw [codeLoop, if_pos (.inl rfl)]
      rfl
    · have htwice : c.twiceMax = 2 * c.maxChar + 1 := rfl
      have hroot : ROOT = 1 := rfl
      have hup : (huffInit c m).upOf n = n / 2 := huffInit_parent c m hn h2
      have hright := (huffInit_children c m (n := n / 2) (by omega) (by omega)).2
      have hbit : (2 * (n / 2) + 1 == n) = (n % 2 == 1) := by
        rw [Bool.eq_iff_iff, beq_iff_eq, beq_iff_eq]
        omega
      have hhalf : Nat.bits (n / 2) ≠ [] := by rw [bits_eq_cons_half (by omega)]; exact List.cons_ne_nil _ _
      rw [codeLoop, if_neg (by simp only [NIL]; omega), hup, hright, hbit,
        ih (n / 2) _ (by omega) (by omega) (by omega), bits_eq_cons_half h1, List.dropLast_cons_of_ne_nil hhalf,
        List.reverse_cons, List.append_assoc, List.singleton_append]

/-- Settles O6: the climb from the leaf of the symbol. -/
theorem initialCodesAreNumerals : Obligations.InitialCodesAreNumerals := by
  intro c m sym _ hsym
  have hleaf : sym + c.successMax ≤ c.twiceMax := by simp only [Cfg.successMax, Cfg.twiceMax]; omega
  have hpos : 1 ≤ sym + c.successMax := Nat.le_add_left 1 (sym + c.maxChar)
  rw [symbolCode, codeLoop_huffInit c m _ _ [] hpos hleaf hleaf, List.append_nil]

/-! ### `RESCALE` -/

/-- Settles O17: the cells of `RESCALE`, with the halving as a division. -/
theorem rescaleHalvesEveryWeight : Obligations.RescaleHalvesEveryWeight := by
  intro c m
  refine ⟨fun h => ⟨fun n w hw => ?_, ?_⟩, fun h => ?_⟩
  · rw [rescale_weight, if_pos h, hw, Option.map_some, halve_eq]
  · obtain ⟨hl, hr, hu⟩ := rescale_links c m
    exact ⟨hl, hr, hu⟩
  · rw [rescale, if_neg (Nat.not_le.mpr h)]

end Sys2Proof.Machine
end

