-- ==== Sys2Proof/Proofs/HostPort.lean ====
section
/-!
PROOFS. What the host sees and does: the reads of its registers and windows (R40 to R47), its writes outside and
during a run (R186), and `START` (R152). The schedule of its transactions (log 7), and the state at reset.
-/

namespace Sys2Proof

/-- An entry of a table after a write of one. -/
theorem PerRange.get_set (t : PerRange) (r q : CopyRange) (v : Nat) :
    (t.set r v).get q = if q = r then v else t.get q := by
  cases r <;> cases q <;> rfl

theorem PerRange.get_set_same (t : PerRange) (r : CopyRange) (v : Nat) : (t.set r v).get r = v := by
  rw [PerRange.get_set, if_pos rfl]

theorem PerRange.get_set_ne (t : PerRange) {r q : CopyRange} (v : Nat) (h : q ≠ r) : (t.set r v).get q = t.get q := by
  rw [PerRange.get_set, if_neg h]

namespace Machine

/-! ### Reads -/

/-- What a read of `ERRCODE` returns (R43, R47). -/
theorem hostRead_errcode_data (s : State) :
    (hostRead .errcode s).hostData
      = if s.status = .busy then Config.freeNat .readErrcode s.freeCount % 4 else (errcodeBits s.errcode).toNat := by
  rw [hostRead]
  split <;> rfl

/-- What a read of `OUT_LEN` returns (R45, R47). -/
theorem hostRead_outLen_data (s : State) :
    (hostRead .outLen s).hostData
      = if s.status = .busy then Config.freeNat .readOutLen s.freeCount else s.outLen := by
  rw [hostRead]
  split <;> rfl

/-- Settles O38: the numbers of R42 and R43. -/
theorem statusAndErrcodeNumbers : Obligations.StatusAndErrcodeNumbers := by
  intro s
  constructor
  · rw [hostRead, State.withHostData_hostData]
    cases s.status <;> rfl
  · intro h
    rw [hostRead_errcode_data, if_neg h]
    cases s.errcode with
    | none => rfl
    | some e => cases e <;> rfl

/-- Settles O39: outside `BUSY` the read of `OUT_LEN` is of the register; when `DONE` the window holds `OUT`. -/
theorem doneShowsTheOutput : Obligations.DoneShowsTheOutput := by
  intro s h
  have hbusy : s.status ≠ .busy := by rw [h]; decide
  refine ⟨by rw [hostRead_outLen_data, if_neg hbusy], fun k v hk => ?_⟩
  simp only [hostReadOut, if_pos h, hk, State.withHostData_hostData]

/-! ### Register writes -/

/-- A register other than `IN_LEN` reads the same whatever `IN_LEN` holds. -/
theorem hostRead_inLen_ne {other : HostReg} (h : other ≠ .inLen) (s : State) (v : Nat) :
    (hostRead other { s with inLen := v }).hostData = (hostRead other s).hostData := by
  cases other with
  | inLen => exact absurd rfl h
  | errcode => rw [hostRead_errcode_data, hostRead_errcode_data]
  | outLen => rw [hostRead_outLen_data, hostRead_outLen_data]
  | _ => rfl

/-- A write of a `CFG_*` register leaves what every other register reads. -/
theorem hostRead_writeCfg_ne {reg other : HostReg} (h : other ≠ reg) (s : State) (v : Nat) :
    (hostRead other { s with cfgRegs := writeCfg reg v s.cfgRegs }).hostData = (hostRead other s).hostData := by
  cases other with
  | errcode => rw [hostRead_errcode_data, hostRead_errcode_data]
  | outLen => rw [hostRead_outLen_data, hostRead_outLen_data]
  | cfgCopymin q =>
    cases reg with
    | cfgCopymin r => exact PerRange.get_set_ne _ v fun e => h (congrArg HostReg.cfgCopymin e)
    | _ => rfl
  | cfgCopymax q =>
    cases reg with
    | cfgCopymax r => exact PerRange.get_set_ne _ v fun e => h (congrArg HostReg.cfgCopymax e)
    | _ => rfl
  | cfgCopybits q =>
    cases reg with
    | cfgCopybits r => exact PerRange.get_set_ne _ v fun e => h (congrArg HostReg.cfgCopybits e)
    | _ => rfl
  | _ => cases reg <;> first | rfl | exact absurd rfl h

/-- A register that holds part of the configuration (R46). -/
def HostReg.isCfg : HostReg → Bool
  | .ctrl | .status | .errcode | .inLen | .outLen => false
  | _ => true

/-- A write of a `CFG_*` register changes the configuration registers only. -/
theorem hostWrite_cfg {reg : HostReg} (h : reg.isCfg = true) (hp : HuffParams) (v : Nat) (s : State) :
    hostWrite hp reg v s = .next { s with cfgRegs := writeCfg reg v s.cfgRegs } := by
  cases reg with
  | ctrl | status | errcode | inLen | outLen => cases h
  | _ => rfl

/-- A `CFG_*` register reads back what was written. -/
theorem hostRead_writeCfg_same {reg : HostReg} (h : reg.isCfg = true) (s : State) (v : Nat) :
    (hostRead reg { s with cfgRegs := writeCfg reg v s.cfgRegs }).hostData = v := by
  cases reg with
  | cfgCopymin r => exact PerRange.get_set_same _ r v
  | cfgCopymax r => exact PerRange.get_set_same _ r v
  | cfgCopybits r => exact PerRange.get_set_same _ r v
  | ctrl | status | errcode | inLen | outLen => cases h
  | _ => rfl

/-- Settles O40: the register is `IN_LEN` or holds part of the configuration. -/
theorem hostRegistersReadBack : Obligations.HostRegistersReadBack := by
  intro hp reg v s hctrl hstatus herrcode houtLen
  obtain rfl | hcfg : reg = .inLen ∨ reg.isCfg = true := by
    cases reg with
    | ctrl => exact absurd rfl hctrl
    | status => exact absurd rfl hstatus
    | errcode => exact absurd rfl herrcode
    | outLen => exact absurd rfl houtLen
    | inLen => exact .inl rfl
    | _ => exact .inr rfl
  · exact ⟨{ s with inLen := v }, rfl, rfl, rfl, fun other hne => hostRead_inLen_ne hne s v⟩
  · exact ⟨_, hostWrite_cfg hcfg hp v s, rfl, hostRead_writeCfg_same hcfg s v,
      fun other hne => hostRead_writeCfg_ne hne s v⟩

/-- Settles O41: a read-only register has no write, and `CTRL` acts on bit 0 only. -/
theorem readOnlyRegistersIgnoreWrites : Obligations.ReadOnlyRegistersIgnoreWrites := by
  intro hp v s
  refine ⟨rfl, rfl, rfl, fun h => writeCtrl_eq_next.mpr (.inr ⟨fun hstart => ?_, rfl⟩), rfl⟩
  exact absurd (h.symm.trans hstart.1) Bool.false_ne_true

/-- Settles O42: the write is one write of the window's memory. -/
theorem hostWritesOneInputByte : Obligations.HostWritesOneInputByte := by
  intro hp index v s h
  exact ⟨_, hostWriteIn_eq_next.mpr ⟨h, rfl⟩, rfl, Memory.read_write_same s.inWin index v,
    fun a ha => Memory.read_write_ne s.inWin index a v ha⟩

/-! ### `START` -/

/-- Settles O43: the state at the start of a run, whose default tree is that of R104. -/
theorem startBeginsAFreshRun : Obligations.StartBeginsAFreshRun := by
  intro hp s v hbit hbusy hvalid
  refine ⟨s.started hp, writeCtrl_eq_next.mpr (.inl ⟨hbit, hbusy, hvalid, rfl⟩), rfl, rfl, rfl, rfl, rfl, rfl, rfl, rfl,
    fun _ => rfl, rfl, rfl, rfl, fun hdefault => ?_, rfl, rfl, rfl⟩
  obtain ⟨hfull, hpositive, -⟩ := initialTreeIsFull s.cfgRegs s.model hvalid
  rw [hdefault]
  exact ⟨hfull, hpositive⟩

/-- Settles O44: `START` tests the configuration first (R152 (1)). -/
theorem startRefusesInvalidConfiguration : Obligations.StartRefusesInvalidConfiguration := by
  intro hp s v hbit hbusy hinvalid
  have hnot : ¬ s.cfgRegs.valid = true := by rw [hinvalid]; decide
  change writeCtrl hp v s = _
  rw [writeCtrl, if_pos ⟨hbit, hbusy⟩, startRun, if_neg hnot]

/-! ### During a run -/

/-- While `BUSY` a write of `CTRL` changes nothing (R41). -/
theorem writeCtrl_busy {s : State} (h : s.status = .busy) (hp : HuffParams) (v : Nat) : writeCtrl hp v s = .next s :=
  writeCtrl_eq_next.mpr (.inr ⟨fun hstart => hstart.2 h, rfl⟩)

/-- While `BUSY` a register write answers a next state. -/
theorem hostWrite_busy {s : State} (h : s.status = .busy) (hp : HuffParams) (reg : HostReg) (v : Nat) :
    ∃ t, hostWrite hp reg v s = .next t := by
  cases reg with
  | ctrl => exact ⟨s, writeCtrl_busy h hp v⟩
  | _ => exact ⟨_, rfl⟩

/-- Every transaction of the host during a run but a write of the window answers a next state. -/
theorem hostAccess_busy_next {s : State} (h : s.status = .busy) (hp : HuffParams) {op : HostOp}
    (hop : ∀ i v, op ≠ .writeIn i v) : ∃ t, hostAccess hp op s = .next t := by
  cases op with
  | write reg v => exact hostWrite_busy h hp reg v
  | read reg => exact ⟨_, rfl⟩
  | writeIn i v => exact absurd rfl (hop i v)
  | readOut i => exact ⟨_, rfl⟩
  | wait => exact ⟨_, rfl⟩

/-- Settles O45: of the five things that a transaction can do, `START` and the write of a byte need a state outside a
run. -/
theorem hostCannotReachARun : Obligations.HostCannotReachARun := by
  intro hp op s hbusy
  refine ⟨fun i v hop => ?_, fun hop => ?_⟩
  · rw [hop]
    exact if_pos hbusy
  · obtain ⟨t, ht⟩ := hostAccess_busy_next hbusy hp hop
    refine ⟨t, ht, ?_, fun ⟨v, hctrl⟩ => ?_⟩
    · obtain ⟨v, -, -, hidle, -⟩ | ⟨v, rfl⟩ | ⟨c, rfl⟩ | ⟨v, k, rfl⟩ | ⟨i, v, -, hidle, -⟩ := hostAccess_eq_next ht
      · exact absurd hbusy hidle
      · rfl
      · rfl
      · rfl
      · exact absurd hbusy hidle
    · rw [hctrl] at ht
      exact (Host.Outcome.next.inj ((writeCtrl_busy hbusy hp v).symm.trans ht)).symm

/-! ### The schedule -/

/-- Settles O48: the head of the queue decides who moves. -/
theorem stepTakesTheHostTransaction : Obligations.StepTakesTheHostTransaction := by
  intro hp s op q hq
  refine ⟨fun hne => ?_, fun hwait => ?_⟩
  · rw [stepWith, hq]
    cases op with
    | wait => exact absurd rfl hne
    | _ => rfl
  · rw [stepWith, hq, hwait]

/-- With no transaction pending the engine moves. -/
theorem stepWith_of_queue_nil {s : State} (h : s.hostQueue = []) (hp : HuffParams) :
    stepWith hp s = engineStep hp s := by
  rw [stepWith, h]

/-- Settles O49: the engine moves, and outside a run it holds the state. -/
theorem idleBlockHoldsItsState : Obligations.IdleBlockHoldsItsState := by
  intro hp s hidle hq
  rw [stepWith_of_queue_nil hq, engineStep_idle hidle]

/-- Settles O52: at reset no run is in progress, and both memories list nothing. -/
theorem invariantHoldsAtReset : Obligations.InvariantHoldsAtReset := by
  intro Good
  obtain ⟨hin, hring⟩ := reset_memories_wf
  exact ⟨hin, hring, nofun, ⟨nofun, fun _ => rfl⟩, nofun, fun _ => rfl⟩

end Machine
end Sys2Proof
end

