-- ==== Sys2Proof/Proofs/Propagate.lean ====
section
/-!
PROOFS. `PROPAGATE` on a full tree (R111): every proper ancestor becomes the sum of its children, and every sum that
stood stays.
-/

namespace Sys2Proof.Machine

/-- Node `n` weighs the sum of its two children (R111). -/
def HuffmanModel.Summed (m : HuffmanModel) (n : Nat) : Prop :=
  m.weightOf n = m.weightOf (m.leftOf n) + m.weightOf (m.rightOf n)

/-- A node that is summed weighs at least what each child does. -/
theorem HuffmanModel.Summed.child_le {m : HuffmanModel} {n : Nat} (h : m.Summed n) (bit : Bool) :
    m.weightOf (m.childOf bit n) ≤ m.weightOf n := by
  rw [h]
  cases bit
  · exact Nat.le_add_right _ _
  · exact Nat.le_add_left _ _

/-- What is summed above a node is summed above its parent. -/
theorem HuffmanModel.SummedAbove.up {m : HuffmanModel} {x : Nat} (h : m.SummedAbove x) : m.SummedAbove (m.upOf x) := by
  intro k hk
  exact h (k + 1) hk

/-- Nothing is above the root. -/
theorem summedAbove_root {m : HuffmanModel} (h : m.upOf ROOT = NIL) : m.SummedAbove ROOT := by
  intro k hk
  cases k with
  | zero => exact absurd hk (Nat.lt_irrefl _)
  | succ k => rw [Function.iterate_succ_apply, h, iterate_upOf_zero] at hk; exact absurd hk (Nat.not_lt_zero _)

theorem weightOf_congr {m m' : HuffmanModel} {n : Nat} (h : m'.weight.get n = m.weight.get n) :
    m'.weightOf n = m.weightOf n := by
  rw [HuffmanModel.weightOf, h, HuffmanModel.weightOf]

/-- A sum at a node stands as long as no weight that it speaks of is written. -/
theorem HuffmanModel.Summed.congr {m m' : HuffmanModel} {n : Nat} (h : m.Summed n) (hl : SameLinks m m')
    (hn : m'.weight.get n = m.weight.get n)
    (hc : ∀ bit, m'.weight.get (m.childOf bit n) = m.weight.get (m.childOf bit n)) : m'.Summed n := by
  rw [HuffmanModel.Summed, hl.leftOf, hl.rightOf, weightOf_congr hn]
  exact h.trans (congrArg₂ (· + ·) (weightOf_congr (hc false)).symm (weightOf_congr (hc true)).symm)

namespace FullTree

variable {cfg : Cfg} {m m' : HuffmanModel}

/-- The parent of any node, of the root too, is no leaf. -/
theorem upOf_le (h : FullTree cfg m) {n : Nat} (hn : n ≤ cfg.twiceMax) : m.upOf n ≤ cfg.maxChar := by
  obtain rfl | rfl | hlt : n = 0 ∨ n = ROOT ∨ ROOT < n := by simp only [ROOT]; omega
  · rw [upOf_zero]; exact Nat.zero_le _
  · rw [h.root]; exact Nat.zero_le _
  · exact (h.parent_internal hlt hn).2

/-- Every ancestor of a node is a node, or `NIL`. -/
theorem iterate_upOf_le (h : FullTree cfg m) {x : Nat} (hx : x ≤ cfg.twiceMax) (k : Nat) :
    m.upOf^[k] x ≤ cfg.twiceMax := by
  induction k with
  | zero => exact hx
  | succ k ih =>
    rw [Function.iterate_succ_apply']
    exact (h.upOf_le ih).trans (by simp only [Cfg.twiceMax]; omega)

/-- No proper ancestor is a leaf. -/
theorem proper_ancestor_le (h : FullTree cfg m) {x : Nat} (hx : x ≤ cfg.twiceMax) (k : Nat) :
    m.upOf^[k + 1] x ≤ cfg.maxChar := by
  rw [Function.iterate_succ_apply']
  exact h.upOf_le (h.iterate_upOf_le hx k)

/-- No child of a node is its proper ancestor. -/
theorem child_not_ancestor (h : FullTree cfg m) {n : Nat} (h1 : 1 ≤ n) (h2 : n ≤ cfg.maxChar) (bit : Bool) (k : Nat) :
    m.upOf^[k + 1] n ≠ m.childOf bit n := by
  intro e
  have hup := (h.children n h2 h1 bit).2.2
  refine h.acyclic (n := n) h1 (h2.trans (by simp only [Cfg.twiceMax]; omega)) (k + 1) ?_
  rw [Function.iterate_succ_apply', e, hup]

/-- A node is a child of its parent. -/
theorem childOf_upOf (h : FullTree cfg m) {n : Nat} (h1 : ROOT < n) (h2 : n ≤ cfg.twiceMax) :
    ∃ bit, m.childOf bit (m.upOf n) = n := by
  obtain ⟨-, -, hl | hr⟩ := h.parents n h2 h1
  · exact ⟨false, hl⟩
  · exact ⟨true, hr⟩

/-- A node with a parent is below the root. -/
theorem root_lt_of_upOf (h : FullTree cfg m) {n : Nat} (hn : 1 ≤ m.upOf n) : ROOT < n := by
  obtain rfl | rfl | hlt : n = 0 ∨ n = ROOT ∨ ROOT < n := by simp only [ROOT]; omega
  · rw [upOf_zero] at hn; exact absurd hn (by decide)
  · rw [h.root] at hn; exact absurd hn (by decide)
  · exact hlt

/-- A node with a proper ancestor is below the root. -/
theorem root_lt_of_iterate (h : FullTree cfg m) {n k : Nat} (hk : 1 ≤ m.upOf^[k + 1] n) : ROOT < n := by
  refine h.root_lt_of_upOf (Nat.pos_of_ne_zero fun h0 => ?_)
  rw [Function.iterate_succ_apply, h0, iterate_upOf_zero] at hk
  exact absurd hk (by decide)

/-- Where the ancestors are summed, none weighs less than the node (R116 (b)). -/
theorem weightOf_le_ancestor (h : FullTree cfg m) {x : Nat} (hx : x ≤ cfg.twiceMax) (hs : m.SummedAbove x) (k : Nat)
    (hk : ROOT ≤ m.upOf^[k] x) : m.weightOf x ≤ m.weightOf (m.upOf^[k] x) := by
  induction k with
  | zero => exact Nat.le_refl _
  | succ k ih =>
    have hlt : ROOT < m.upOf^[k] x := h.root_lt_of_upOf (by rw [← Function.iterate_succ_apply' m.upOf]; exact hk)
    obtain ⟨bit, hbit⟩ := h.childOf_upOf hlt (h.iterate_upOf_le hx k)
    have hchild := HuffmanModel.Summed.child_le (hs k hlt) bit
    rw [Function.iterate_succ_apply', hbit, ← Function.iterate_succ_apply' m.upOf] at hchild
    exact (ih (Nat.le_of_lt hlt)).trans hchild

/-- Where the ancestors are summed, the root weighs at least what the node does. -/
theorem weightOf_le_root (h : FullTree cfg m) {x : Nat} (h1 : 1 ≤ x) (hx : x ≤ cfg.twiceMax) (hs : m.SummedAbove x) :
    m.weightOf x ≤ m.weightOf ROOT := by
  obtain ⟨k, hk⟩ := h.reaches x hx h1
  rw [← hk]
  exact h.weightOf_le_ancestor hx hs k (by rw [hk])

/-- One pass of `PROPAGATE` keeps the tree full. -/
theorem propagateStep (h : FullTree cfg m) : FullTree cfg (Machine.propagateStep m) :=
  h.of_sameLinks (propagateStep_links m) fun n hn => by
    rw [propagateStep_weight, Cells.get_set]
    split
    · rfl
    · exact hn

/-- No child of a node is the node. -/
theorem child_ne (h : FullTree cfg m) {n : Nat} (h1 : 1 ≤ n) (h2 : n ≤ cfg.maxChar) (bit : Bool) :
    m.childOf bit n ≠ n := by
  intro e
  have hup := (h.children n h2 h1 bit).2.2
  rw [e] at hup
  exact h.acyclic h1 (h2.trans (by simp only [Cfg.twiceMax]; omega)) 0 hup

/-- The pass from `x` leaves the parent of `x` as the sum of its children. -/
theorem propagateStep_summed (h : FullTree cfg m) (h1 : ROOT < m.x) (h2 : m.x ≤ cfg.twiceMax) :
    (Machine.propagateStep m).Summed (m.upOf m.x) := by
  obtain ⟨hp1, hp2⟩ := h.parent_internal h1 h2
  have hw : ∀ n, (Machine.propagateStep m).weightOf n
      = if n = m.upOf m.x ∧ n ≠ 0 then m.weightOf (m.leftOf (m.upOf m.x)) + m.weightOf (m.rightOf (m.upOf m.x))
        else m.weightOf n := weightOf_setWeight m _ _
  have hchild : ∀ bit, (Machine.propagateStep m).weightOf (m.childOf bit (m.upOf m.x))
      = m.weightOf (m.childOf bit (m.upOf m.x)) := fun bit => by
    rw [hw, if_neg fun e => h.child_ne hp1 hp2 bit e.1]
  rw [HuffmanModel.Summed, (propagateStep_links m).leftOf, (propagateStep_links m).rightOf, hw, if_pos ⟨rfl, by omega⟩]
  exact congrArg₂ (· + ·) (hchild false).symm (hchild true).symm

/-- The loop of `PROPAGATE` leaves every proper ancestor of its start as the sum of its children: the pass that writes
an ancestor comes after those that write below it. -/
theorem propagateLoop_summed {f : Nat} (h : FullTree cfg m) (h1 : 1 ≤ m.x) (h2 : m.x ≤ cfg.twiceMax)
    (hl : propagateLoop f m = some m') : m'.SummedAbove m.x := by
  induction f generalizing m with
  | zero =>
    have hx : m.x = ROOT := by
      by_contra hx
      simp only [propagateLoop, if_neg hx] at hl
      cases hl
    rw [hx]
    exact summedAbove_root ((congrFun (propagateLoop_frame hl).1.upOf ROOT).trans h.root)
  | succ f ih =>
    by_cases hx : m.x = ROOT
    · rw [hx]
      exact summedAbove_root ((congrFun (propagateLoop_frame hl).1.upOf ROOT).trans h.root)
    · rw [propagateLoop_step hx] at hl
      have hlt : ROOT < m.x := lt_of_le_of_ne h1 (Ne.symm hx)
      obtain ⟨hp1, hp2⟩ := h.parent_internal hlt h2
      have hpT : m.upOf m.x ≤ cfg.twiceMax := hp2.trans (by simp only [Cfg.twiceMax]; omega)
      have hlinks := (propagateLoop_frame hl).1
      have hup : m'.upOf m.x = m.upOf m.x := congrFun hlinks.upOf m.x
      have habove : m'.SummedAbove (m.upOf m.x) := ih h.propagateStep hp1 hpT hl
      have hparent : m'.Summed (m.upOf m.x) := by
        refine (h.propagateStep_summed hlt h2).congr hlinks (propagateLoop_weight_other hl fun k => ?_)
          fun bit => propagateLoop_weight_other hl fun k => ?_
        · exact h.acyclic hp1 hpT k
        · exact h.child_not_ancestor hp1 hp2 bit k
      intro k hk
      cases k with
      | zero => rw [← hup] at hparent; exact hparent
      | succ k =>
        rw [Function.iterate_succ_apply, hup] at hk ⊢
        exact habove k hk

end FullTree

/-- What `PROPAGATE(x)` makes of a full tree (R111). -/
structure Propagated (cfg : Cfg) (x : Nat) (m m' : HuffmanModel) : Prop where
  links : SameLinks m m'
  full : FullTree cfg m'
  registers : m'.x = ROOT ∧ m'.a = m.a ∧ m'.b = m.b ∧ m'.ua = m.ua ∧ m'.uua = m.uua ∧ m'.nxt = m.nxt ∧ m'.n = m.n
  summed : m'.SummedAbove x
  others : ∀ n, (∀ k, m.upOf^[k + 1] x ≠ n) → m'.weight.get n = m.weight.get n

theorem FullTree.propagated {cfg : Cfg} {m : HuffmanModel} (h : FullTree cfg m) {x : Nat} (h1 : 1 ≤ x)
    (h2 : x ≤ cfg.twiceMax) : ∃ m', Machine.propagate cfg x m = some m' ∧ Propagated cfg x m m' := by
  obtain ⟨m', hm, hfull⟩ := h.propagate h1 h2
  have hx : FullTree cfg { m with x := x } := h.of_sameLinks ⟨rfl, rfl, rfl⟩ fun _ hn => hn
  obtain ⟨⟨hl, hr, hu⟩, hregisters⟩ := propagateLoop_frame hm
  exact ⟨m', hm, ⟨hl, hr, hu⟩, hfull, hregisters, hx.propagateLoop_summed h1 h2 hm,
    fun _ hn => propagateLoop_weight_other hm hn⟩

/-- Settles O15: the loop with a fuel above the depth of every node (R114). -/
theorem propagateSumsTheAncestors : Obligations.PropagateSumsTheAncestors := by
  intro c m x _ hfull h1 h2
  obtain ⟨m', hm, ⟨hl, hr, hu⟩, -, ⟨hx, ha, hb, hua, huua, hnxt, hn⟩, hsummed, hothers⟩ := hfull.propagated h1 h2
  exact ⟨m', hm, hl, hr, hu, hx, ha, hb, hua, huua, hnxt, hn, hsummed, hothers⟩

namespace Propagated

variable {cfg : Cfg} {m m' : HuffmanModel} {x : Nat}

/-- `PROPAGATE` writes no leaf. -/
theorem leaves (hp : Propagated cfg x m m') (h : FullTree cfg m) (hx : x ≤ cfg.twiceMax) (n : Nat)
    (hn : cfg.maxChar < n) : m'.weight.get n = m.weight.get n :=
  hp.others n fun k e => absurd (h.proper_ancestor_le hx k) (by omega)

/-- An ancestor of `x` weighs at least what `x` does, and every other weight is as before. -/
theorem positive (hp : Propagated cfg x m m') (h : FullTree cfg m) (h1 : 1 ≤ x) (hx : x ≤ cfg.twiceMax)
    (hpos : PositiveWeights cfg m) : PositiveWeights cfg m' := by
  have hsame : m'.weightOf x = m.weightOf x := weightOf_congr (hp.others x fun k => h.acyclic h1 hx k)
  intro n hn hn1
  by_cases hanc : ∃ k, m.upOf^[k + 1] x = n
  · obtain ⟨k, rfl⟩ := hanc
    rw [← hp.links.upOf] at hn1 ⊢
    have hle := hp.full.weightOf_le_ancestor hx hp.summed (k + 1) hn1
    exact (hpos x hx h1).trans (hsame ▸ hle)
  · rw [weightOf_congr (hp.others n fun k e => hanc ⟨k, e⟩)]
    exact hpos n hn hn1

/-- A proper ancestor of `x` is the sum of its children. -/
theorem summed_ancestor (hp : Propagated cfg x m m') {k : Nat} (hk : 1 ≤ m.upOf^[k + 1] x) :
    m'.Summed (m.upOf^[k + 1] x) := by
  have hlt : ROOT < m'.upOf^[k] x :=
    hp.full.root_lt_of_upOf (by rw [← Function.iterate_succ_apply' m'.upOf, hp.links.upOf]; exact hk)
  rw [← hp.links.upOf]
  exact hp.summed k hlt

/-- A sum that stood before `PROPAGATE` stands after it: it is above `x`, or none of its weights was written, since
above a child of a node only the node and those above it lie. -/
theorem summed_at (hp : Propagated cfg x m m') (h : FullTree cfg m) {n : Nat} (hn1 : 1 ≤ n) (hn : n ≤ cfg.maxChar)
    (hs : m.Summed n) : m'.Summed n := by
  by_cases hanc : ∃ k, m.upOf^[k + 1] x = n
  · obtain ⟨k, rfl⟩ := hanc
    exact hp.summed_ancestor hn1
  · refine hs.congr hp.links (hp.others n fun k e => hanc ⟨k, e⟩) fun bit => hp.others _ fun k e => hanc ⟨k + 1, ?_⟩
    rw [Function.iterate_succ_apply', e, (h.children n hn hn1 bit).2.2]

end Propagated

end Sys2Proof.Machine
end

