-- ==== Sys2Proof/Proofs/Promote.lean ====
section
/-!
PROOFS. `PROMOTE` on a full tree (R112): one pass of its loop, and that the loop ends at the root. What `PROPAGATE`
and `PROMOTE` keep of the weights.
-/

namespace Sys2Proof.Machine

/-! ### What no operation of `UPDATE` loses -/

/-- What `PROPAGATE` and `PROMOTE` keep: the weights of the leaves, that weights are positive, and the sums above a
node. -/
structure WeightsKept (cfg : Cfg) (m m' : HuffmanModel) : Prop where
  leaves : ∀ n, cfg.maxChar < n → m'.weight.get n = m.weight.get n
  positive : PositiveWeights cfg m → PositiveWeights cfg m'
  summed : ∀ x ≤ cfg.twiceMax, m.SummedAbove x → m'.SummedAbove x

theorem WeightsKept.refl (cfg : Cfg) (m : HuffmanModel) : WeightsKept cfg m m :=
  ⟨fun _ _ => rfl, id, fun _ _ => id⟩

theorem WeightsKept.trans {cfg : Cfg} {m m' m'' : HuffmanModel} (h : WeightsKept cfg m m')
    (h' : WeightsKept cfg m' m'') : WeightsKept cfg m m'' :=
  ⟨fun n hn => (h'.leaves n hn).trans (h.leaves n hn), h'.positive ∘ h.positive,
    fun x hx => h'.summed x hx ∘ h.summed x hx⟩

/-- The working registers carry no weight. -/
theorem WeightsKept.of_arena {cfg : Cfg} {m m' : HuffmanModel} (h : m'.toArena = m.toArena) : WeightsKept cfg m m' where
  leaves n _ := by rw [h]
  positive hpos n hn hn1 := by rw [weightOf_arena h]; exact hpos n hn hn1
  summed x _ hs k hk := by
    rw [upOf_arena h] at hk ⊢
    rw [weightOf_arena h, leftOf_arena h, rightOf_arena h]
    exact hs k hk

/-- Siblings have the same ancestors. -/
theorem HuffmanModel.SummedAbove.sibling {m : HuffmanModel} {x y : Nat} (h : m.SummedAbove x) (hx : ROOT < x)
    (hup : m.upOf y = m.upOf x) : m.SummedAbove y := by
  intro k hk
  rw [Function.iterate_succ_apply, hup, ← Function.iterate_succ_apply]
  cases k with
  | zero => exact h 0 hx
  | succ k =>
    rw [Function.iterate_succ_apply, hup] at hk
    exact h (k + 1) hk

theorem FullTree.of_arena {cfg : Cfg} {m m' : HuffmanModel} (ht : FullTree cfg m) (h : m'.toArena = m.toArena) :
    FullTree cfg m' :=
  ht.of_sameLinks ⟨by rw [h], by rw [h], by rw [h]⟩ fun n hn => by rw [h]; exact hn

/-- `PROPAGATE` from a node keeps the weights in the sense of `WeightsKept`. -/
theorem Propagated.kept {cfg : Cfg} {m m' : HuffmanModel} {x : Nat} (hp : Propagated cfg x m m') (h : FullTree cfg m)
    (h1 : 1 ≤ x) (hx : x ≤ cfg.twiceMax) : WeightsKept cfg m m' where
  leaves := hp.leaves h hx
  positive := hp.positive h h1 hx
  summed y hy hs k hk := by
    rw [hp.links.upOf] at hk
    have hup := h.parent_internal hk (h.iterate_upOf_le hy k)
    rw [← Function.iterate_succ_apply' m.upOf] at hup
    have := hp.summed_at h hup.1 hup.2 (hs k hk)
    rw [← hp.links.upOf] at this
    exact this

/-! ### The exchange -/

namespace UncleOf

variable {cfg : Cfg} {m m1 : HuffmanModel}

/-- The exchange of a heavier node: the links of R112, propagated from the uncle. -/
theorem exchanged (h : UncleOf cfg m) (ht : FullTree cfg m) (hw : m.weightOf m.b < m.weightOf m.a) :
    ∃ m1, exchangeIfHeavier cfg m = some { m1 with a := m.b } ∧ Propagated cfg m.b (exchangeLinks m) m1 := by
  obtain ⟨-, -, hb, -⟩ := h.facts ht
  obtain ⟨m1, hp, hprop⟩ := (h.exchange ht).propagated (Nat.le_of_lt hb.1) hb.2
  obtain ⟨-, -, hb1, -⟩ := hprop.registers
  obtain ⟨-, -, hb2, -⟩ := exchangeLinks_frame m
  exact ⟨m1, exchangeIfHeavier_eq_some.mpr (.inl ⟨hw, m1, hp, by rw [hb1, hb2]⟩), hprop⟩

/-- A sum that stood before an exchange and its `PROPAGATE` stands after them: where a child link moved, the node is
above the uncle. -/
theorem summed_at (h : UncleOf cfg m) (ht : FullTree cfg m) (hp : Propagated cfg m.b (exchangeLinks m) m1) {n : Nat}
    (hn1 : 1 ≤ n) (hn : n ≤ cfg.maxChar) (hs : m.Summed n) : m1.Summed n := by
  obtain ⟨hua, huua, -, -, hbua, hba, -, -, hua_a, -⟩ := h.facts ht
  have hup_b : (exchangeLinks m).upOf^[1] m.b = m.ua := by
    rw [Function.iterate_one, h.up_exchange ht, if_neg hba, if_pos rfl]
  have hup_ua : (exchangeLinks m).upOf^[2] m.b = m.uua := by
    rw [Function.iterate_succ_apply', hup_b, h.up_exchange ht, if_neg hua_a, if_neg (Ne.symm hbua), h.uua_eq]
  by_cases e1 : n = m.ua
  · rw [e1, ← hup_b]
    exact hp.summed_ancestor (by rw [hup_b]; exact hua.1)
  · by_cases e2 : n = m.uua
    · rw [e2, ← hup_ua]
      exact hp.summed_ancestor (by rw [hup_ua]; exact huua.1)
    · have hchild : ∀ bit, (exchangeLinks m).childOf bit n = m.childOf bit n := fun bit => by
        rw [h.children_exchange ht, if_neg fun e => e2 e.1, if_neg fun e => e1 e.1]
      have hweight : (exchangeLinks m).weightOf = m.weightOf := by
        funext k
        exact weightOf_congr (by rw [(exchangeLinks_frame m).1])
      have hs' : (exchangeLinks m).Summed n := by
        rw [HuffmanModel.Summed, hweight, ← childOf_false, ← childOf_true, hchild, hchild]
        exact hs
      exact hp.summed_at (h.exchange ht) hn1 hn hs'

/-- Where all above `x` was summed, the parent of `x` after an exchange and its `PROPAGATE` is summed, and all above
that parent was: the parent is a new one only for `a`, which comes below its grandparent, and for `b`, which comes
below its sibling. -/
theorem parent_summed (h : UncleOf cfg m) (ht : FullTree cfg m) (hp : Propagated cfg m.b (exchangeLinks m) m1) {x : Nat}
    (h1 : ROOT < x) (h2 : x ≤ cfg.twiceMax) (hs : m.SummedAbove x) :
    m1.Summed (m1.upOf x) ∧ m.SummedAbove (m1.upOf x) := by
  obtain ⟨hua, huua, hb, hupb, -⟩ := h.facts ht
  have hup : m1.upOf x = if x = m.a then m.uua else if x = m.b then m.ua else m.upOf x := by
    rw [hp.links.upOf, h.up_exchange ht]
  by_cases ea : x = m.a
  · have hupx : m.upOf x = m.ua := ea ▸ h.ua_eq.symm
    have habove : m.SummedAbove m.uua := by rw [h.uua_eq, ← hupx]; exact hs.up.up
    have hparent : m.Summed m.uua := by
      rw [h.uua_eq, ← hupx]
      exact hs 1 (by rw [Function.iterate_one, hupx]; exact lt_of_le_of_ne hua.1 (Ne.symm h.ua_ne))
    rw [hup, if_pos ea]
    exact ⟨h.summed_at ht hp huua.1 huua.2 hparent, habove⟩
  · by_cases eb : x = m.b
    · have hparent : m1.Summed (m1.upOf x) := eb ▸ hp.summed 0 hb.1
      have habove : m.SummedAbove m.ua := hs.sibling h1 (by rw [eb, hupb, h.uua_eq])
      refine ⟨hparent, ?_⟩
      rw [hup, if_neg ea, if_pos eb]
      exact habove
    · obtain ⟨hp1, hp2⟩ := ht.parent_internal h1 h2
      rw [hup, if_neg ea, if_neg eb]
      exact ⟨h.summed_at ht hp hp1 hp2 (hs 0 h1), hs.up⟩

/-- An exchange and its `PROPAGATE` keep the sums above a node, though its ancestors may be others. -/
theorem summedAbove (h : UncleOf cfg m) (ht : FullTree cfg m) (hp : Propagated cfg m.b (exchangeLinks m) m1) {x : Nat}
    (hx : x ≤ cfg.twiceMax) (hs : m.SummedAbove x) : m1.SummedAbove x := by
  intro k hk
  induction k generalizing x with
  | zero => exact (h.parent_summed ht hp hk hx hs).1
  | succ k ih =>
    have h1 : ROOT < x := hp.full.root_lt_of_iterate (Nat.le_of_lt hk)
    obtain ⟨-, habove⟩ := h.parent_summed ht hp h1 hx hs
    exact ih (hp.full.iterate_upOf_le hx 1) habove hk

/-- An exchange, made or not, keeps the weights in the sense of `WeightsKept`. -/
theorem kept (h : UncleOf cfg m) (ht : FullTree cfg m) (he : exchangeIfHeavier cfg m = some m1) :
    WeightsKept cfg m m1 := by
  by_cases hw : m.weightOf m.b < m.weightOf m.a
  · obtain ⟨m2, he2, hp⟩ := h.exchanged ht hw
    obtain ⟨-, -, hb, -⟩ := h.facts ht
    obtain ⟨hweight, -⟩ := exchangeLinks_frame m
    obtain rfl : m1 = { m2 with a := m.b } := Option.some.inj (he.symm.trans he2)
    have hp' : WeightsKept cfg m m2 :=
      { leaves := fun n hn => (hp.leaves (h.exchange ht) hb.2 n hn).trans (by rw [hweight])
        positive := fun hpos => hp.positive (h.exchange ht) (Nat.le_of_lt hb.1) hb.2 fun n hn hn1 => by
          rw [weightOf_congr (m := m) (m' := exchangeLinks m) (by rw [hweight])]
          exact hpos n hn hn1
        summed := fun x hx hs => h.summedAbove ht hp hx hs }
    exact hp'.trans (.of_arena rfl)
  · obtain ⟨hw', -⟩ | ⟨-, rfl⟩ := exchangeIfHeavier_eq_some.mp he
    · exact absurd hw' hw
    · exact .refl cfg m1

end UncleOf

/-! ### The loop of `PROMOTE` -/

/-- The registers at the head of a pass of `PROMOTE`'s loop: a node below a child of the root, and its parent. -/
structure Climbing (cfg : Cfg) (m : HuffmanModel) : Prop where
  node : ROOT < m.a ∧ m.a ≤ cfg.twiceMax
  ua_eq : m.ua = m.upOf m.a
  ua_ne : m.ua ≠ ROOT

namespace Climbing

variable {cfg : Cfg} {m : HuffmanModel}

theorem uncleOf (h : Climbing cfg m) : UncleOf cfg (locateUncle m) := ⟨h.node, h.ua_eq, h.ua_ne, rfl, rfl⟩

/-- The parent of the node is internal and below the root. -/
theorem parent (h : Climbing cfg m) (ht : FullTree cfg m) : ROOT < m.ua ∧ m.ua ≤ cfg.maxChar := by
  obtain ⟨h1, h2⟩ := ht.parent_internal h.node.1 h.node.2
  rw [← h.ua_eq] at h1 h2
  exact ⟨lt_of_le_of_ne h1 (Ne.symm h.ua_ne), h2⟩

/-- One pass of the loop: it goes on from the old `ua`, with the way up from there as it was. -/
theorem pass (h : Climbing cfg m) (ht : FullTree cfg m) :
    ∃ m1, exchangeIfHeavier cfg (locateUncle m) = some m1 ∧ FullTree cfg (climb m1) ∧ WeightsKept cfg m (climb m1) ∧
      (climb m1).a = m.ua ∧ (climb m1).ua = m.upOf m.ua ∧ ∀ j, (climb m1).upOf^[j] m.ua = m.upOf^[j] m.ua := by
  have hlocated : FullTree cfg (locateUncle m) := ht.of_arena rfl
  obtain ⟨m1, he, hfull, ha, hua, hiter⟩ := h.uncleOf.pass hlocated
  refine ⟨m1, he, hfull.of_arena rfl, ?_, ha, ?_, fun j => ?_⟩
  · have hbefore : WeightsKept cfg m (locateUncle m) := .of_arena rfl
    have hafter : WeightsKept cfg m1 (climb m1) := .of_arena rfl
    exact (hbefore.trans (h.uncleOf.kept hlocated he)).trans hafter
  · rw [climb_ua, ha]
    exact hua
  · cases j with
    | zero => rfl
    | succ j =>
      rw [Function.iterate_succ_apply, Function.iterate_succ_apply]
      exact (congrArg m1.upOf^[j] hua).trans (hiter j)

/-- Where the loop goes on, it stands at the head of a pass again. -/
theorem next {m1 : HuffmanModel} (h : Climbing cfg m) (ht : FullTree cfg m) (ha : (climb m1).a = m.ua)
    (hua : (climb m1).ua = m.upOf m.ua) (hiter : ∀ j, (climb m1).upOf^[j] m.ua = m.upOf^[j] m.ua)
    (hne : (climb m1).ua ≠ ROOT) : Climbing cfg (climb m1) where
  node := by
    obtain ⟨h1, h2⟩ := h.parent ht
    rw [ha]
    exact ⟨h1, h2.trans (by simp only [Cfg.twiceMax]; omega)⟩
  ua_eq := by rw [ha, hua]; exact (hiter 1).symm
  ua_ne := hne

end Climbing

/-- The loop completes where its fuel is at least the depth of `ua` (R114), on a tree that it keeps full. -/
theorem FullTree.promoteLoop {cfg : Cfg} {f k : Nat} {m : HuffmanModel} (ht : FullTree cfg m) (h : Climbing cfg m)
    (hk : m.upOf^[k] m.ua = ROOT) (hf : k ≤ f) :
    ∃ m', Machine.promoteLoop cfg f m = some m' ∧ FullTree cfg m' ∧ WeightsKept cfg m m' := by
  induction f generalizing m k with
  | zero =>
    obtain rfl : k = 0 := Nat.le_zero.mp hf
    exact absurd hk h.ua_ne
  | succ f ih =>
    obtain ⟨m1, he, hfull, hkept, ha, hua, hiter⟩ := h.pass ht
    rw [Machine.promoteLoop, he]
    by_cases hroot : (climb m1).ua = ROOT
    · exact ⟨climb m1, if_pos hroot, hfull, hkept⟩
    · cases k with
      | zero => exact absurd hk h.ua_ne
      | succ k =>
        have hk' : (climb m1).upOf^[k] (climb m1).ua = ROOT := by
          rw [hua, ← show (climb m1).upOf m.ua = m.upOf m.ua from hiter 1, ← Function.iterate_succ_apply, hiter]
          exact hk
        obtain ⟨m', hm', hfull', hkept'⟩ := ih hfull (h.next ht ha hua hiter hroot) hk' (Nat.le_of_succ_le_succ hf)
        exact ⟨m', (if_neg hroot).trans hm', hfull', hkept.trans hkept'⟩

/-- More fuel makes no difference to a loop that completes. -/
theorem promoteLoop_fuel {cfg : Cfg} {f g : Nat} {m m' : HuffmanModel} (h : promoteLoop cfg f m = some m')
    (hfg : f ≤ g) : promoteLoop cfg g m = some m' := by
  induction f generalizing g m with
  | zero => cases h
  | succ f ih =>
    obtain ⟨g, rfl⟩ := Nat.exists_eq_add_of_le' (Nat.le_trans (Nat.succ_pos f) hfg)
    rw [promoteLoop] at h ⊢
    split at h
    · cases h
    · next m1 he =>
      by_cases hroot : (climb m1).ua = ROOT
      · simp only [if_pos hroot] at h ⊢
        exact h
      · simp only [if_neg hroot] at h ⊢
        exact ih h (Nat.le_of_succ_le_succ hfg)

/-- `PROMOTE` of a node below the root completes on a full tree and keeps it full (R112, R114, R115). -/
theorem FullTree.promote {cfg : Cfg} {m : HuffmanModel} (ht : FullTree cfg m) {a : Nat} (h1 : ROOT < a)
    (h2 : a ≤ cfg.twiceMax) :
    ∃ m', Machine.promote cfg a m = some m' ∧ FullTree cfg m' ∧ WeightsKept cfg m m' := by
  rw [Machine.promote]
  split
  · exact ⟨_, rfl, ht.of_arena rfl, .of_arena rfl⟩
  · next hne =>
    obtain ⟨k, hk, hroot, -⟩ := ht.depth_le (Nat.le_of_lt h1) h2
    cases k with
    | zero => exact absurd hroot (Nat.ne_of_gt h1)
    | succ k =>
      have hclimbing : Climbing cfg { m with a := a, ua := m.upOf a } := ⟨⟨h1, h2⟩, rfl, hne⟩
      have hstart : FullTree cfg { m with a := a, ua := m.upOf a } := ht.of_arena rfl
      have hregisters : WeightsKept cfg m { m with a := a, ua := m.upOf a } := .of_arena rfl
      obtain ⟨m', hm', hfull, hkept⟩ :=
        hstart.promoteLoop hclimbing hroot (f := cfg.twiceMax) (by simp only [Cfg.twiceMax]; omega)
      exact ⟨m', hm', hfull, hregisters.trans hkept⟩

end Sys2Proof.Machine
end

