-- ==== Sys2Proof/Proofs/Update.lean ====
section
/-!
PROOFS. `UPDATE` (R110) by its four steps on a full tree: it completes and keeps the tree full (R114, R115), counts
its leaf (R103 (iv)), and keeps the bounds of the weights (R116). One pass of `PROMOTE` with its links (R112).
-/

namespace Sys2Proof

/-- A leaf of a valid configuration lies below the root. -/
theorem Cfg.IsLeaf.root_lt {cfg : Cfg} {a : Nat} (h : cfg.IsLeaf a) (hv : cfg.valid = true) : ROOT < a := by
  have hmax := Cfg.valid_maxChar hv
  have hle := h.1
  simp only [Cfg.successMax] at hle
  simp only [ROOT]
  omega

namespace Machine

/-! ### The exchange of R112 -/

/-- After its exchange `PROMOTE` goes on from the old `ua`: its fuel, one pass less, is still above the depth there. -/
theorem Climbing.promote_eq {cfg : Cfg} {m : HuffmanModel} (h : Climbing cfg m) (ht : FullTree cfg m)
    (hlocated : locateUncle m = m) :
    ∃ m1, exchangeIfHeavier cfg m = some m1 ∧
      promote cfg m.a m = if m.uua = ROOT then some (climb m1) else promote cfg m.ua (climb m1) := by
  obtain ⟨m1, he, hfull, -, ha, hua, hiter⟩ := h.pass ht
  rw [hlocated] at he
  have huua : m.upOf m.ua = m.uua := (locateUncle_uua m).symm.trans (by rw [hlocated])
  rw [huua] at hua
  have hstart : promote cfg m.a m = promoteLoop cfg cfg.twiceMax m := by
    rw [promote, ← h.ua_eq, if_neg h.ua_ne]
  have hloop : promoteLoop cfg cfg.twiceMax m
      = if m.uua = ROOT then some (climb m1) else promoteLoop cfg (2 * cfg.maxChar) (climb m1) := by
    rw [Cfg.twiceMax, promoteLoop, hlocated, he]
    simp only [hua]
  refine ⟨m1, he, ?_⟩
  rw [hstart, hloop]
  by_cases hroot : m.uua = ROOT
  · rw [if_pos hroot, if_pos hroot]
  · have hupua : (climb m1).upOf m.ua = m.uua := (hiter 1).trans huua
    have hrest : promote cfg m.ua (climb m1) = promoteLoop cfg cfg.twiceMax (climb m1) := by
      rw [promote, hupua, if_neg hroot, ← ha, ← hua]
    have hclimbing : Climbing cfg (climb m1) := h.next ht ha (hua.trans huua.symm) hiter (by rw [hua]; exact hroot)
    obtain ⟨hp1, hp2⟩ := hclimbing.parent hfull
    obtain ⟨k, hk, hkroot, -⟩ := hfull.depth_le (Nat.le_of_lt hp1) (hp2.trans (by simp only [Cfg.twiceMax]; omega))
    obtain ⟨m', hm', -⟩ := hfull.promoteLoop hclimbing hkroot (f := 2 * cfg.maxChar) (by omega)
    rw [if_neg hroot, if_neg hroot, hrest, hm']
    exact (promoteLoop_fuel hm' (Nat.le_succ _)).symm

/-- Settles O16: the links are those of `exchangeLinks`, under the weights of `PROPAGATE` from the uncle. -/
theorem exchangeSwapsNodeAndUncle : Obligations.ExchangeSwapsNodeAndUncle := by
  refine ⟨fun c m _ ht h1 h2 hua hne huua hb => ?_, fun c m a ha => if_pos ha⟩
  have h : UncleOf c m := ⟨⟨h1, h2⟩, hua, hne, huua, hb⟩
  have hlocated : locateUncle m = m := by
    rw [locateUncle, ← huua]
    exact congrArg (fun b => { m with b := b }) hb.symm
  refine ⟨fun hle => exchangeIfHeavier_eq_some.mpr (.inr ⟨hle, rfl⟩), fun hlt => ?_,
    Climbing.promote_eq ⟨⟨h1, h2⟩, hua, hne⟩ ht hlocated⟩
  obtain ⟨hua_bounds, huua_bounds, hb_bounds, hupb, hbua, hba, huua_ua, -⟩ := h.facts ht
  obtain ⟨m1, he, hp⟩ := h.exchanged ht hlt
  obtain ⟨-, -, hrb, hrua, hruua, hrnxt, hrn⟩ := hp.registers
  obtain ⟨hweight, -, heb, heua, heuua, henxt, hen⟩ := exchangeLinks_frame m
  have hup : ∀ k, m1.upOf k = if k = m.a then m.uua else if k = m.b then m.ua else m.upOf k := fun k => by
    rw [hp.links.upOf, h.up_exchange ht]
  have hchild : ∀ bit n, m1.childOf bit n = if n = m.uua ∧ m.childOf bit n = m.b then m.a
      else if n = m.ua ∧ m.childOf bit n = m.a then m.b else m.childOf bit n := fun bit n => by
    rw [hp.links.childOf, h.children_exchange ht]
  refine ⟨{ m1 with a := m.b }, he, hp.full.of_arena rfl, rfl, hrb.trans heb, hrua.trans heua, hruua.trans heuua,
    hrnxt.trans henxt, hrn.trans hen, hp.summed, fun n hn => ?_, ?_, ?_, fun k hka hkb => ?_, fun bit hbit => ?_,
    fun bit hbit => ?_, fun bit n hnb hna => ?_⟩
  · refine (hp.others n fun k e => hn k ?_).trans (by rw [hweight])
    rw [← e, ← hp.links.upOf]
    rfl
  · exact (hup m.a).trans (if_pos rfl)
  · exact (hup m.b).trans (by rw [if_neg hba, if_pos rfl])
  · exact (hup k).trans (by rw [if_neg hka, if_neg hkb])
  · exact (hchild bit m.uua).trans (if_pos ⟨rfl, hbit⟩)
  · exact (hchild bit m.ua).trans (by rw [if_neg fun e => huua_ua e.1.symm, if_pos ⟨rfl, hbit⟩])
  · exact (hchild bit n).trans (by rw [if_neg hnb, if_neg hna])

/-! ### The four steps of `UPDATE` -/

/-- The first step of `UPDATE` (R110): the leaf is counted. -/
abbrev HuffmanModel.counted (m : HuffmanModel) (a : Nat) : HuffmanModel := m.setWeight a (m.weightOf a + 1)

theorem weightOf_counted (m : HuffmanModel) {a : Nat} (ha : 1 ≤ a) (n : Nat) :
    (m.counted a).weightOf n = if n = a then m.weightOf n + 1 else m.weightOf n := by
  rw [weightOf_setWeight]
  by_cases h : n = a
  · rw [if_pos ⟨h, by omega⟩, if_pos h, h]
  · rw [if_neg fun e => h e.1, if_neg h]

theorem FullTree.counted {cfg : Cfg} {m : HuffmanModel} (h : FullTree cfg m) (a : Nat) : FullTree cfg (m.counted a) :=
  h.of_sameLinks ⟨rfl, rfl, rfl⟩ fun n hn => by
    rw [setWeight_weight, Cells.get_set]
    split
    · rfl
    · exact hn

/-- The first three steps of `UPDATE` complete on a full tree, keep what `WeightsKept` says, and leave every ancestor
of the leaf as the sum of its children. -/
theorem FullTree.update_steps {cfg : Cfg} {m : HuffmanModel} (h : FullTree cfg m) (hv : cfg.valid = true) {a : Nat}
    (ha : cfg.IsLeaf a) :
    ∃ m1 m2, Machine.propagate cfg a (m.counted a) = some m1 ∧ Machine.promote cfg a m1 = some m2 ∧ FullTree cfg m2 ∧
      WeightsKept cfg (m.counted a) m2 ∧ m2.SummedAbove a := by
  have hroot := ha.root_lt hv
  obtain ⟨m1, hp, hprop⟩ := (h.counted a).propagated (Nat.le_of_lt hroot) ha.2
  obtain ⟨m2, hpromote, hfull, hkept⟩ := hprop.full.promote hroot ha.2
  exact ⟨m1, m2, hp, hpromote, hfull, (hprop.kept (h.counted a) (Nat.le_of_lt hroot) ha.2).trans hkept,
    hkept.summed a ha.2 hprop.summed⟩

/-- The weight of a node after `RESCALE` (R113). -/
theorem FullTree.weightOf_rescale {cfg : Cfg} {m : HuffmanModel} (h : FullTree cfg m) {n : Nat} (h1 : 1 ≤ n)
    (h2 : n ≤ cfg.twiceMax) :
    (rescale cfg m).weightOf n = if cfg.maxFrequency ≤ m.weightOf ROOT then halve (m.weightOf n) else m.weightOf n := by
  obtain ⟨w, hw⟩ := Option.isSome_iff_exists.mp (h.weights n h2 h1)
  simp only [HuffmanModel.weightOf, rescale_weight, hw]
  split <;> rfl

/-- `RESCALE` keeps the tree full. -/
theorem FullTree.rescale {cfg : Cfg} {m : HuffmanModel} (h : FullTree cfg m) : FullTree cfg (Machine.rescale cfg m) :=
  h.of_sameLinks (rescale_links cfg m) fun n hn => by
    rw [rescale_weight]
    split
    · rwa [Option.isSome_map]
    · exact hn

/-- Settles O18: each of the four steps completes and keeps the tree full. -/
theorem updateKeepsTheTreeFull : Obligations.UpdateKeepsTheTreeFull := by
  intro c m a hv h ha
  obtain ⟨m1, m2, hp, hpromote, hfull, -⟩ := h.update_steps hv ha
  exact ⟨rescale c m2, update_eq_some.mpr ⟨m1, m2, hp, hpromote, rfl⟩, hfull.rescale⟩

/-- What a completed `UPDATE` has done: its result is the rescale of a full tree on which the leaves weigh what they
did, but for the counted one, on which weights are positive if they were, and on which all above the counted leaf is
summed. -/
theorem FullTree.update_eq {cfg : Cfg} {m m' : HuffmanModel} (h : FullTree cfg m) (hv : cfg.valid = true) {a : Nat}
    (ha : cfg.IsLeaf a) (hu : Machine.update cfg a m = some m') :
    ∃ m1 m2, Machine.propagate cfg a (m.counted a) = some m1 ∧ Machine.promote cfg a m1 = some m2 ∧
      m' = Machine.rescale cfg m2 ∧ FullTree cfg m2 ∧
      (∀ l, cfg.IsLeaf l → m2.weightOf l = if l = a then m.weightOf l + 1 else m.weightOf l) ∧
      (PositiveWeights cfg m → PositiveWeights cfg m2) ∧ m2.SummedAbove a := by
  have hroot := ha.root_lt hv
  obtain ⟨m1, m2, hp, hpromote, hfull, hkept, hsummed⟩ := h.update_steps hv ha
  have hdone := update_eq_some.mpr ⟨m1, m2, hp, hpromote, rfl⟩
  refine ⟨m1, m2, hp, hpromote, Option.some.inj (hu.symm.trans hdone), hfull, fun l hl => ?_,
    fun hpos => hkept.positive fun n hn hn1 => ?_, hsummed⟩
  · rw [weightOf_congr (hkept.leaves l hl.1), weightOf_counted m (Nat.le_of_lt hroot)]
  · have hw := hpos n hn hn1
    rw [weightOf_counted m (Nat.le_of_lt hroot)]
    split <;> omega

/-- Settles O20: `RESCALE` has a floor of 1, and the other steps keep weights positive. -/
theorem updateKeepsWeightsPositive : Obligations.UpdateKeepsWeightsPositive := by
  intro c m m' a hv h hpos ha hu
  obtain ⟨m1, m2, -, -, rfl, hfull, -, hpositive, -⟩ := h.update_eq hv ha hu
  intro n hn hn1
  rw [hfull.weightOf_rescale hn1 hn]
  split
  · exact halve_pos _
  · exact hpositive hpos n hn hn1

/-- Half of a weight that has come up to the ceiling is below it. -/
theorem halve_lt {w ceiling : Nat} (hw : w ≤ ceiling) (h2 : 2 ≤ ceiling) : halve w < ceiling := by
  rw [halve_eq]
  omega

/-- Settles O21: the counted leaf weighs no more than the root, since all above it is summed (R116 (b)); so where it
has come up to the ceiling, the root has, and every weight is halved. -/
theorem updateKeepsLeavesBelowCeiling : Obligations.UpdateKeepsLeavesBelowCeiling := by
  intro c m m' a hv h hbelow ha hu
  obtain ⟨-, -, -, -, -, -, -, -, hfreq⟩ := Cfg.valid_bounds hv
  obtain ⟨m1, m2, -, -, rfl, hfull, hleaves, -, hsummed⟩ := h.update_eq hv ha hu
  have hroot := hfull.weightOf_le_root (Nat.le_of_lt (ha.root_lt hv)) ha.2 hsummed
  intro l hl2 hl1
  have hleaf : c.IsLeaf l := ⟨hl1, hl2⟩
  have hold := hbelow l hl2 hl1
  have hnew := hleaves l hleaf
  rw [hfull.weightOf_rescale (Nat.le_of_lt (hleaf.root_lt hv)) hl2]
  split
  · refine halve_lt ?_ hfreq
    rw [hnew]
    split <;> omega
  · by_cases e : l = a
    · rw [e]
      omega
    · rw [hnew, if_neg e]
      exact hold

/-- Settles O19: `PROPAGATE` and `PROMOTE` write no leaf, and `RESCALE` halves all weights or none. -/
theorem updateCountsItsLeaf : Obligations.UpdateCountsItsLeaf := by
  intro c m m' a hv h ha hu
  obtain ⟨m1, m2, hp, hpromote, rfl, hfull, hleaves, -, -⟩ := h.update_eq hv ha hu
  have hnode : ∀ l, c.IsLeaf l → 1 ≤ l := fun l hl => Nat.le_of_lt (hl.root_lt hv)
  refine ⟨m1, m2, hp, hpromote, rfl, ?_⟩
  by_cases hroot : c.maxFrequency ≤ m2.weightOf ROOT
  · have hhalved : ∀ n, 1 ≤ n → n ≤ c.twiceMax → (rescale c m2).weightOf n = halve (m2.weightOf n) := fun n h1 h2 => by
      rw [hfull.weightOf_rescale h1 h2, if_pos hroot]
    have hrootHalved := hhalved ROOT (Nat.le_refl 1) (by simp only [Cfg.twiceMax, ROOT]; omega)
    refine .inr ⟨hroot, hrootHalved, ?_, fun l hl => ?_⟩
    · rw [hrootHalved, halve_eq]
      omega
    · rw [hhalved l (hnode l hl) hl.2, hleaves l hl]
  · have hrescale : rescale c m2 = m2 := by rw [Machine.rescale, if_neg hroot]
    rw [hrescale]
    exact .inl ⟨Nat.lt_of_not_le hroot, Nat.lt_of_not_le hroot, hleaves⟩

end Machine
end Sys2Proof
end

