-- ==== Sys2Proof/Proofs/Lawful.lean ====
section
/-!
PROOFS. The default `HUFF_INIT` and `HUFF_UPDATE` meet the requirements of R103: what `UPDATE` makes of the arena
depends on the arena alone, and it keeps the trees of R115 and R116.
-/

namespace Sys2Proof.Machine

/-! ### `UPDATE` reads no working register before it writes it (R28) -/

theorem rel_map {R S : HuffmanModel → HuffmanModel → Prop} {o o' : Option HuffmanModel}
    {f g : HuffmanModel → HuffmanModel} (h : Option.Rel R o o') (hfg : ∀ n n', R n n' → S (f n) (g n')) :
    Option.Rel S (o.map f) (o'.map g) := by
  cases h with
  | some h => exact .some (hfg _ _ h)
  | none => exact .none

/-- Two models with the same arena, from which the loop of `PROPAGATE` runs alike. -/
structure SamePropagate (m m' : HuffmanModel) : Prop where
  arena : m.toArena = m'.toArena
  x : m.x = m'.x

theorem SamePropagate.step {m m' : HuffmanModel} (h : SamePropagate m m') :
    SamePropagate (propagateStep m) (propagateStep m') := by
  obtain ⟨r, a, b, ua, uua, p, x, nxt, n⟩ := m
  obtain ⟨r', a', b', ua', uua', p', x', nxt', n'⟩ := m'
  obtain ⟨rfl, rfl⟩ := h
  exact ⟨rfl, rfl⟩

theorem SamePropagate.loop {f : Nat} {m m' : HuffmanModel} (h : SamePropagate m m') :
    Option.Rel SamePropagate (propagateLoop f m) (propagateLoop f m') := by
  induction f generalizing m m' with
  | zero =>
    rw [propagateLoop, propagateLoop, h.x]
    split
    · exact .some h
    · exact .none
  | succ f ih =>
    rw [propagateLoop, propagateLoop, h.x]
    split
    · exact .some h
    · exact ih h.step

theorem propagate_same (cfg : Cfg) (x : Nat) {m m' : HuffmanModel} (h : m.toArena = m'.toArena) :
    Option.Rel SamePropagate (propagate cfg x m) (propagate cfg x m') := SamePropagate.loop ⟨h, rfl⟩

/-- Two models with the same arena, from which an exchange runs alike. -/
structure SameExchange (m m' : HuffmanModel) : Prop where
  arena : m.toArena = m'.toArena
  a : m.a = m'.a
  b : m.b = m'.b
  ua : m.ua = m'.ua
  uua : m.uua = m'.uua

section

variable {m m' : HuffmanModel} (h : m.toArena = m'.toArena) (n v : Nat)
include h

theorem setLeft_arena : (m.setLeft n v).toArena = (m'.setLeft n v).toArena := by
  rw [HuffmanModel.setLeft, HuffmanModel.setLeft, h]

theorem setRight_arena : (m.setRight n v).toArena = (m'.setRight n v).toArena := by
  rw [HuffmanModel.setRight, HuffmanModel.setRight, h]

theorem setUp_arena : (m.setUp n v).toArena = (m'.setUp n v).toArena := by
  rw [HuffmanModel.setUp, HuffmanModel.setUp, h]

end

theorem SameExchange.links {m m' : HuffmanModel} (h : SameExchange m m') :
    (exchangeLinks m).toArena = (exchangeLinks m').toArena := by
  have hup : (if m.leftOf m.uua = m.ua then m.setRight m.uua m.a else m.setLeft m.uua m.a).toArena
      = (if m'.leftOf m'.uua = m'.ua then m'.setRight m'.uua m'.a else m'.setLeft m'.uua m'.a).toArena := by
    rw [leftOf_arena h.arena, h.a, h.ua, h.uua]
    split
    · exact setRight_arena h.arena _ _
    · exact setLeft_arena h.arena _ _
  simp only [exchangeLinks]
  revert hup
  rw [← h.a, ← h.b, ← h.ua, ← h.uua]
  generalize (if m.leftOf m.uua = m.ua then m.setRight m.uua m.a else m.setLeft m.uua m.a) = m1
  generalize (if m'.leftOf m.uua = m.ua then m'.setRight m.uua m.a else m'.setLeft m.uua m.a) = m1'
  intro hup
  refine setUp_arena (setUp_arena ?_ _ _) _ _
  rw [leftOf_arena hup]
  split
  · exact setLeft_arena hup _ _
  · exact setRight_arena hup _ _

/-- The node that goes on after an exchange is the uncle, whose register `PROPAGATE` leaves. -/
theorem exchangeIfHeavier_eq (cfg : Cfg) (m : HuffmanModel) :
    exchangeIfHeavier cfg m = if m.weightOf m.b < m.weightOf m.a then
      (propagate cfg m.b (exchangeLinks m)).map fun m' => { m' with a := m.b } else some m := by
  have hb : ∀ m' ∈ propagate cfg m.b (exchangeLinks m),
      ({ m' with a := m'.b } : HuffmanModel) = { m' with a := m.b } := by
    intro m' hm'
    obtain ⟨-, -, -, hb1, -⟩ := propagateLoop_frame hm'
    obtain ⟨-, -, hb2, -⟩ := exchangeLinks_frame m
    rw [hb1.trans hb2]
  rw [exchangeIfHeavier, Option.map_congr hb]

theorem SameExchange.run (cfg : Cfg) {m m' : HuffmanModel} (h : SameExchange m m') :
    Option.Rel (fun n n' => n.toArena = n'.toArena ∧ n.a = n'.a) (exchangeIfHeavier cfg m)
      (exchangeIfHeavier cfg m') := by
  rw [exchangeIfHeavier_eq, exchangeIfHeavier_eq, weightOf_arena h.arena, ← h.a, ← h.b]
  split
  · exact rel_map (propagate_same cfg m.b h.links) fun n n' hs => ⟨hs.arena, rfl⟩
  · exact .some ⟨h.arena, h.a⟩

/-- Two models with the same arena, from which a pass of `PROMOTE` runs alike. -/
structure SamePromote (m m' : HuffmanModel) : Prop where
  arena : m.toArena = m'.toArena
  a : m.a = m'.a
  ua : m.ua = m'.ua

/-- A pass sets `uua` and `b` itself. -/
theorem SamePromote.located {m m' : HuffmanModel} (h : SamePromote m m') :
    SameExchange (locateUncle m) (locateUncle m') := by
  have hu : m.upOf m.ua = m'.upOf m'.ua := by rw [upOf_arena h.arena, h.ua]
  refine ⟨h.arena, h.a, ?_, h.ua, hu⟩
  rw [locateUncle_b, locateUncle_b, hu, h.ua, leftOf_arena h.arena, rightOf_arena h.arena]

theorem SamePromote.climb {m m' : HuffmanModel} (h : m.toArena = m'.toArena) (ha : m.a = m'.a) :
    SamePromote (climb m) (climb m') := by
  refine ⟨h, ?_, ?_⟩
  · rw [climb_a, climb_a, upOf_arena h, ha]
  · rw [climb_ua, climb_ua, upOf_arena h, ha]

theorem SamePromote.loop {cfg : Cfg} {f : Nat} {m m' : HuffmanModel} (h : SamePromote m m') :
    Option.Rel (fun n n' => n.toArena = n'.toArena) (promoteLoop cfg f m) (promoteLoop cfg f m') := by
  induction f generalizing m m' with
  | zero => exact .none
  | succ f ih =>
    rw [promoteLoop, promoteLoop]
    have he := h.located.run cfg
    revert he
    generalize exchangeIfHeavier cfg (locateUncle m) = o, exchangeIfHeavier cfg (locateUncle m') = o'
    intro he
    cases he with
    | none => exact .none
    | @some m1 m1' hs =>
      have hc := SamePromote.climb hs.1 hs.2
      simp only [hc.ua]
      split
      · exact .some hc.arena
      · exact ih hc

theorem promote_same (cfg : Cfg) (a : Nat) {m m' : HuffmanModel} (h : m.toArena = m'.toArena) :
    Option.Rel (fun n n' => n.toArena = n'.toArena) (promote cfg a m) (promote cfg a m') := by
  rw [promote, promote, upOf_arena h]
  split
  · exact .some h
  · exact SamePromote.loop ⟨h, rfl, rfl⟩

theorem rescale_same (cfg : Cfg) {m m' : HuffmanModel} (h : m.toArena = m'.toArena) :
    (rescale cfg m).toArena = (rescale cfg m').toArena := by
  rw [rescale, rescale, weightOf_arena h]
  split
  · rw [h]
  · exact h

/-- `UPDATE` is a function of the configuration, the arena and the leaf (R103 (i)). -/
theorem update_arenaOnly (cfg : Cfg) (a : Nat) {m m' : HuffmanModel} (h : m.toArena = m'.toArena) :
    (update cfg a m).map HuffmanModel.toArena = (update cfg a m').map HuffmanModel.toArena := by
  have hcounted : (m.counted a).toArena = (m'.counted a).toArena := by
    simp only [HuffmanModel.setWeight, weightOf_arena h, h]
  have hp := propagate_same cfg a hcounted
  rw [update, update]
  revert hp
  generalize propagate cfg a (m.counted a) = o, propagate cfg a (m'.counted a) = o'
  intro hp
  cases hp with
  | none => rfl
  | @some m1 m1' hs =>
    have hpromote := promote_same cfg a hs.arena
    simp only
    revert hpromote
    generalize promote cfg a m1 = o, promote cfg a m1' = o'
    intro hpromote
    cases hpromote with
    | none => rfl
    | some hs => exact congrArg some (rescale_same cfg hs)

/-! ### The trees that `UPDATE` keeps -/

/-- Every node of a full tree is reached from the root by child links. -/
theorem FullTree.descends {cfg : Cfg} {m : HuffmanModel} (h : FullTree cfg m) {n : Nat} (h1 : 1 ≤ n)
    (h2 : n ≤ cfg.twiceMax) : ∃ path, m.descend cfg path ROOT = n := by
  obtain ⟨k, hk⟩ := h.reaches n h2 h1
  induction k generalizing n with
  | zero => exact ⟨[], hk.symm⟩
  | succ k ih =>
    have hlt : ROOT < n := h.root_lt_of_iterate (k := k) (by rw [hk])
    obtain ⟨hp1, hp2⟩ := h.parent_internal hlt h2
    obtain ⟨path, hpath⟩ := ih hp1 (hp2.trans (by simp only [Cfg.twiceMax]; omega)) hk
    obtain ⟨bit, hbit⟩ := h.childOf_upOf hlt h2
    exact ⟨path ++ [bit], by rw [descend_snoc, hpath, if_pos hp2, hbit]⟩

/-- A full tree is well formed (R27). -/
theorem FullTree.wellFormed {cfg : Cfg} {m : HuffmanModel} (h : FullTree cfg m) : WellFormedTree cfg m where
  root := h.root
  children n h2 h1 bit _ := (h.children n h2 h1 bit).2
  reaches := h.reaches
  leaves _ hl := h.descends (Nat.le_trans (Nat.succ_pos _) hl.1) hl.2

/-- The counted leaf weighs one more, or half of that (R103 (iv), R113). -/
theorem FullTree.update_counts {cfg : Cfg} {m m' : HuffmanModel} (h : FullTree cfg m) (hv : cfg.valid = true) {a : Nat}
    (ha : cfg.IsLeaf a) (hu : Machine.update cfg a m = some m') :
    m'.weightOf a = m.weightOf a + 1 ∨ Rescaled (m.weightOf a + 1) (m'.weightOf a) := by
  obtain ⟨m1, m2, -, -, -, ⟨-, -, hleaves⟩ | ⟨-, -, -, hleaves⟩⟩ := updateCountsItsLeaf cfg m m' a hv h ha hu
  · exact .inl ((hleaves a ha).trans (if_pos rfl))
  · right
    rw [hleaves a ha, if_pos rfl, halve_eq]
    exact ⟨Nat.le_max_left _ _, by omega⟩

/-- With the default parameters the full trees are kept (R115). -/
theorem default_lawful_fullTree : HuffParams.default.Lawful FullTree where
  arenaOnly cfg a _ _ h := update_arenaOnly cfg a h
  goodArena _ _ _ h ht := ht.of_arena h.symm
  wellFormed _ _ _ ht := ht.wellFormed
  init cfg m _ := huffInit_fullTree cfg m
  update cfg a m hv ht ha := updateKeepsTheTreeFull cfg m a hv ht ha
  counts _ _ _ _ hv ht ha hu := ht.update_counts hv ha hu

/-- Settles O57: of the trees of R115, `UPDATE` keeps those of R116 too. -/
theorem defaultInstanceIsLawful : Obligations.DefaultInstanceIsLawful where
  arenaOnly cfg a _ _ h := update_arenaOnly cfg a h
  goodArena _ _ _ h ht := by
    refine ⟨ht.full.of_arena h.symm, fun n hn hn1 => ?_, fun n hn hn1 => ?_⟩
    · rw [← weightOf_arena h]; exact ht.positive n hn hn1
    · rw [← weightOf_arena h]; exact ht.below n hn hn1
  wellFormed _ _ _ ht := ht.full.wellFormed
  init cfg m hv := by
    obtain ⟨hfull, hpositive, hbelow⟩ := initialTreeIsFull cfg m hv
    exact ⟨hfull, hpositive, hbelow⟩
  update cfg a m hv ht ha := by
    obtain ⟨m', hu, hfull⟩ := updateKeepsTheTreeFull cfg m a hv ht.full ha
    exact ⟨m', hu, hfull, updateKeepsWeightsPositive cfg m m' a hv ht.full ht.positive ha hu,
      updateKeepsLeavesBelowCeiling cfg m m' a hv ht.full ht.below ha hu⟩
  counts _ _ _ _ hv ht ha hu := ht.full.update_counts hv ha hu

end Sys2Proof.Machine
end

