-- ==== Sys2Proof/Proofs/Fetch.lean ====
section
/-!
PROOFS. `DECODESYM` (R100): the walk follows the bits of the stream down the tree, so that it reads a symbol where the
stream holds its code, and raises where the bits lead to a missing child.
-/

namespace Sys2Proof.Machine

/-! ### The walk along a path -/

/-- Where the next bits lead from the walk's node to a node, the walk comes to that node, just behind these bits, with
the arena as it was. -/
theorem walk_descend {cfg : Cfg} {inp : Memory} {len : Nat} (f : Nat) (path : List Bool) {m : HuffmanModel}
    {c : BitCursor} {n : Nat} (hw : c.Wf inp len) (hd : m.descend cfg path m.a = n) (hn : n ≠ NIL)
    (hleft : path.length ≤ c.bitsLeft len) (hbits : streamBits inp c.bitPos path.length = path) :
    ∃ m' c', walk cfg inp len (path.length + f) m c = walk cfg inp len f m' c' ∧ m'.a = n ∧
      m'.toArena = m.toArena ∧ c'.Wf inp len ∧ c'.bitPos = c.bitPos + path.length := by
  induction path generalizing m c with
  | nil => exact ⟨m, c, by rw [List.length_nil, Nat.zero_add], hd, rfl, hw, rfl⟩
  | cons bit path ih =>
    rw [List.length_cons] at hleft hbits ⊢
    rw [streamBits_succ, List.cons.injEq] at hbits
    obtain ⟨hbit, hrest⟩ := hbits
    obtain ⟨bit', c1, hb⟩ := nextBit_completes (inp := inp) (Nat.lt_of_lt_of_le (Nat.succ_pos _) hleft)
    obtain rfl : bit' = bit := (hw.nextBit_bit hb).trans hbit
    have hpos := hw.nextBit_bitPos hb
    have hcount := nextBit_bitsLeft hb
    have hstep : m.descend cfg path (if m.a ≤ cfg.maxChar then m.childOf bit' m.a else NIL) = n := hd
    have hinternal : m.a ≤ cfg.maxChar := by
      by_contra hgt
      rw [if_neg hgt, descend_nil] at hstep
      exact hn hstep.symm
    rw [if_pos hinternal] at hstep
    have hchild : m.childOf bit' m.a ≠ NIL := by
      intro h0
      rw [h0, descend_nil] at hstep
      exact hn hstep.symm
    obtain ⟨m', c', hwalk, ha, harena, hw', hpos'⟩ :=
      ih (m := { m with nxt := m.childOf bit' m.a, a := m.childOf bit' m.a }) (c := c1) (hw.nextBit hb) hstep
        (by omega) (by rw [hpos]; exact hrest)
    refine ⟨m', c', ?_, ha, harena, hw', by rw [hpos', hpos]; omega⟩
    rw [Nat.add_right_comm, walk_internal (Nat.lt_succ_of_le hinternal) hb, if_neg hchild]
    exact hwalk

/-- At an internal node the walk raises `InvalidHuffmanCode` behind a bit that selects no child (R162). -/
theorem walk_missing {cfg : Cfg} {inp : Memory} {len f : Nat} {m : HuffmanModel} {c c1 : BitCursor} {bit : Bool}
    (h : m.a < cfg.successMax) (hb : nextBit inp len c = .ok bit c1) (hchild : m.childOf bit m.a = NIL) :
    walk cfg inp len (f + 1) m c = .raise .invalidHuffmanCode ({ m with nxt := NIL }, c1) := by
  rw [walk_internal h hb, if_pos hchild, hchild]

/-- At an internal node with no bit left the walk raises the end of the stream (R166 (1)). -/
theorem walk_end {cfg : Cfg} {inp : Memory} {len f : Nat} {m : HuffmanModel} {c : BitCursor} (h : m.a < cfg.successMax)
    (hleft : c.bitsLeft len = 0) : walk cfg inp len (f + 1) m c = .raise .unexpectedEndOfStream (m, c) := by
  rw [walk, if_pos h, nextBit_raises hleft]

/-- The root of a valid configuration is internal. -/
theorem root_internal {cfg : Cfg} (hv : cfg.valid = true) : ROOT < cfg.successMax := by
  have := Cfg.valid_maxChar hv
  simp only [ROOT, Cfg.successMax]
  omega

/-- Settles O23: one pass of the walk, which at the root is the walk of `DECODESYM`. -/
theorem missingChildRaises : Obligations.MissingChildRaises := by
  refine ⟨fun cfg inp len fuel m c h => ⟨fun bit c' hb hchild => walk_missing h hb hchild, walk_end h⟩,
    fun hp s hv => ?_⟩
  have hroot : ({ s.model with a := ROOT } : HuffmanModel).a < s.cfg.successMax := root_internal hv
  refine ⟨fun bit c hb hchild => ?_, fun hleft => ?_⟩
  · exact ⟨_, decodeSym_eq_raise.mpr ⟨_, c, walk_missing hroot hb hchild, rfl⟩, rfl, rfl⟩
  · exact ⟨_, decodeSym_eq_raise.mpr ⟨_, _, walk_end hroot hleft, rfl⟩, rfl⟩

/-- The walk of `DECODESYM` along a path from the root, with the fuel that is left behind it. -/
theorem State.walk_descend {s : State} {path : List Bool} {n : Nat} (hw : s.cursor.Wf s.inWin s.runLen)
    (hd : s.model.descend s.cfg path ROOT = n) (hn : n ≠ NIL) (hleft : path.length ≤ s.cursor.bitsLeft s.runLen)
    (hbits : streamBits s.inWin s.cursor.bitPos path.length = path) :
    ∃ f m c, s.walk = Machine.walk s.cfg s.inWin s.runLen (f + 1) m c ∧ m.a = n ∧ m.toArena = s.model.toArena ∧
      c.Wf s.inWin s.runLen ∧ c.bitPos = s.cursor.bitPos + path.length := by
  obtain ⟨rest, hrest⟩ := Nat.exists_eq_add_of_le hleft
  obtain ⟨m, c, hwalk, ha, harena, hw', hpos⟩ :=
    Machine.walk_descend (rest + 1) path (m := { s.model with a := ROOT }) hw hd hn hleft hbits
  refine ⟨rest, m, c, ?_, ha, harena, hw', hpos⟩
  rw [State.walk, hrest, Nat.add_assoc]
  exact hwalk

/-- Settles O56: the walk comes to the internal node, and raises there. -/
theorem missingChildRaisesAtAnyDepth : Obligations.MissingChildRaisesAtAnyDepth := by
  intro hp s path n hv hw hd hn hle hleft hbits
  obtain ⟨f, m, c, hwalk, ha, harena, hw', hpos⟩ := State.walk_descend hw hd hn hleft hbits
  have hinternal : m.a < s.cfg.successMax := by rw [ha]; exact Nat.lt_succ_of_le hle
  have hsum := hw.bitPos_add_bitsLeft
  have hsum' := hw'.bitPos_add_bitsLeft
  refine ⟨fun hlt hchild => ?_, fun hend => ?_⟩
  · obtain ⟨bit, c1, hb⟩ := nextBit_completes (inp := s.inWin) (len := s.runLen) (c := c) (by omega)
    have hchild' : m.childOf bit m.a = NIL := by
      rw [childOf_arena harena, ha, hw'.nextBit_bit hb, hpos]
      exact hchild
    refine ⟨_, decodeSym_eq_raise.mpr ⟨_, c1, hwalk.trans (walk_missing hinternal hb hchild'), rfl⟩, ?_, harena, rfl⟩
    exact (hw'.nextBit_bitPos hb).trans (by rw [hpos])
  · exact ⟨_, decodeSym_eq_raise.mpr ⟨_, _, hwalk.trans (walk_end hinternal (by omega)), rfl⟩, hpos, harena, rfl⟩

/-! ### Fetching the assembled symbol -/

/-- Settles O7: the code of the symbol leads to its leaf (R71), where the walk ends. -/
theorem fetchReadsTheAssembledSymbol : Obligations.FetchReadsTheAssembledSymbol := by
  intro hp Good s sym hlaw hv hgood hw hsym hleft hbits
  have hd := (hlaw.wellFormed s.cfg s.model hv hgood).descend_symbolCode hsym
  have hleaf : s.cfg.IsLeaf (sym + s.cfg.successMax) := by
    refine ⟨Nat.le_add_left _ _, ?_⟩
    simp only [Cfg.successMax, Cfg.twiceMax]
    omega
  obtain ⟨f, m, c, hwalk, ha, harena, hw', hpos⟩ :=
    State.walk_descend hw hd (Nat.ne_of_gt (Nat.lt_of_lt_of_le (Nat.succ_pos _) hleaf.1)) hleft hbits
  have hdone : s.walk = .ok () (m, c) := by rw [hwalk, walk_leaf (by rw [ha]; exact hleaf.1)]
  obtain ⟨m', hu, -⟩ := hlaw.update s.cfg m.a m hv (hlaw.goodArena _ _ _ harena.symm hgood) (by rw [ha]; exact hleaf)
  exact ⟨_, decodeSym_eq_ok.mpr ⟨m, c, m', hdone, hu, by rw [ha, Nat.add_sub_cancel], rfl⟩, hpos, hw'⟩

/-! ### What a fetch can do -/

/-- Settles O58: the walk of a well-formed tree raises an error of a fetch or ends on a leaf, of which `HUFF_UPDATE`
then has a result. -/
theorem fetchUnderAnyInstance : Obligations.FetchUnderAnyInstance := by
  intro hp Good s hlaw hv hgood hw
  have htree := hlaw.wellFormed s.cfg s.model hv hgood
  have hroot := root_internal hv
  obtain ⟨e, m, c, hwalk, hne, harena⟩ | ⟨m, c, hwalk, hleaf, harena⟩ :=
    htree.walk s.inWin s.runLen (f := s.cursor.bitsLeft s.runLen + 1) (m := { s.model with a := ROOT }) (c := s.cursor)
      rfl (Nat.le_refl 1) (by simp only [Cfg.twiceMax, ROOT]; omega)
  · exact .inl ⟨e, _, decodeSym_eq_raise.mpr ⟨m, c, hwalk, rfl⟩, hne, harena⟩
  · right
    have hgood' := hlaw.goodArena s.cfg s.model m harena.symm hgood
    obtain ⟨m', hu, hgood''⟩ := hlaw.update s.cfg m.a m hv hgood' hleaf
    have hsym : m.a - s.cfg.successMax + s.cfg.successMax = m.a := Nat.sub_add_cancel hleaf.1
    obtain ⟨-, -, -, -, -, hless⟩ := walk_eq_ok hwalk
    refine ⟨m.a - s.cfg.successMax, _, decodeSym_eq_ok.mpr ⟨m, c, m', hwalk, hu, rfl, rfl⟩, ?_, hgood'', ?_, ?_,
      hw.walk hwalk, hless hroot, rfl⟩
    · obtain ⟨h1, h2⟩ := hleaf
      simp only [Cfg.successMax, Cfg.twiceMax] at h1 h2 ⊢
      omega
    · rw [hsym, hlaw.arenaOnly s.cfg m.a s.model m harena.symm, hu]
      rfl
    · rw [hsym, ← weightOf_arena harena]
      exact hlaw.counts s.cfg m.a m m' hv hgood' hleaf hu

/-- On a full tree no child is missing, so that the walk raises only the end of the stream (R117). -/
theorem FullTree.walk_raise {cfg : Cfg} {m0 : HuffmanModel} (ht : FullTree cfg m0) {inp : Memory} {len f : Nat}
    {m : HuffmanModel} {c : BitCursor} {e : ErrKind} {p : HuffmanModel × BitCursor} (hm : m.toArena = m0.toArena)
    (h1 : 1 ≤ m.a) (hr : Machine.walk cfg inp len f m c = .raise e p) : e = .unexpectedEndOfStream := by
  induction f generalizing m c with
  | zero => cases hr; rfl
  | succ f ih =>
    by_cases hleaf : cfg.successMax ≤ m.a
    · rw [walk_leaf hleaf] at hr
      cases hr
    · have hinternal : m.a < cfg.successMax := Nat.lt_of_not_le hleaf
      cases hb : nextBit inp len c with
      | ok bit c1 =>
        obtain ⟨hchild, -⟩ := ht.children m.a (Nat.le_of_lt_succ hinternal) h1 bit
        rw [← childOf_arena hm] at hchild
        have hnil : m.childOf bit m.a ≠ NIL := Nat.ne_of_gt (Nat.zero_lt_of_lt hchild)
        rw [walk_internal hinternal hb, if_neg hnil] at hr
        exact ih (m := { m with nxt := m.childOf bit m.a, a := m.childOf bit m.a }) hm (Nat.le_of_lt hchild) hr
      | raise e' c1 =>
        rw [Machine.walk, if_pos hinternal, hb] at hr
        cases hr
        obtain ⟨-, -, he, -⟩ := nextBit_eq_raise.mp hb
        exact he
      | refused r => exact absurd hb nextBit_ne_refused

theorem FullTree.decodeSym_raise {hp : HuffParams} {s t : State} {e : ErrKind} (ht : FullTree s.cfg s.model)
    (h : decodeSym hp s = .raise e t) : e = .unexpectedEndOfStream := by
  obtain ⟨m, c, hwalk, -⟩ := decodeSym_eq_raise.mp h
  exact ht.walk_raise (m := { s.model with a := ROOT }) rfl (Nat.le_refl 1) hwalk

/-- Settles O22: `DECODESYM` raises what its walk does. -/
theorem fullTreeHasNoInvalidCode : Obligations.FullTreeHasNoInvalidCode := by
  intro hp s t _ ht h
  cases ht.decodeSym_raise h

/-- Settles O24: the full trees are kept by the default parameters, and no child of one is missing. -/
theorem fetchOnAFullTree : Obligations.FetchOnAFullTree := by
  intro s hv ht hw
  obtain ⟨e, t, hraise, -⟩ | ⟨sym, t, hok, hsym, hfull, -, -, hw', hless, hframe⟩ :=
    fetchUnderAnyInstance .default FullTree s default_lawful_fullTree hv ht hw
  · rw [ht.decodeSym_raise hraise] at hraise
    exact .inl ⟨t, hraise⟩
  · exact .inr ⟨sym, t, hok, hsym, hfull, hw', hless, hframe⟩

end Sys2Proof.Machine
end

