-- ==== Sys2Proof/Proofs/Step.lean ====
section
/-!
PROOFS. The step (R140): the instruction that it runs or the error that it takes, the transitions of `STATUS` (R42),
what the engine leaves alone, the invariant of the machine, and the end of every run (R151).
-/

namespace Sys2Proof.Machine

/-! ### One pass of `RUN` -/

/-- During a run, with no transaction pending, the step is one pass of `RUN`. -/
theorem stepWith_run {hp : HuffParams} {s : State} (hbusy : s.status = .busy) (hq : s.hostQueue = []) :
    stepWith hp s = runOne hp s := by
  rw [stepWith_of_queue_nil hq, engineStep_busy hbusy]

theorem runOne_of_decodes {hp : HuffParams} {s t : State} {sym : Nat} {d : Decoded} (h : decodeSym hp s = .ok sym t)
    (hd : decodeSymbol t.cfg sym = .ok d) : runOne hp s = runDecoded d t := by
  simp only [runOne, h, hd]

theorem runOne_of_raise {hp : HuffParams} {s t : State} {e : ErrKind} (h : decodeSym hp s = .raise e t) :
    runOne hp s = .next (abort e t) := by
  simp only [runOne, h]

/-- Settles O46: the pass of `RUN` of which fetch and dispatch are given. -/
theorem stepRunsTheDecodedInstruction : Obligations.StepRunsTheDecodedInstruction := by
  refine ⟨fun hp s t sym d hbusy hq h hd => ?_, fun _ => rfl⟩
  have hrun : stepWith hp s = runDecoded d t := (stepWith_run hbusy hq).trans (runOne_of_decodes h hd)
  exact ⟨hrun, fun i hi => by rw [hrun, hi]; rfl, fun r len hr => by rw [hrun, hr]; rfl⟩

/-- Settles O47: a raising fetch has moved the cursor and the registers of the walk only. -/
theorem stepTakesTheFetchError : Obligations.StepTakesTheFetchError := by
  intro hp s t e hbusy hq h
  obtain ⟨m, c, -, ht⟩ := decodeSym_eq_raise.mp h
  refine ⟨(stepWith_run hbusy hq).trans (runOne_of_raise h), errorTaken_abort ?_⟩
  rw [ht]

/-- Settles O8: the fetch reads the symbol of the instruction, which decodes to its row. -/
theorem stepRunsTheAssembledInstruction : Obligations.StepRunsTheAssembledInstruction := by
  intro hp Good s i hlaw hbusy hq hv hwf hgood hw hleft hbits
  rw [assemble, List.append_nil] at hleft hbits ⊢
  obtain ⟨t, hfetch, hpos, -⟩ :=
    fetchReadsTheAssembledSymbol hp Good s (encode s.cfg i) hlaw hv hgood hw (encode_le_maxChar hv hwf) hleft hbits
  obtain ⟨m, c, m', -, -, -, ht⟩ := decodeSym_eq_ok.mp hfetch
  have hd : decodeSymbol t.cfg (encode s.cfg i) = .ok (.row i) := by
    rw [ht]
    exact decodeOfEncodeIsTheRow s.cfg i hv hwf
  exact ⟨t, hfetch, (stepWith_run hbusy hq).trans (runOne_of_decodes hfetch hd), hpos⟩

/-! ### What a pass of `RUN` leaves -/

/-- Every way a pass of `RUN` can end: with an error taken, going on, or at `TERM`. -/
inductive RunEnds (s : State) : State → Prop
  | failed (e : ErrKind) (s1 : State)
      (frame : s1 = { s with cursor := s1.cursor, model := s1.model, hist := s1.hist, dec := s1.dec }) :
      RunEnds s (abort e s1)
  | goesOn (t : State) (frame : t = { s with cursor := t.cursor, model := t.model, hist := t.hist, dec := t.dec }) :
      RunEnds s t
  | done (c : BitCursor) (m : HuffmanModel) (d : Decompressor) :
      RunEnds s { s with cursor := c, model := m, dec := d, status := .done, outLen := s.hist.count }

theorem runOne_ends {hp : HuffParams} {s t : State} (h : runOne hp s = .next t) : RunEnds s t := by
  obtain ⟨e, s1, hd, rfl⟩ | ⟨sym, s1, op, hd, -, hx⟩ := runOne_eq_next.mp h
  · obtain ⟨m, c, -, rfl⟩ := decodeSym_eq_raise.mp hd
    exact .failed e _ rfl
  · obtain ⟨m, c, m', -, -, -, rfl⟩ := decodeSym_eq_ok.mp hd
    obtain ⟨b, -, rfl⟩ | ⟨-, rfl⟩ | ⟨r, len, -, hcopy⟩ | ⟨r, len, e, s2, -, hcopy, rfl⟩ := execOp_eq_next.mp hx
    · exact .goesOn _ rfl
    · exact .done _ _ _
    · obtain ⟨extra, c', h', -, -, rfl⟩ := copyInstr_eq_ok.mp hcopy
      exact .goesOn _ rfl
    · obtain ⟨c', -, rfl⟩ | ⟨extra, c', h', -, -, rfl⟩ := copyInstr_eq_raise.mp hcopy
      · exact .failed e _ rfl
      · exact .failed e _ rfl

/-- Settles O50: of the transactions only `START` writes `STATUS`; the engine moves during a run only. -/
theorem statusTransitions : Obligations.StatusTransitions := by
  intro hp s t h
  obtain ⟨op, q, hq, -, hop⟩ | ⟨q, -, hengine⟩ := stepWith_eq_next h
  · have hstatus : t.status = s.status ∨ ∃ v, op = .write .ctrl v ∧ v.testBit 0 = true ∧ s.status ≠ .busy ∧
        t = (s.withQueue q).started hp := by
      obtain ⟨v, hctrl, hbit, hidle, -, ht⟩ | ⟨v, rfl⟩ | ⟨c, rfl⟩ | ⟨v, k, rfl⟩ | ⟨i, v, -, -, rfl⟩ :=
        hostAccess_eq_next hop
      · exact .inr ⟨v, hctrl, hbit, hidle, ht⟩
      all_goals exact .inl rfl
    obtain hsame | ⟨v, rfl, hbit, hidle, ht⟩ := hstatus
    · exact ⟨fun _ hne => absurd hsame hne, fun hbusy => .inl (hsame.trans hbusy)⟩
    · exact ⟨fun _ _ => ⟨v, q, hq, hbit, ht⟩, fun hbusy => absurd hbusy hidle⟩
  · by_cases hbusy : s.status = .busy
    · refine ⟨fun hidle => absurd hbusy hidle, fun _ => ?_⟩
      have hrun : runOne hp (s.withQueue q) = .next t := (engineStep_busy (s := s.withQueue q) hbusy).symm.trans hengine
      cases runOne_ends hrun with
      | failed e s1 _ => exact .inr (.inr rfl)
      | goesOn _ frame => exact .inl (by rw [frame]; exact hbusy)
      | done c m d => exact .inr (.inl rfl)
    · rw [engineStep_idle (s := s.withQueue q) hbusy] at hengine
      cases hengine
      exact ⟨fun _ hne => absurd rfl hne, fun h => absurd h hbusy⟩

/-- Settles O51: none of the ways in which a pass of `RUN` ends writes one of these parts. -/
theorem engineNeverWritesItsInput : Obligations.EngineNeverWritesItsInput := by
  intro hp s t h
  by_cases hbusy : s.status = .busy
  · rw [engineStep_busy hbusy] at h
    cases runOne_ends h with
    | failed e s1 frame => rw [frame]; exact ⟨rfl, rfl, rfl, rfl, rfl, rfl, rfl⟩
    | goesOn _ frame => rw [frame]; exact ⟨rfl, rfl, rfl, rfl, rfl, rfl, rfl⟩
    | done c m d => exact ⟨rfl, rfl, rfl, rfl, rfl, rfl, rfl⟩
  · rw [engineStep_idle hbusy] at h
    cases h
    exact ⟨rfl, rfl, rfl, rfl, rfl, rfl, rfl⟩

/-! ### The invariant of a run -/

section Run

variable {hp : HuffParams} {Good : Cfg → HuffmanModel → Prop} {s t : State}

/-- A completed copy keeps the invariant, and leaves no more bits than there were. -/
theorem RunInv.copyInstr {r : CopyRange} {len : Nat} {u : Unit} (h : RunInv Good s)
    (hc : Machine.copyInstr r len s = .ok u t) :
    RunInv Good t ∧ t.cursor.bitsLeft t.runLen ≤ s.cursor.bitsLeft s.runLen := by
  obtain ⟨extra, c, h', hcode, hcopy, rfl⟩ := copyInstr_eq_ok.mp hc
  obtain ⟨-, hloop, -⟩ := nextCode_eq_ok.mp hcode
  obtain ⟨-, -, -, rfl⟩ := applyCopy_eq_ok.mp hcopy
  have hstart : BitCursor.Wf s.inWin s.runLen { s.cursor with mask := 1, code := 0 } := h.cursor.congr rfl rfl rfl
  have hring := h.ring.congr
    (h' := { s.hist with rd := (s.hist.count - distanceOf s.cfg r len extra) % s.cfg.historySize }) rfl rfl rfl
  have hcount := nextCodeLoop_bitsLeft hloop
  refine ⟨⟨h.cfg_valid, hstart.nextCodeLoop hloop, h.tree, hring.copyLoop len 0⟩, ?_⟩
  exact Nat.le_trans (Nat.le_add_right _ _) (Nat.le_of_eq hcount)

/-- A completed fetch keeps the invariant and reads at least one bit. -/
theorem RunInv.decodeSym {sym : Nat} (hlaw : hp.Lawful Good) (h : RunInv Good s)
    (hd : Machine.decodeSym hp s = .ok sym t) :
    RunInv Good t ∧ sym ≤ t.cfg.maxChar ∧ t.cursor.bitsLeft t.runLen < s.cursor.bitsLeft s.runLen := by
  obtain ⟨e, t', hraise, -⟩ | ⟨sym', t', hok, hsym, hgood, -, -, hw, hless, -⟩ :=
    fetchUnderAnyInstance hp Good s hlaw h.cfg_valid h.tree h.cursor
  · rw [hd] at hraise
    cases hraise
  · rw [hd] at hok
    cases hok
    obtain ⟨m, c, m', -, -, -, rfl⟩ := decodeSym_eq_ok.mp hd
    exact ⟨⟨h.cfg_valid, hw, hgood, h.ring⟩, hsym, hless⟩

/-- A pass of `RUN` that leaves `BUSY` standing has kept the invariant and read at least one bit. -/
theorem RunInv.runOne (hlaw : hp.Lawful Good) (h : RunInv Good s) (hr : Machine.runOne hp s = .next t)
    (hbusy : t.status = .busy) : RunInv Good t ∧ t.cursor.bitsLeft t.runLen < s.cursor.bitsLeft s.runLen := by
  obtain ⟨e, s1, -, rfl⟩ | ⟨sym, s1, op, hd, -, hx⟩ := runOne_eq_next.mp hr
  · cases hbusy
  · obtain ⟨h1, -, hless⟩ := h.decodeSym hlaw hd
    obtain ⟨b, -, rfl⟩ | ⟨-, rfl⟩ | ⟨r, len, -, hcopy⟩ | ⟨r, len, e, s2, -, -, rfl⟩ := execOp_eq_next.mp hx
    · exact ⟨⟨h1.cfg_valid, h1.cursor, h1.tree, h1.ring.appendLit b⟩, hless⟩
    · cases hbusy
    · obtain ⟨h2, hle⟩ := h1.copyInstr hcopy
      exact ⟨h2, Nat.lt_of_le_of_lt hle hless⟩
    · cases hbusy

/-- A pass of `RUN` keeps the canonical form of the ring. -/
theorem runOne_ring_wf (hring : Memory.wf s.hist.ring) (hr : runOne hp s = .next t) : Memory.wf t.hist.ring := by
  obtain ⟨e, s1, -, rfl⟩ | ⟨sym, s1, op, hd, -, hx⟩ := runOne_eq_next.mp hr
  · exact List.Pairwise.nil
  · obtain ⟨m, c, m', -, -, -, rfl⟩ := decodeSym_eq_ok.mp hd
    obtain ⟨b, -, rfl⟩ | ⟨-, rfl⟩ | ⟨r, len, -, hcopy⟩ | ⟨r, len, e, s2, -, -, rfl⟩ := execOp_eq_next.mp hx
    · exact Memory.wf_write hring _ _
    · exact hring
    · obtain ⟨extra, c', h', -, happly, rfl⟩ := copyInstr_eq_ok.mp hcopy
      obtain ⟨-, -, -, rfl⟩ := applyCopy_eq_ok.mp happly
      exact copyLoop_ring_wf _ _ _ hring
    · exact List.Pairwise.nil

/-- At the start of a run the invariant holds (R48). -/
theorem started_runInv (hlaw : hp.Lawful Good) (hv : s.cfgRegs.valid = true) : RunInv Good (s.started hp) where
  cfg_valid := hv
  cursor := ⟨Nat.zero_le _, Nat.zero_le _, fun _ => rfl, fun h => absurd rfl h⟩
  tree := hlaw.init s.cfgRegs s.model hv
  ring := ⟨rfl, fun _ hk => absurd hk (Nat.not_lt_zero _)⟩

/-! ### The invariant of the machine -/

/-- The host's registers, its schedule and its data are no part of the invariant. -/
theorem MachineInvFor.host_registers (h : MachineInvFor Good s)
    (ht : t = { s with
      inLen := t.inLen, cfgRegs := t.cfgRegs, hostQueue := t.hostQueue, hostData := t.hostData,
      freeCount := t.freeCount }) : MachineInvFor Good t := by
  rw [ht]
  refine ⟨h.inWin_wf, h.ring_wf, fun hbusy => ?_, h.errcode, h.outLen_done, h.outLen_zero⟩
  obtain ⟨hv, hw, htree, hring⟩ := h.run hbusy
  exact ⟨hv, hw, htree, hring⟩

/-- Every transaction of the host keeps the invariant. -/
theorem MachineInvFor.hostAccess {op : HostOp} (hlaw : hp.Lawful Good) (h : MachineInvFor Good s)
    (ha : Machine.hostAccess hp op s = .next t) : MachineInvFor Good t := by
  obtain ⟨v, -, -, -, hv, rfl⟩ | ⟨v, rfl⟩ | ⟨c, rfl⟩ | ⟨v, k, rfl⟩ | ⟨i, v, -, hidle, rfl⟩ := hostAccess_eq_next ha
  · exact ⟨h.inWin_wf, List.Pairwise.nil, fun _ => started_runInv hlaw hv, ⟨nofun, fun _ => rfl⟩, nofun, fun _ => rfl⟩
  · exact h.host_registers rfl
  · exact h.host_registers rfl
  · exact h.host_registers rfl
  · exact ⟨Memory.wf_write h.inWin_wf i v, h.ring_wf, fun hbusy => absurd hbusy hidle, h.errcode, h.outLen_done,
      h.outLen_zero⟩

/-- Every move of the engine keeps the invariant. -/
theorem MachineInvFor.engineStep (hlaw : hp.Lawful Good) (h : MachineInvFor Good s)
    (he : Machine.engineStep hp s = .next t) : MachineInvFor Good t := by
  by_cases hbusy : s.status = .busy
  · rw [engineStep_busy hbusy] at he
    have hrun := h.run hbusy
    have hring := runOne_ring_wf h.ring_wf he
    have hkeep := hrun.runOne hlaw he
    have herr : s.errcode = none := h.errcode.mpr (by rw [hbusy]; decide)
    cases runOne_ends he with
    | failed e s1 frame =>
      have hin : s1.inWin = s.inWin := by rw [frame]
      exact ⟨hin ▸ h.inWin_wf, hring, nofun, ⟨nofun, fun hne => absurd rfl hne⟩, nofun, fun _ => rfl⟩
    | goesOn _ frame =>
      have hstatus : t.status = .busy := by rw [frame]; exact hbusy
      have hin : t.inWin = s.inWin := by rw [frame]
      have herr' : t.errcode = none := by rw [frame]; exact herr
      refine ⟨hin ▸ h.inWin_wf, hring, fun hb => (hkeep hb).1, ⟨fun _ => ?_, fun _ => herr'⟩, fun hdone => ?_,
        fun hend => ?_⟩
      · rw [hstatus]; decide
      · rw [hstatus] at hdone; cases hdone
      · rw [hstatus] at hend; obtain hend | hend := hend <;> cases hend
    | done c m d =>
      exact ⟨h.inWin_wf, hring, nofun, ⟨nofun, fun _ => herr⟩, fun _ => hrun.ring.count_eq,
        fun hend => by obtain hend | hend := hend <;> cases hend⟩
  · rw [engineStep_idle hbusy] at he
    cases he
    exact h

end Run

/-- Settles O59: the step is a transaction of the host or a move of the engine. -/
theorem stepKeepsTheInvariantOfAnyInstance : Obligations.StepKeepsTheInvariantOfAnyInstance := by
  intro hp Good s t hlaw h hstep
  have hinv : MachineInvFor Good t := by
    obtain ⟨op, q, -, -, hop⟩ | ⟨q, -, hengine⟩ := stepWith_eq_next hstep
    · exact (h.host_registers (t := s.withQueue q) rfl).hostAccess hlaw hop
    · exact (h.host_registers (t := s.withQueue q) rfl).engineStep hlaw hengine
  refine ⟨hinv, fun hbusy => ?_⟩
  obtain ⟨hv, -, htree, -⟩ := hinv.run hbusy
  exact hlaw.wellFormed t.cfg t.model hv htree

/-- Settles O53: the default parameters are lawful for the trees of R115 and R116. -/
theorem stepKeepsTheInvariant : Obligations.StepKeepsTheInvariant := by
  intro s t h hstep
  exact (stepKeepsTheInvariantOfAnyInstance .default DefaultTree s t defaultInstanceIsLawful h hstep).1

/-! ### Every run finishes -/

/-- A copy of an expressible length answers a next state: its bits are missing, its distance is invalid, or it is
done. -/
theorem runCopy_next {Good : Cfg → HuffmanModel → Prop} {s : State} (h : RunInv Good s) (r : CopyRange) {len : Nat}
    (hlen : s.cfg.copyLengthOk len = true) : ∃ t, runCopy r len s = .next t := by
  obtain ⟨hv, hw, -, hring⟩ := h
  obtain hshort | hbits := Nat.lt_or_ge (s.cursor.bitsLeft s.runLen) (s.cfg.copyBits.get r)
  · obtain ⟨t, ht, -⟩ := runCopy_cutShort (len := len) hv hw hshort
    exact ⟨t, ht⟩
  · obtain hfar | hdist := Nat.lt_or_ge s.hist.count (s.distanceAt r len)
    · obtain ⟨t, ht, -⟩ := runCopy_tooFar hv hlen hw hbits hfar
      exact ⟨t, ht⟩
    · obtain ⟨t, ht, -⟩ := runCopy_completes hv hlen hw hring hbits hdist
      exact ⟨t, ht⟩

/-- Under lawful parameters a pass of `RUN` is never refused (R14). -/
theorem RunInv.runOne_next {hp : HuffParams} {Good : Cfg → HuffmanModel → Prop} {s : State} (hlaw : hp.Lawful Good)
    (h : RunInv Good s) : ∃ t, Machine.runOne hp s = .next t := by
  obtain ⟨e, s1, hraise, -⟩ | ⟨sym, s1, hok, -⟩ :=
    fetchUnderAnyInstance hp Good s hlaw h.cfg_valid h.tree h.cursor
  · exact ⟨_, runOne_of_raise hraise⟩
  · obtain ⟨h1, hsym, -⟩ := h.decodeSym hlaw hok
    obtain ⟨op, hop, hwf, -⟩ := everySymbolIsAnInstruction s1.cfg sym h1.cfg_valid hsym
    have hnext : ∃ t, execOp op s1 = .next t := by
      cases op with
      | lit b => exact ⟨_, rfl⟩
      | term => exact ⟨_, rfl⟩
      | copy r len => exact runCopy_next h1 r hwf
    obtain ⟨t, ht⟩ := hnext
    exact ⟨t, runOne_eq_next.mpr (.inr ⟨sym, s1, op, hok, hop, ht⟩)⟩

/-- A run that is over stays as it is. -/
theorem runSteps_idle {hp : HuffParams} {s : State} (hidle : s.status ≠ .busy) (hq : s.hostQueue = []) (k : Nat) :
    runSteps hp k s = .next s := by
  induction k with
  | zero => rfl
  | succ k ih =>
    rw [runSteps, idleBlockHoldsItsState hp s hidle hq]
    exact ih

/-- A run with fewer bits left than steps to come finishes: each pass of `RUN` ends it or reads a bit. -/
theorem RunInv.finishes {hp : HuffParams} {Good : Cfg → HuffmanModel → Prop} (hlaw : hp.Lawful Good) {k : Nat}
    {s : State} (h : RunInv Good s) (hbusy : s.status = .busy) (hq : s.hostQueue = [])
    (hk : s.cursor.bitsLeft s.runLen < k) : ∃ t, runSteps hp k s = .next t ∧ t.finished := by
  induction k generalizing s with
  | zero => exact absurd hk (Nat.not_lt_zero _)
  | succ k ih =>
    obtain ⟨s1, hrun⟩ := h.runOne_next hlaw
    have hstep : stepWith hp s = .next s1 := (stepWith_run hbusy hq).trans hrun
    have hengine : engineStep hp s = .next s1 := (engineStep_busy hbusy).trans hrun
    obtain ⟨-, -, -, -, -, hqueue, -⟩ := engineNeverWritesItsInput hp s s1 hengine
    have hq1 : s1.hostQueue = [] := hqueue.trans hq
    have hrest : runSteps hp (k + 1) s = runSteps hp k s1 := by rw [runSteps, hstep]
    rw [hrest]
    by_cases hbusy1 : s1.status = .busy
    · obtain ⟨h1, hless⟩ := h.runOne hlaw hrun hbusy1
      exact ih h1 hbusy1 hq1 (by omega)
    · refine ⟨s1, runSteps_idle hbusy1 hq1 k, ?_⟩
      exact ((statusTransitions hp s s1 hstep).2 hbusy).resolve_left hbusy1

/-- Settles O54: at the start all of the input's `8 * IN_LEN` bits are left. -/
theorem everyRunFinishes : Obligations.EveryRunFinishes := by
  intro hp Good s hlaw hv hq
  have hleft : (s.started hp).cursor.bitsLeft (s.started hp).runLen = 8 * s.inLen := rfl
  exact (started_runInv hlaw hv).finishes hlaw rfl hq (by rw [hleft]; exact Nat.lt_succ_self _)

end Sys2Proof.Machine
end

