-- ==== Sys2Proof/Proofs/Isolation.lean ====
section
/-!
PROOFS. Nothing of an earlier run influences a later one (R152, R49): two states that agree in what `START` sets run
alike. They may differ in the working registers (R28, R34), in the host's data and in the counter of free values (log
3).
-/

namespace Sys2Proof.Machine

/-- Results that agree, over states related by `K`: both complete with one value, both raise one error, or both are
refused for one reason. -/
inductive Res.Agree {σ α : Type} (K : σ → σ → Prop) : Res σ α → Res σ α → Prop
  | ok (v : α) {s t : σ} (h : K s t) : Res.Agree K (.ok v s) (.ok v t)
  | raise (e : ErrKind) {s t : σ} (h : K s t) : Res.Agree K (.raise e s) (.raise e t)
  | refused (r : Refusal) : Res.Agree K (.refused r) (.refused r)

section Agree

variable {σ τ α β : Type} {K : σ → σ → Prop}

theorem Res.Agree.lift {L : τ → τ → Prop} {x y : Res σ α} {put put' : σ → τ} (h : Res.Agree K x y)
    (hput : ∀ s t, K s t → L (put s) (put' t)) : Res.Agree L (x.lift put) (y.lift put') := by
  cases h with
  | ok v h => exact .ok v (hput _ _ h)
  | raise e h => exact .raise e (hput _ _ h)
  | refused r => exact .refused r

theorem Res.Agree.andThen {x y : Res σ α} {k l : α → σ → Res σ β} (h : Res.Agree K x y)
    (hk : ∀ v s t, K s t → Res.Agree K (k v s) (l v t)) : Res.Agree K (x.andThen k) (y.andThen l) := by
  cases h with
  | ok v h => exact hk v _ _ h
  | raise e h => exact .raise e h
  | refused r => exact .refused r

end Agree

/-! ### The cursor -/

/-- Cursors at one position of the stream; the registers of `NEXTCODE` may differ. -/
structure SameCursor (c d : BitCursor) : Prop where
  pos : c.pos = d.pos
  bitbuf : c.bitbuf = d.bitbuf
  bitcnt : c.bitcnt = d.bitcnt

theorem SameCursor.refl (c : BitCursor) : SameCursor c c := ⟨rfl, rfl, rfl⟩

theorem SameCursor.nextBit {inp : Memory} {len : Nat} {c d : BitCursor} (h : SameCursor c d) :
    Res.Agree SameCursor (nextBit inp len c) (nextBit inp len d) := by
  obtain ⟨pos, bitbuf, bitcnt, code, mask⟩ := c
  obtain ⟨pos', bitbuf', bitcnt', code', mask'⟩ := d
  obtain ⟨rfl, rfl, rfl⟩ := h
  simp only [Machine.nextBit, takeBit]
  split
  · split
    · exact .raise _ ⟨rfl, rfl, rfl⟩
    · exact .ok _ ⟨rfl, rfl, rfl⟩
  · exact .ok _ ⟨rfl, rfl, rfl⟩

/-- `NEXTCODE` sets its registers first. -/
theorem SameCursor.nextCode {inp : Memory} {len n : Nat} {c d : BitCursor} (h : SameCursor c d) :
    nextCode inp len n c = nextCode inp len n d := by
  obtain ⟨pos, bitbuf, bitcnt, code, mask⟩ := c
  obtain ⟨pos', bitbuf', bitcnt', code', mask'⟩ := d
  obtain ⟨rfl, rfl, rfl⟩ := h
  rfl

theorem SameCursor.bitsLeft {len : Nat} {c d : BitCursor} (h : SameCursor c d) : c.bitsLeft len = d.bitsLeft len := by
  rw [BitCursor.bitsLeft, BitCursor.bitsLeft, h.pos, h.bitcnt]

/-! ### The walk -/

/-- Walks at one node of one arena and one position of the stream. -/
structure SameWalk (p q : HuffmanModel × BitCursor) : Prop where
  arena : p.1.toArena = q.1.toArena
  a : p.1.a = q.1.a
  cursor : SameCursor p.2 q.2

theorem SameWalk.walk {cfg : Cfg} {inp : Memory} {len f : Nat} {m m' : HuffmanModel} {c c' : BitCursor}
    (h : SameWalk (m, c) (m', c')) :
    Res.Agree SameWalk (walk cfg inp len f m c) (walk cfg inp len f m' c') := by
  induction f generalizing m m' c c' with
  | zero => exact .raise _ h
  | succ f ih =>
    obtain ⟨harena, ha, hcursor⟩ := h
    simp only at harena ha hcursor
    have hbit := hcursor.nextBit (inp := inp) (len := len)
    rw [Machine.walk, Machine.walk, ha, childOf_arena harena]
    split
    · revert hbit
      generalize nextBit inp len c = x, nextBit inp len c' = y
      intro hbit
      cases hbit with
      | ok bit hc =>
        simp only
        split
        · exact .raise _ ⟨harena, rfl, hc⟩
        · exact ih ⟨harena, rfl, hc⟩
      | raise e hc => exact .raise e ⟨harena, ha, hc⟩
      | refused r => exact .refused r
    · exact .ok () ⟨harena, ha, hcursor⟩

/-! ### The ring -/

/-- One history; the registers of `APPLYCOPY` may differ. -/
structure SameHist (g h : HistoryRing) : Prop where
  ring : g.ring = h.ring
  count : g.count = h.count
  out : g.out = h.out

theorem SameHist.appendLit {g h : HistoryRing} (hs : SameHist g h) (size : Nat) (v : Byte) :
    SameHist (appendLit size v g) (appendLit size v h) := by
  refine ⟨?_, ?_, ?_⟩
  · rw [appendLit_ring, appendLit_ring, hs.ring, hs.count]
  · rw [appendLit_count, appendLit_count, hs.count]
  · rw [appendLit_out, appendLit_out, hs.out]

theorem SameHist.copyLoop {g h : HistoryRing} (hs : SameHist g h) (hrd : g.rd = h.rd) (size n i : Nat) :
    SameHist (copyLoop size n i g) (copyLoop size n i h) := by
  induction n generalizing i g h with
  | zero => exact hs
  | succ n ih =>
    rw [copyLoop_succ, copyLoop_succ, hs.ring, hrd]
    obtain ⟨hring, hcount, hout⟩ := hs.appendLit size (ringByte h.ring h.rd)
    exact ih (g := { Machine.appendLit size (ringByte h.ring h.rd) g with i := i, rd := (h.rd + 1) % size })
      (h := { Machine.appendLit size (ringByte h.ring h.rd) h with i := i, rd := (h.rd + 1) % size })
      ⟨hring, hcount, hout⟩ rfl (i + 1)

theorem SameHist.applyCopy {g h : HistoryRing} (hs : SameHist g h) (size length distance : Nat) :
    Res.Agree SameHist (applyCopy size length distance g) (applyCopy size length distance h) := by
  rw [Machine.applyCopy, Machine.applyCopy, hs.count]
  split
  · exact .refused _
  · split
    · exact .raise _ hs
    · obtain ⟨hring, -, hout⟩ := hs
      exact .ok () (SameHist.copyLoop (g := { g with count := h.count, rd := (h.count - distance) % size })
        (h := { h with rd := (h.count - distance) % size }) ⟨hring, rfl, hout⟩ rfl size length 0)

/-! ### The run -/

/-- Two runs at one point: they agree in everything that the rest of a run depends on. -/
structure SameRun (s t : State) : Prop where
  cursor : SameCursor s.cursor t.cursor
  arena : s.model.toArena = t.model.toArena
  hist : SameHist s.hist t.hist
  status : s.status = t.status
  errcode : s.errcode = t.errcode
  outLen : s.outLen = t.outLen
  inWin : s.inWin = t.inWin
  cfg : s.cfg = t.cfg
  runLen : s.runLen = t.runLen
  queue : s.hostQueue = [] ∧ t.hostQueue = []

/-- Two runs that the host cannot tell apart: at one point, or over with the same result. -/
inductive Twin (s t : State) : Prop
  | running (h : SameRun s t)
  | ended (hs : s.status ≠ .busy) (ht : t.status ≠ .busy) (queue : s.hostQueue = [] ∧ t.hostQueue = [])
      (view : s.hostView = t.hostView)

theorem SameRun.hostView {s t : State} (h : SameRun s t) : s.hostView = t.hostView := by
  rw [State.hostView, State.hostView, h.status, h.errcode, h.outLen, h.hist.out]

theorem Twin.hostView {s t : State} (h : Twin s t) : s.hostView = t.hostView := by
  cases h with
  | running h => exact h.hostView
  | ended _ _ _ view => exact view

/-- Outcomes of two runs that the host cannot tell apart. -/
inductive TwinOutcome : Host.Outcome State Fault Refusal → Host.Outcome State Fault Refusal → Prop
  | next {s t : State} (h : Twin s t) : TwinOutcome (.next s) (.next t)
  | refused (r : Refusal) : TwinOutcome (.refused r) (.refused r)

/-- The error of two runs at one point shows the same (R172). -/
theorem SameRun.abort {s t : State} (h : SameRun s t) (e : ErrKind) : Twin (abort e s) (abort e t) :=
  .ended nofun nofun h.queue rfl

theorem SameRun.decodeSym {hp : HuffParams} {Good : Cfg → HuffmanModel → Prop} (hlaw : hp.Lawful Good) {s t : State}
    (h : SameRun s t) : Res.Agree SameRun (decodeSym hp s) (decodeSym hp t) := by
  have hwalk : Res.Agree SameWalk s.walk t.walk := by
    rw [State.walk, State.walk, ← h.cfg, ← h.inWin, ← h.runLen, ← h.cursor.bitsLeft]
    exact SameWalk.walk ⟨h.arena, rfl, h.cursor⟩
  rw [Machine.decodeSym, Machine.decodeSym]
  revert hwalk
  generalize s.walk = x, t.walk = y
  intro hwalk
  cases hwalk with
  | @ok u p q hs =>
    obtain ⟨m, c⟩ := p
    obtain ⟨m', c'⟩ := q
    obtain ⟨harena, ha, hc⟩ := hs
    simp only at harena ha hc
    have hupdate := hlaw.arenaOnly s.cfg m.a m m' harena
    simp only [← ha, ← h.cfg]
    revert hupdate
    generalize hp.update s.cfg m.a m = o, hp.update s.cfg m.a m' = o'
    intro hupdate
    cases o with
    | none =>
      obtain rfl := Option.map_eq_none_iff.mp hupdate.symm
      exact .refused _
    | some n =>
      obtain ⟨n', rfl, hn⟩ := Option.map_eq_some_iff.mp hupdate.symm
      exact .ok _ { h with cursor := hc, arena := hn.symm }
  | @raise e p q hs =>
    exact .raise e { h with cursor := hs.cursor, arena := hs.arena }
  | refused r => exact .refused r

theorem SameRun.copyInstr {s t : State} (h : SameRun s t) (r : CopyRange) (len : Nat) :
    Res.Agree SameRun (copyInstr r len s) (copyInstr r len t) := by
  have hcode : Res.Agree SameRun
      ((s.withDec { s.dec with r := r.index, length := len }).nextCode (s.cfg.copyBits.get r))
      ((t.withDec { t.dec with r := r.index, length := len }).nextCode (t.cfg.copyBits.get r)) := by
    have heq := h.cursor.nextCode (inp := t.inWin) (len := t.runLen) (n := t.cfg.copyBits.get r)
    simp only [State.nextCode, State.withDec_inWin, State.withDec_runLen, State.withDec_cursor, h.inWin, h.runLen,
      h.cfg, heq]
    cases nextCode t.inWin t.runLen (t.cfg.copyBits.get r) t.cursor with
    | ok v c => exact .ok v { h with cursor := .refl c }
    | raise e c => exact .raise e { h with cursor := .refl c }
    | refused r => exact .refused r
  refine hcode.andThen fun extra s' t' h' => ?_
  simp only [State.applyCopy, State.withDec_cfg, State.withDec_hist, h.cfg, h'.cfg]
  exact (h'.hist.applyCopy _ _ _).lift fun g k hs => { h' with hist := hs }

theorem SameRun.execOp {s t : State} (h : SameRun s t) (op : Op) : TwinOutcome (execOp op s) (execOp op t) := by
  cases op with
  | lit b =>
    refine .next (.running { h with hist := ?_ })
    rw [State.withHist_hist, State.withHist_hist, h.cfg]
    exact h.hist.appendLit _ b
  | term =>
    refine .next (.ended nofun nofun h.queue ?_)
    simp only [State.hostView, h.errcode, h.hist.count, h.hist.out]
  | copy r len =>
    have hcopy := h.copyInstr r len
    rw [Machine.execOp, Machine.execOp, runCopy, runCopy]
    revert hcopy
    generalize Machine.copyInstr r len s = x, Machine.copyInstr r len t = y
    intro hcopy
    cases hcopy with
    | ok u h' => exact .next (.running h')
    | raise e h' => exact .next (h'.abort e)
    | refused q => exact .refused q

theorem SameRun.runOne {hp : HuffParams} {Good : Cfg → HuffmanModel → Prop} (hlaw : hp.Lawful Good) {s t : State}
    (h : SameRun s t) : TwinOutcome (runOne hp s) (runOne hp t) := by
  have hfetch := h.decodeSym hlaw
  rw [Machine.runOne, Machine.runOne]
  revert hfetch
  generalize Machine.decodeSym hp s = x, Machine.decodeSym hp t = y
  intro hfetch
  cases hfetch with
  | @ok sym s1 t1 h1 =>
    simp only [h1.cfg, decodeSymbol]
    cases dispatchSymbol t1.cfg sym with
    | ok op =>
      simp only [runDecoded_toDecoded]
      exact h1.execOp op
    | error e => exact .refused _
  | raise e h1 => exact .next (h1.abort e)
  | refused r => exact .refused r

/-- One step keeps two runs indistinguishable. -/
theorem Twin.stepWith {hp : HuffParams} {Good : Cfg → HuffmanModel → Prop} (hlaw : hp.Lawful Good) {s t : State}
    (h : Twin s t) : TwinOutcome (stepWith hp s) (stepWith hp t) := by
  cases h with
  | running h =>
    obtain ⟨hqs, hqt⟩ := h.queue
    by_cases hbusy : s.status = .busy
    · rw [stepWith_run hbusy hqs, stepWith_run (h.status ▸ hbusy) hqt]
      exact h.runOne hlaw
    · rw [idleBlockHoldsItsState hp s hbusy hqs, idleBlockHoldsItsState hp t (h.status ▸ hbusy) hqt]
      exact .next (.running h)
  | ended hs ht queue view =>
    rw [idleBlockHoldsItsState hp s hs queue.1, idleBlockHoldsItsState hp t ht queue.2]
    exact .next (.ended hs ht queue view)

theorem Twin.runSteps {hp : HuffParams} {Good : Cfg → HuffmanModel → Prop} (hlaw : hp.Lawful Good) (k : Nat)
    {s t : State} (h : Twin s t) : SameForHost (runSteps hp k s) (runSteps hp k t) := by
  induction k generalizing s t with
  | zero => exact h.hostView
  | succ k ih =>
    have hstep := h.stepWith hlaw
    rw [Machine.runSteps, Machine.runSteps]
    revert hstep
    generalize Machine.stepWith hp s = x, Machine.stepWith hp t = y
    intro hstep
    cases hstep with
    | next h' => exact ih h'
    | refused r => exact (rfl : r = r)

/-- Settles O55: `START` sets everything that a run depends on, and the runs keep agreeing in it. -/
theorem runsAreIsolated : Obligations.RunsAreIsolated := by
  intro hp Good s1 s2 k hlaw _ hcfg hlen hin hq1 hq2
  refine Twin.runSteps hlaw k (.running ?_)
  exact
    { cursor := ⟨rfl, rfl, rfl⟩
      arena := congrArg hp.init hcfg
      hist := ⟨rfl, rfl, rfl⟩
      status := rfl
      errcode := rfl
      outLen := rfl
      inWin := hin
      cfg := hcfg
      runLen := hlen
      queue := ⟨hq1, hq2⟩ }

end Sys2Proof.Machine
end
